-- ==== Sys2Proof/Word.lean ====
section
/-! DEFINITION. The plain types of the Omega CPU: words, half-words, bytes, register and port numbers
(`00_scope.md` R7, R14). -/

namespace Sys2Proof

/-- A word is 32 bits (`00_scope.md` R7); registers and addresses are words. -/
abbrev Word := BitVec 32

/-- A half-word is 16 bits (`00_scope.md` R7). -/
abbrev Half := BitVec 16

/-- A byte is 8 bits, the unit of memory addressing (`00_scope.md` R7). -/
abbrev Byte := BitVec 8

/-- A register number, 0 to 31: any value of a 5-bit register field (`10_state.md` R20). -/
abbrev RegNum := BitVec 5

/-- A port number, 0 to 31: the 5-bit field P (`45_port_io.md` R192). -/
abbrev PortNum := BitVec 5

end Sys2Proof
end

