-- ==== Sys2Proof/Config.lean ====
section
/-! DEFINITION. What an implementation fixes and what the manual leaves open.

The `opaque` constants are FREE VALUES: they have no body, so no proof can learn what they are, and a statement
about the model holds for every value they could have. The first argument of each is the state's count of draws so
far (`Machine.State.draws`), so that two draws of one run need not agree; the others are what the value may depend
on. Each is named in a log entry. -/

namespace Sys2Proof

/-- The three shifts (`42_shift.md` R150). -/
inductive ShiftOp where
  /-- Arithmetic right shift: fills with copies of bit 31. -/
  | sra
  /-- Logical right shift: fills with zeros. -/
  | srl
  /-- Left shift: fills with zeros. -/
  | sll
  deriving DecidableEq, Repr

/-- One access of the core to a port, as the environment sees it (`45_port_io.md` R190, R191). -/
inductive PortEvent where
  /-- `PortRead(p)` was answered with `v`. -/
  | read (p : PortNum) (v : Word)
  /-- `PortWrite(p, v)` delivered `v`. -/
  | write (p : PortNum) (v : Word)
  deriving DecidableEq, Repr

/-- What the environment has ready for one port read (`45_port_io.md` R190, decision D26). -/
inductive PortAnswer where
  /-- The port controller answers `v`, after whatever time it takes. -/
  | value (v : Word)
  /-- The port controller never answers, and the read never completes. -/
  | never
  deriving DecidableEq, Repr

/-- The two fields a JR word may name its register in (`30_encoding.md` R86). -/
inductive JrField where
  /-- Field R_A, bits 25 to 21, as the pseudo-C and the assembler listing have it. -/
  | ra
  /-- Field R_B, bits 20 to 16, as the two encoding tables have it. -/
  | rb
  deriving DecidableEq, Repr

namespace Config

/-! ### The parameters whose value the spec decides (`00_scope.md` R8) -/

/-- `RESET_PC`, the address of the first instruction fetched (`00_scope.md` R8, `10_state.md` R37, decision D22;
log 4). -/
def resetPc : Word := 0#32

/-- `JR_REG_FIELD`, the field of a JR word that names its register (`30_encoding.md` R86, decision D1; log 26). -/
def jrRegField : JrField := .rb

/-- `REL_BASE`, the value of "PC" in relative jumps and in reads of register 31, minus the address of the instruction
(`10_state.md` R26, decision D2; log 7). -/
def relBase : Word := 4#32

/-- `R0_DEST_WHOLE_NOP`: does an instruction with destination register 0 lose all its effects, rather than the register
write only (`10_state.md` R21, decision D4; log 5)? -/
def r0DestWholeNop : Bool := false

/-- `STATUS_UNUSED_STORED`: do bits 31 to 1 of register 30 keep a written value, rather than read as zero (`10_state.md`
R25, decision D5; log 6)? -/
def statusUnusedStored : Bool := true

/-! ### The free values -/

/-- `SHIFT_BIG`: the result of shifting `v` by an amount `n` of 32 or more (`42_shift.md` R150, decision D15;
log 17). Free. -/
opaque shiftBig (draw : Nat) (op : ShiftOp) (v n : Word) : Word

/-- `DIV_ZERO`: what register 30 holds after a DIV or DIVU of `a` by zero, "Status = DivideOverflow", given what it held
before (`41_arithmetic.md` R143, decision D10; log 12). Free. -/
opaque divZeroStatus (draw : Nat) (a before : Word) : Word

/-- `SDIV_OVERFLOW`: the quotient of signed 0x80000000 / 0xFFFFFFFF (`41_arithmetic.md` R142, decision D13;
log 15). Free. -/
opaque sdivOverflowQuot (draw : Nat) : Word

/-- `SDIV_OVERFLOW`: the remainder of signed 0x80000000 / 0xFFFFFFFF (`41_arithmetic.md` R142, decision D13;
log 15). Free. -/
opaque sdivOverflowRem (draw : Nat) : Word

/-- `DIVI_EVEN_MODE`: DIVI of `a` by an even immediate `i` when one of them is negative (`41_arithmetic.md` R141,
decision D14; log 16). Free. -/
opaque diviEvenMode (draw : Nat) (a : Word) (i : Half) : Word

/-- `PORT_ENV`: what a read of port `p` answers after the accesses `seen`, once the environment's script has ended
(`45_port_io.md` R190, decision D26; log 28). Free. -/
opaque portAnswer (draw : Nat) (seen : List PortEvent) (p : PortNum) : Word

end Config

end Sys2Proof
end

