-- ==== Sys2Proof/Syntax.lean ====
section
/-! DEFINITION. The instruction set: one constructor per row of the opcode table (`30_encoding.md` R88), with the
operand fields of the row's format (R81 to R83) and nothing else. A register operand names the field it comes from:
`ra` is R_A, bits 25 to 21; `rb` is R_B, bits 20 to 16; `rc` is R_C, bits 15 to 11; `rd` is R_D, bits 10 to 6;
`i`, `ia`, `ic` are the immediates I, I_A, I_C as bits; `p` is the port number P. -/

namespace Sys2Proof

/-- An Omega CPU instruction: one constructor per row of `spec/opcode_table.json`. -/
inductive Instr where
  /-- OR, format 3R, opcode 0x00 (R121). -/
  | or (ra rb rc : RegNum)
  /-- ORI, format 2R+I, opcode 0x01 (R122). -/
  | ori (ra rb : RegNum) (i : Half)
  /-- AND, format 3R, opcode 0x02 (R123). -/
  | and (ra rb rc : RegNum)
  /-- ANDI, format 2R+I, opcode 0x03 (R124). -/
  | andi (ra rb : RegNum) (i : Half)
  /-- XOR, format 3R, opcode 0x04 (R125). -/
  | xor (ra rb rc : RegNum)
  /-- XORI, format 2R+I, opcode 0x05 (R126). -/
  | xori (ra rb : RegNum) (i : Half)
  /-- Opcode 0x06, "Invalid Instr." (R91); `low` is what the other 26 bits hold. -/
  | invalid06 (low : BitVec 26)
  /-- Opcode 0x07, "Invalid Instr." (R91); `low` is what the other 26 bits hold. -/
  | invalid07 (low : BitVec 26)
  /-- ADD, format 3R, opcode 0x08 (R131). -/
  | add (ra rb rc : RegNum)
  /-- ADDI, format 2R+I, opcode 0x09 (R132). -/
  | addi (ra rb : RegNum) (i : Half)
  /-- SUB, format 3R, opcode 0x0A (R133). -/
  | sub (ra rb rc : RegNum)
  /-- SUBI, format 2R+I, opcode 0x0B (R134). -/
  | subi (ra rb : RegNum) (i : Half)
  /-- MULT, format 3R, opcode 0x0C (R135). -/
  | mult (ra rb rc : RegNum)
  /-- MULTI, format 2R+I, opcode 0x0D (R136). -/
  | multi (ra rb : RegNum) (i : Half)
  /-- DIV, format 4R+M, opcode 0x0E with DM = 1 (R140): signed. -/
  | div (ra rb rc rd : RegNum)
  /-- DIVU, format 4R+M, opcode 0x0E with DM = 0 (R140): unsigned. -/
  | divu (ra rb rc rd : RegNum)
  /-- DIVI, format 2R+I, opcode 0x0F (R141). -/
  | divi (ra rb : RegNum) (i : Half)
  /-- SRAV, format 3R, opcode 0x10 (R151). -/
  | srav (ra rb rc : RegNum)
  /-- SRA, format 2R+I, opcode 0x11 (R152). -/
  | sra (ra rb : RegNum) (i : Half)
  /-- SRLV, format 3R, opcode 0x12 (R153). -/
  | srlv (ra rb rc : RegNum)
  /-- SRL, format 2R+I, opcode 0x13 (R154). -/
  | srl (ra rb : RegNum) (i : Half)
  /-- SLLV, format 3R, opcode 0x14 (R155). -/
  | sllv (ra rb rc : RegNum)
  /-- SLL, format 2R+I, opcode 0x15 (R156). -/
  | sll (ra rb : RegNum) (i : Half)
  /-- SLLV by its duplicate opcode 0x16, format 3R (R155, R90). -/
  | sllvDup (ra rb rc : RegNum)
  /-- SLL by its duplicate opcode 0x17, format 2R+I (R156, R90). -/
  | sllDup (ra rb : RegNum) (i : Half)
  /-- EQ, format 3R, opcode 0x18 (R161). -/
  | eq (ra rb rc : RegNum)
  /-- EQI, format 2R+I, opcode 0x19 (R162). -/
  | eqi (ra rb : RegNum) (i : Half)
  /-- EQ by its duplicate opcode 0x1A, format 3R (R161, R90). -/
  | eqDup (ra rb rc : RegNum)
  /-- EQUI, format 2R+I, opcode 0x1B (R163). -/
  | equi (ra rb : RegNum) (i : Half)
  /-- LT, format 3R, opcode 0x1C (R164). -/
  | lt (ra rb rc : RegNum)
  /-- LTI, format 2R+I, opcode 0x1D (R165). -/
  | lti (ra rb : RegNum) (i : Half)
  /-- LTU, format 3R, opcode 0x1E (R166). -/
  | ltu (ra rb rc : RegNum)
  /-- LTUI, format 2R+I, opcode 0x1F (R167). -/
  | ltui (ra rb : RegNum) (i : Half)
  /-- LBU, format 2R+I, opcode 0x20 (R171). -/
  | lbu (ra rb : RegNum) (i : Half)
  /-- LB, format 2R+I, opcode 0x21 (R172). -/
  | lb (ra rb : RegNum) (i : Half)
  /-- LHU, format 2R+I, opcode 0x22 (R173). -/
  | lhu (ra rb : RegNum) (i : Half)
  /-- LH, format 2R+I, opcode 0x23 (R174). -/
  | lh (ra rb : RegNum) (i : Half)
  /-- LW, format 2R+I, opcode 0x24 (R175). -/
  | lw (ra rb : RegNum) (i : Half)
  /-- SB, format 2R+I, opcode 0x25 (R176). -/
  | sb (ra rb : RegNum) (i : Half)
  /-- SH, format 2R+I, opcode 0x26 (R177). -/
  | sh (ra rb : RegNum) (i : Half)
  /-- SW, format 2R+I, opcode 0x27 (R178). -/
  | sw (ra rb : RegNum) (i : Half)
  /-- INPBU, format 1R+P, opcode 0x28 (R194). -/
  | inpbu (ra : RegNum) (p : PortNum)
  /-- INPB, format 1R+P, opcode 0x29 (R195). -/
  | inpb (ra : RegNum) (p : PortNum)
  /-- INPHU, format 1R+P, opcode 0x2A (R196). -/
  | inphu (ra : RegNum) (p : PortNum)
  /-- INPH, format 1R+P, opcode 0x2B (R197). -/
  | inph (ra : RegNum) (p : PortNum)
  /-- INP, format 1R+P, opcode 0x2C (R198). -/
  | inp (ra : RegNum) (p : PortNum)
  /-- OUTPB, format 1R+P, opcode 0x2D (R199). -/
  | outpb (ra : RegNum) (p : PortNum)
  /-- OUTPH, format 1R+P, opcode 0x2E (R200). -/
  | outph (ra : RegNum) (p : PortNum)
  /-- OUTP, format 1R+P, opcode 0x2F (R201). -/
  | outp (ra : RegNum) (p : PortNum)
  /-- JR, format 1R, opcode 0x30 (R210). -/
  | jr (rb : RegNum)
  /-- JA, format IA, opcode 0x31 (R211). -/
  | ja (ia : BitVec 26)
  /-- J, format IA, opcode 0x32 (R212). -/
  | j (ia : BitVec 26)
  /-- BZ, format 2R, opcode 0x33 (R213). -/
  | bz (ra rb : RegNum)
  /-- BZI, format 1R+I, opcode 0x34 (R214). -/
  | bzi (ra : RegNum) (ic : BitVec 21)
  /-- BNZ, format 2R, opcode 0x35 (R215). -/
  | bnz (ra rb : RegNum)
  /-- BNZI, format 1R+I, opcode 0x36 (R216). -/
  | bnzi (ra : RegNum) (ic : BitVec 21)
  /-- NOP, opcode 0x37, no operand (R217, R92). -/
  | nop
  /-- Opcode 0x38, "Invalid Instr." (R91); `low` is what the other 26 bits hold. -/
  | invalid38 (low : BitVec 26)
  /-- Opcode 0x39, "Invalid Instr." (R91); `low` is what the other 26 bits hold. -/
  | invalid39 (low : BitVec 26)
  /-- Opcode 0x3A, "Invalid Instr." (R91); `low` is what the other 26 bits hold. -/
  | invalid3A (low : BitVec 26)
  /-- Opcode 0x3B, "Invalid Instr." (R91); `low` is what the other 26 bits hold. -/
  | invalid3B (low : BitVec 26)
  /-- Opcode 0x3C, "Invalid Instr." (R91); `low` is what the other 26 bits hold. -/
  | invalid3C (low : BitVec 26)
  /-- Opcode 0x3D, "Invalid Instr." (R91); `low` is what the other 26 bits hold. -/
  | invalid3D (low : BitVec 26)
  /-- Opcode 0x3E, "Invalid Instr." (R91); `low` is what the other 26 bits hold. -/
  | invalid3E (low : BitVec 26)
  /-- Opcode 0x3F, "Invalid Instr." (R91); `low` is what the other 26 bits hold. -/
  | invalid3F (low : BitVec 26)
  deriving DecidableEq, Repr

end Sys2Proof
end

