-- ==== Sys2Proof/WellFormed.lean ====
section
/-! DEFINITION. Which terms of `Instr` are instructions of the hardware. Every operand field is a bit field of
exactly the encoding's width, so the one thing that can be wrong with a term is its opcode: Table 6 marks ten
opcodes "Invalid Instr." (`30_encoding.md` R88, R91). -/

namespace Sys2Proof

/-- Is this one of the 54 valid opcodes, rather than one of the ten marked "Invalid Instr."? -/
def Instr.isValid : Instr → Bool
  | .or _ _ _ => true
  | .ori _ _ _ => true
  | .and _ _ _ => true
  | .andi _ _ _ => true
  | .xor _ _ _ => true
  | .xori _ _ _ => true
  | .invalid06 _ => false
  | .invalid07 _ => false
  | .add _ _ _ => true
  | .addi _ _ _ => true
  | .sub _ _ _ => true
  | .subi _ _ _ => true
  | .mult _ _ _ => true
  | .multi _ _ _ => true
  | .div _ _ _ _ => true
  | .divu _ _ _ _ => true
  | .divi _ _ _ => true
  | .srav _ _ _ => true
  | .sra _ _ _ => true
  | .srlv _ _ _ => true
  | .srl _ _ _ => true
  | .sllv _ _ _ => true
  | .sll _ _ _ => true
  | .sllvDup _ _ _ => true
  | .sllDup _ _ _ => true
  | .eq _ _ _ => true
  | .eqi _ _ _ => true
  | .eqDup _ _ _ => true
  | .equi _ _ _ => true
  | .lt _ _ _ => true
  | .lti _ _ _ => true
  | .ltu _ _ _ => true
  | .ltui _ _ _ => true
  | .lbu _ _ _ => true
  | .lb _ _ _ => true
  | .lhu _ _ _ => true
  | .lh _ _ _ => true
  | .lw _ _ _ => true
  | .sb _ _ _ => true
  | .sh _ _ _ => true
  | .sw _ _ _ => true
  | .inpbu _ _ => true
  | .inpb _ _ => true
  | .inphu _ _ => true
  | .inph _ _ => true
  | .inp _ _ => true
  | .outpb _ _ => true
  | .outph _ _ => true
  | .outp _ _ => true
  | .jr _ => true
  | .ja _ => true
  | .j _ => true
  | .bz _ _ => true
  | .bzi _ _ => true
  | .bnz _ _ => true
  | .bnzi _ _ => true
  | .nop => true
  | .invalid38 _ => false
  | .invalid39 _ => false
  | .invalid3A _ => false
  | .invalid3B _ => false
  | .invalid3C _ => false
  | .invalid3D _ => false
  | .invalid3E _ => false
  | .invalid3F _ => false

/-- A well-formed instruction is one that Table 6 does not mark "Invalid Instr." (`30_encoding.md` R91). -/
abbrev Instr.WellFormed (i : Instr) : Prop := i.isValid = true

end Sys2Proof
end

