-- ==== Sys2Proof/Decode.lean ====
section
/-! DEFINITION. Decoding and encoding (`30_encoding.md` R80 to R97). Decoding a word is total: every 32-bit word is
one row of the opcode table (R95), an opcode marked "Invalid Instr." included. Decoding bytes rejects, by name, a list
that does not hold one whole instruction. Bits outside an instruction's fields are ignored on decode and zero on
encode (R84, decision D7; log 9). -/

namespace Sys2Proof

/-- Field R_A, bits 25 to 21 (R81). -/
def fieldRA (w : Word) : RegNum := w.extractLsb' 21 5

/-- Field R_B, bits 20 to 16 (R81). -/
def fieldRB (w : Word) : RegNum := w.extractLsb' 16 5

/-- Field R_C, bits 15 to 11 (R81). -/
def fieldRC (w : Word) : RegNum := w.extractLsb' 11 5

/-- Field R_D, bits 10 to 6 (R81). -/
def fieldRD (w : Word) : RegNum := w.extractLsb' 6 5

/-- Field DM, bit 0: 1 selects signed division (R81, R87). -/
def fieldDM (w : Word) : BitVec 1 := w.extractLsb' 0 1

/-- Field P, bits 20 to 16, overlapping R_B (R81). -/
def fieldP (w : Word) : PortNum := w.extractLsb' 16 5

/-- Field I, bits 15 to 0 (R81). -/
def fieldI (w : Word) : Half := w.extractLsb' 0 16

/-- Field I_A, bits 25 to 0 (R81). -/
def fieldIA (w : Word) : BitVec 26 := w.extractLsb' 0 26

/-- Field I_C, bits 20 to 0 (R81). -/
def fieldIC (w : Word) : BitVec 21 := w.extractLsb' 0 21

/-- The register field of JR, the one `JR_REG_FIELD` names (R86, decision D1; log 26). -/
def fieldJR (w : Word) : RegNum :=
  match Config.jrRegField with
  | .ra => fieldRA w
  | .rb => fieldRB w

/-- The opcode, bits 31 to 26 (R80). -/
def fieldOp (w : Word) : BitVec 6 := w.extractLsb' 26 6

/-- The decode procedure (R95): look the opcode up in the map of R88 and extract the fields of its format (R83). For
opcode 0x0E the DM bit selects the row: 1 is DIV, 0 is DIVU. JR's register is in the field of `JR_REG_FIELD` (R86).
The opcode is 6 bits wide, so the last arm is opcode 0x3F and no other. -/
def decodeWord (w : Word) : Instr :=
  match (fieldOp w).toNat with
  | 0x00 => .or (fieldRA w) (fieldRB w) (fieldRC w)
  | 0x01 => .ori (fieldRA w) (fieldRB w) (fieldI w)
  | 0x02 => .and (fieldRA w) (fieldRB w) (fieldRC w)
  | 0x03 => .andi (fieldRA w) (fieldRB w) (fieldI w)
  | 0x04 => .xor (fieldRA w) (fieldRB w) (fieldRC w)
  | 0x05 => .xori (fieldRA w) (fieldRB w) (fieldI w)
  | 0x06 => .invalid06 (fieldIA w)
  | 0x07 => .invalid07 (fieldIA w)
  | 0x08 => .add (fieldRA w) (fieldRB w) (fieldRC w)
  | 0x09 => .addi (fieldRA w) (fieldRB w) (fieldI w)
  | 0x0A => .sub (fieldRA w) (fieldRB w) (fieldRC w)
  | 0x0B => .subi (fieldRA w) (fieldRB w) (fieldI w)
  | 0x0C => .mult (fieldRA w) (fieldRB w) (fieldRC w)
  | 0x0D => .multi (fieldRA w) (fieldRB w) (fieldI w)
  | 0x0E => if fieldDM w = 1#1 then .div (fieldRA w) (fieldRB w) (fieldRC w) (fieldRD w)
            else .divu (fieldRA w) (fieldRB w) (fieldRC w) (fieldRD w)
  | 0x0F => .divi (fieldRA w) (fieldRB w) (fieldI w)
  | 0x10 => .srav (fieldRA w) (fieldRB w) (fieldRC w)
  | 0x11 => .sra (fieldRA w) (fieldRB w) (fieldI w)
  | 0x12 => .srlv (fieldRA w) (fieldRB w) (fieldRC w)
  | 0x13 => .srl (fieldRA w) (fieldRB w) (fieldI w)
  | 0x14 => .sllv (fieldRA w) (fieldRB w) (fieldRC w)
  | 0x15 => .sll (fieldRA w) (fieldRB w) (fieldI w)
  | 0x16 => .sllvDup (fieldRA w) (fieldRB w) (fieldRC w)
  | 0x17 => .sllDup (fieldRA w) (fieldRB w) (fieldI w)
  | 0x18 => .eq (fieldRA w) (fieldRB w) (fieldRC w)
  | 0x19 => .eqi (fieldRA w) (fieldRB w) (fieldI w)
  | 0x1A => .eqDup (fieldRA w) (fieldRB w) (fieldRC w)
  | 0x1B => .equi (fieldRA w) (fieldRB w) (fieldI w)
  | 0x1C => .lt (fieldRA w) (fieldRB w) (fieldRC w)
  | 0x1D => .lti (fieldRA w) (fieldRB w) (fieldI w)
  | 0x1E => .ltu (fieldRA w) (fieldRB w) (fieldRC w)
  | 0x1F => .ltui (fieldRA w) (fieldRB w) (fieldI w)
  | 0x20 => .lbu (fieldRA w) (fieldRB w) (fieldI w)
  | 0x21 => .lb (fieldRA w) (fieldRB w) (fieldI w)
  | 0x22 => .lhu (fieldRA w) (fieldRB w) (fieldI w)
  | 0x23 => .lh (fieldRA w) (fieldRB w) (fieldI w)
  | 0x24 => .lw (fieldRA w) (fieldRB w) (fieldI w)
  | 0x25 => .sb (fieldRA w) (fieldRB w) (fieldI w)
  | 0x26 => .sh (fieldRA w) (fieldRB w) (fieldI w)
  | 0x27 => .sw (fieldRA w) (fieldRB w) (fieldI w)
  | 0x28 => .inpbu (fieldRA w) (fieldP w)
  | 0x29 => .inpb (fieldRA w) (fieldP w)
  | 0x2A => .inphu (fieldRA w) (fieldP w)
  | 0x2B => .inph (fieldRA w) (fieldP w)
  | 0x2C => .inp (fieldRA w) (fieldP w)
  | 0x2D => .outpb (fieldRA w) (fieldP w)
  | 0x2E => .outph (fieldRA w) (fieldP w)
  | 0x2F => .outp (fieldRA w) (fieldP w)
  | 0x30 => .jr (fieldJR w)
  | 0x31 => .ja (fieldIA w)
  | 0x32 => .j (fieldIA w)
  | 0x33 => .bz (fieldRA w) (fieldRB w)
  | 0x34 => .bzi (fieldRA w) (fieldIC w)
  | 0x35 => .bnz (fieldRA w) (fieldRB w)
  | 0x36 => .bnzi (fieldRA w) (fieldIC w)
  | 0x37 => .nop
  | 0x38 => .invalid38 (fieldIA w)
  | 0x39 => .invalid39 (fieldIA w)
  | 0x3A => .invalid3A (fieldIA w)
  | 0x3B => .invalid3B (fieldIA w)
  | 0x3C => .invalid3C (fieldIA w)
  | 0x3D => .invalid3D (fieldIA w)
  | 0x3E => .invalid3E (fieldIA w)
  | _ => .invalid3F (fieldIA w)

/-- Why bytes were not decoded. -/
inductive DecodeReject where
  /-- There are not exactly four bytes: an instruction is one 32-bit word (R80, R94). Safe: nothing is decoded. -/
  | notOneWord (n : Nat)
  deriving DecidableEq, Repr

/-- The word whose bytes stand at increasing addresses as `b0`, `b1`, `b2`, `b3`: little-endian (`20_memory.md`
R51, R52). -/
def wordOfBytes (b0 b1 b2 b3 : Byte) : Word := b3 ++ b2 ++ b1 ++ b0

/-- Byte `k` of a word: bits 8k+7 to 8k (`20_memory.md` R53, R54). -/
def byteOfWord (w : Word) (k : Nat) : Byte := w.extractLsb' (8 * k) 8

/-- The bytes of a word as memory holds them, lowest address first (`20_memory.md` R52). -/
def bytesOfWord (w : Word) : List Byte := [byteOfWord w 0, byteOfWord w 1, byteOfWord w 2, byteOfWord w 3]

/-- Decode an instruction from its bytes in memory order. -/
def decodeBytes : List Byte → Except DecodeReject Instr
  | [b0, b1, b2, b3] => .ok (decodeWord (wordOfBytes b0 b1 b2 b3))
  | bs => .error (.notOneWord bs.length)

/-- The instruction the decoder reads from the `nbits` low bits of `w`, laid out in memory in the hardware's byte
order; every bit above `nbits` is 0 (R52, R80). -/
def decodeTableWord (nbits w : Nat) : Option Instr :=
  match decodeBytes (bytesOfWord (BitVec.ofNat 32 (w % 2 ^ nbits))) with
  | .ok i => some i
  | .error _ => none

/-- The opcode of each row of the opcode table (R88). -/
def Instr.opcode : Instr → BitVec 6
  | .or _ _ _ => 0x00#6
  | .ori _ _ _ => 0x01#6
  | .and _ _ _ => 0x02#6
  | .andi _ _ _ => 0x03#6
  | .xor _ _ _ => 0x04#6
  | .xori _ _ _ => 0x05#6
  | .invalid06 _ => 0x06#6
  | .invalid07 _ => 0x07#6
  | .add _ _ _ => 0x08#6
  | .addi _ _ _ => 0x09#6
  | .sub _ _ _ => 0x0A#6
  | .subi _ _ _ => 0x0B#6
  | .mult _ _ _ => 0x0C#6
  | .multi _ _ _ => 0x0D#6
  | .div _ _ _ _ => 0x0E#6
  | .divu _ _ _ _ => 0x0E#6
  | .divi _ _ _ => 0x0F#6
  | .srav _ _ _ => 0x10#6
  | .sra _ _ _ => 0x11#6
  | .srlv _ _ _ => 0x12#6
  | .srl _ _ _ => 0x13#6
  | .sllv _ _ _ => 0x14#6
  | .sll _ _ _ => 0x15#6
  | .sllvDup _ _ _ => 0x16#6
  | .sllDup _ _ _ => 0x17#6
  | .eq _ _ _ => 0x18#6
  | .eqi _ _ _ => 0x19#6
  | .eqDup _ _ _ => 0x1A#6
  | .equi _ _ _ => 0x1B#6
  | .lt _ _ _ => 0x1C#6
  | .lti _ _ _ => 0x1D#6
  | .ltu _ _ _ => 0x1E#6
  | .ltui _ _ _ => 0x1F#6
  | .lbu _ _ _ => 0x20#6
  | .lb _ _ _ => 0x21#6
  | .lhu _ _ _ => 0x22#6
  | .lh _ _ _ => 0x23#6
  | .lw _ _ _ => 0x24#6
  | .sb _ _ _ => 0x25#6
  | .sh _ _ _ => 0x26#6
  | .sw _ _ _ => 0x27#6
  | .inpbu _ _ => 0x28#6
  | .inpb _ _ => 0x29#6
  | .inphu _ _ => 0x2A#6
  | .inph _ _ => 0x2B#6
  | .inp _ _ => 0x2C#6
  | .outpb _ _ => 0x2D#6
  | .outph _ _ => 0x2E#6
  | .outp _ _ => 0x2F#6
  | .jr _ => 0x30#6
  | .ja _ => 0x31#6
  | .j _ => 0x32#6
  | .bz _ _ => 0x33#6
  | .bzi _ _ => 0x34#6
  | .bnz _ _ => 0x35#6
  | .bnzi _ _ => 0x36#6
  | .nop => 0x37#6
  | .invalid38 _ => 0x38#6
  | .invalid39 _ => 0x39#6
  | .invalid3A _ => 0x3A#6
  | .invalid3B _ => 0x3B#6
  | .invalid3C _ => 0x3C#6
  | .invalid3D _ => 0x3D#6
  | .invalid3E _ => 0x3E#6
  | .invalid3F _ => 0x3F#6

/-- Format 3R: opcode, R_A, R_B, R_C, bits 10 to 0 unused (R83). -/
def pack3R (op : BitVec 6) (ra rb rc : RegNum) : Word := op ++ ra ++ rb ++ rc ++ 0#11

/-- Format 2R+I: opcode, R_A, R_B, I (R83). -/
def pack2RI (op : BitVec 6) (ra rb : RegNum) (i : Half) : Word := op ++ ra ++ rb ++ i

/-- Format 4R+M: opcode, R_A, R_B, R_C, R_D, bits 5 to 1 unused, DM (R83). -/
def pack4RM (op : BitVec 6) (ra rb rc rd : RegNum) (dm : BitVec 1) : Word := op ++ ra ++ rb ++ rc ++ rd ++ 0#5 ++ dm

/-- Format 1R+P: opcode, R_A, P, bits 15 to 0 unused (R83). -/
def pack1RP (op : BitVec 6) (ra : RegNum) (p : PortNum) : Word := op ++ ra ++ p ++ 0#16

/-- Format 1R: opcode, bits 25 to 21 unused, R_B, bits 15 to 0 unused (R83); with the other value of `JR_REG_FIELD` the
register stands in R_A (R86). -/
def pack1R (op : BitVec 6) (r : RegNum) : Word :=
  match Config.jrRegField with
  | .ra => op ++ r ++ 0#5 ++ 0#16
  | .rb => op ++ 0#5 ++ r ++ 0#16

/-- Format IA: opcode, I_A (R83). An invalid opcode's low 26 bits are packed the same way. -/
def packIA (op : BitVec 6) (ia : BitVec 26) : Word := op ++ ia

/-- Format 2R: opcode, R_A, R_B, bits 15 to 0 unused (R83). -/
def pack2R (op : BitVec 6) (ra rb : RegNum) : Word := op ++ ra ++ rb ++ 0#16

/-- Format 1R+I: opcode, R_A, I_C (R83; Table 3 prints the name 1R+IA, `90_conflicts.md` C4). -/
def pack1RI (op : BitVec 6) (ra : RegNum) (ic : BitVec 21) : Word := op ++ ra ++ ic

/-- The word of an instruction, from the encoding of its row (R83, R88), unused bits 0 (R84). -/
def encode : Instr → Word
  | .or ra rb rc => pack3R 0x00#6 ra rb rc
  | .ori ra rb i => pack2RI 0x01#6 ra rb i
  | .and ra rb rc => pack3R 0x02#6 ra rb rc
  | .andi ra rb i => pack2RI 0x03#6 ra rb i
  | .xor ra rb rc => pack3R 0x04#6 ra rb rc
  | .xori ra rb i => pack2RI 0x05#6 ra rb i
  | .invalid06 low => packIA 0x06#6 low
  | .invalid07 low => packIA 0x07#6 low
  | .add ra rb rc => pack3R 0x08#6 ra rb rc
  | .addi ra rb i => pack2RI 0x09#6 ra rb i
  | .sub ra rb rc => pack3R 0x0A#6 ra rb rc
  | .subi ra rb i => pack2RI 0x0B#6 ra rb i
  | .mult ra rb rc => pack3R 0x0C#6 ra rb rc
  | .multi ra rb i => pack2RI 0x0D#6 ra rb i
  | .div ra rb rc rd => pack4RM 0x0E#6 ra rb rc rd 1#1
  | .divu ra rb rc rd => pack4RM 0x0E#6 ra rb rc rd 0#1
  | .divi ra rb i => pack2RI 0x0F#6 ra rb i
  | .srav ra rb rc => pack3R 0x10#6 ra rb rc
  | .sra ra rb i => pack2RI 0x11#6 ra rb i
  | .srlv ra rb rc => pack3R 0x12#6 ra rb rc
  | .srl ra rb i => pack2RI 0x13#6 ra rb i
  | .sllv ra rb rc => pack3R 0x14#6 ra rb rc
  | .sll ra rb i => pack2RI 0x15#6 ra rb i
  | .sllvDup ra rb rc => pack3R 0x16#6 ra rb rc
  | .sllDup ra rb i => pack2RI 0x17#6 ra rb i
  | .eq ra rb rc => pack3R 0x18#6 ra rb rc
  | .eqi ra rb i => pack2RI 0x19#6 ra rb i
  | .eqDup ra rb rc => pack3R 0x1A#6 ra rb rc
  | .equi ra rb i => pack2RI 0x1B#6 ra rb i
  | .lt ra rb rc => pack3R 0x1C#6 ra rb rc
  | .lti ra rb i => pack2RI 0x1D#6 ra rb i
  | .ltu ra rb rc => pack3R 0x1E#6 ra rb rc
  | .ltui ra rb i => pack2RI 0x1F#6 ra rb i
  | .lbu ra rb i => pack2RI 0x20#6 ra rb i
  | .lb ra rb i => pack2RI 0x21#6 ra rb i
  | .lhu ra rb i => pack2RI 0x22#6 ra rb i
  | .lh ra rb i => pack2RI 0x23#6 ra rb i
  | .lw ra rb i => pack2RI 0x24#6 ra rb i
  | .sb ra rb i => pack2RI 0x25#6 ra rb i
  | .sh ra rb i => pack2RI 0x26#6 ra rb i
  | .sw ra rb i => pack2RI 0x27#6 ra rb i
  | .inpbu ra p => pack1RP 0x28#6 ra p
  | .inpb ra p => pack1RP 0x29#6 ra p
  | .inphu ra p => pack1RP 0x2A#6 ra p
  | .inph ra p => pack1RP 0x2B#6 ra p
  | .inp ra p => pack1RP 0x2C#6 ra p
  | .outpb ra p => pack1RP 0x2D#6 ra p
  | .outph ra p => pack1RP 0x2E#6 ra p
  | .outp ra p => pack1RP 0x2F#6 ra p
  | .jr rb => pack1R 0x30#6 rb
  | .ja ia => packIA 0x31#6 ia
  | .j ia => packIA 0x32#6 ia
  | .bz ra rb => pack2R 0x33#6 ra rb
  | .bzi ra ic => pack1RI 0x34#6 ra ic
  | .bnz ra rb => pack2R 0x35#6 ra rb
  | .bnzi ra ic => pack1RI 0x36#6 ra ic
  | .nop => packIA 0x37#6 0#26
  | .invalid38 low => packIA 0x38#6 low
  | .invalid39 low => packIA 0x39#6 low
  | .invalid3A low => packIA 0x3A#6 low
  | .invalid3B low => packIA 0x3B#6 low
  | .invalid3C low => packIA 0x3C#6 low
  | .invalid3D low => packIA 0x3D#6 low
  | .invalid3E low => packIA 0x3E#6 low
  | .invalid3F low => packIA 0x3F#6 low

end Sys2Proof
end

