-- ==== Sys2Proof/Machine/State.lean ====
section
/-! DEFINITION. The machine's state, its faults and refusals, and the state after reset (`10_state.md`). -/

namespace Sys2Proof.Machine

/-- Memory as the cells that do not hold what an unlisted address reads as (`Memory.unlisted`), addresses strictly
rising below 2^32 (`10_state.md` R33; the form is `Memory.wf`). -/
abbrev Memory := List Host.Cell

/-- A run of `size` byte addresses from `base` that is backed by storage. -/
structure Region where
  base : Nat
  size : Nat
  deriving DecidableEq, Repr

/-- The open parameters an implementation fixes for a run (`00_scope.md` R8, `10_state.md` R38; log 3). They stand in
the state as data so that a statement about every state is a statement about every implementation; no step changes
them. -/
structure Platform where
  /-- `MEM_POPULATED`, the byte addresses backed by memory (`20_memory.md` R59, decision D19). -/
  populated : List Region
  /-- `IV_0`, the base address of the interrupt vector table (`60_exceptions.md` R271, decision D25). -/
  ivBase : Word
  /-- `N_INT`, the number of interrupts, numbered 1 to `N_INT` (`60_exceptions.md` R271, decision D25). -/
  nInt : Nat
  deriving DecidableEq, Repr

/-- The state of the machine. -/
structure State where
  /-- Registers 1 to 28, register n at index n - 1 (`10_state.md` R22). Register 0 has no storage (R21). -/
  gpr : Vector Word 28
  /-- Register 29, the return address of an interrupt (`10_state.md` R23). -/
  r29 : Word
  /-- Register 30, the status register: bit 0 is Carry, bits 31 to 1 are storage (`10_state.md` R24, R25). -/
  status : Word
  /-- Register 31, the program counter. Between steps it is the address of the next instruction to fetch; while an
  instruction executes it is already that instruction's address plus 4 (`10_state.md` R26, R29). -/
  pc : Word
  /-- The one flat memory (`10_state.md` R33). -/
  mem : Memory
  /-- The interrupt numbers received and not serviced (`10_state.md` R35 (a)). -/
  pending : List Nat
  /-- `in_service`, the interrupt lock (`10_state.md` R35 (b)). -/
  inService : Bool
  /-- The port accesses so far, in program order; its writes are the run's output trace (`45_port_io.md` R191). -/
  portLog : List PortEvent
  /-- The implementation's parameters, which no step changes (`10_state.md` R38; log 3). The model's own field. -/
  platform : Platform
  /-- The environment's interrupt script: the numbers received at each coming check; when it has ended none is
  received (`60_exceptions.md` R272, R280; log 24). The model's own field. -/
  irqIn : List (List Nat)
  /-- The environment's port script: the answers to the coming port reads, `never` among them; when it has ended an
  answer is a free value (`45_port_io.md` R190; log 28). The model's own field. -/
  portIn : List PortAnswer
  /-- How many free values have been drawn (log 32). The model's own field. -/
  draws : Nat
  deriving DecidableEq, Repr

/-- Why a step stops. None of these is an exception of the hardware, which has none (`60_exceptions.md` R270): each but
the last marks behaviour the manual leaves undefined (R285), the last a core that makes no more steps. -/
inductive Fault where
  /-- `IllegalInstruction(w)`: raised by the ten meanings of the opcodes marked "Invalid Instr." (`30_encoding.md`
  R91, decision D8; log 10). Safe: the model stops where the manual says nothing. -/
  | illegalInstruction (w : Word)
  /-- `MisalignedFetch(pc)`: raised by `step` when `pc[1:0]` is not 0 (`20_memory.md` R56, decision D17; log 19).
  Safe: the model stops where the manual says nothing. -/
  | misalignedFetch (pc : Word)
  /-- `UnpopulatedAccess(a)`: raised by a fetch, a load, a store or a vector read that touches the absent byte `a`
  (`20_memory.md` R59, decision D19; log 20). Safe: the model gives such an access no step. -/
  | unpopulatedAccess (a : Word)
  /-- `DivideByZero`: raised by DIVI with the immediate 0 (`41_arithmetic.md` R141, R143, decision D11; log 13). Safe: the
  model stops where the manual says nothing. -/
  | divideByZero
  /-- Stuck: a read of port `p` that never completes, after which the core makes no more steps (`45_port_io.md` R190,
  decision D26); raised by the five port inputs when the environment never answers (log 28). Safe: no step follows. -/
  | portReadNeverCompletes (p : PortNum)
  deriving DecidableEq, Repr

/-- Why an instruction has no meaning. -/
inductive Refusal where
  /-- The instruction of this mnemonic has no meaning yet; raised only by an arm of `exec`. Safe: nothing happens. -/
  | notModelled (mnemonic : String)
  deriving DecidableEq, Repr

/-- What an instruction or a step answers. -/
abbrev Result := Host.Outcome State Fault Refusal

/-- The platform at reset: the whole 4 GiB populated, no interrupt source (`00_scope.md` R8; log 3). -/
def Platform.reset : Platform := { populated := [{ base := 0, size := 4294967296 }], ivBase := 0#32, nInt := 0 }

/-- The machine right after reset (`10_state.md` R37, `70_reset_and_hazards.md` R300): the program counter at
`RESET_PC`, nothing pending, the lock off, memory with nothing listed. Registers 1 to 30 have no value in the spec and
hold 0 here (log 1). -/
def State.reset : State where
  gpr := Vector.replicate 28 0#32
  r29 := 0#32
  status := 0#32
  pc := Config.resetPc
  mem := []
  pending := []
  inService := false
  portLog := []
  platform := Platform.reset
  irqIn := []
  portIn := []
  draws := 0

end Sys2Proof.Machine
end

