-- ==== Sys2Proof/Machine/Flags.lean ====
section
/-! DEFINITION. Carry, the only flag (`10_state.md` R24, R30): the 33-bit results of ADD, ADDI, SUB and SUBI
(`41_arithmetic.md` R131 to R134, R137) and the bit's place in register 30. -/

namespace Sys2Proof.Machine

/-- `zext_33(a) + zext_33(b)` (`41_arithmetic.md` R131). -/
def sum33 (a b : Word) : BitVec 33 := a.setWidth 33 + b.setWidth 33

/-- `(zext_33(a) - zext_33(b)) mod 2^33` (`41_arithmetic.md` R133). -/
def diff33 (a b : Word) : BitVec 33 := a.setWidth 33 - b.setWidth 33

/-- `r[31:0]`, the result an add or subtract writes to its destination. -/
def low32 (r : BitVec 33) : Word := r.setWidth 32

/-- `r[32]`, the Carry an add or subtract writes: the carry out, or the borrow (`41_arithmetic.md` R137; log 29). -/
def bit32 (r : BitVec 33) : Bool := r.getLsbD 32

/-- Carry, bit 0 of register 30 (`10_state.md` R24). -/
def State.carry (s : State) : Bool := s.status.getLsbD 0

/-- What register 30 holds after an explicit write of `v`: all of it, or bit 0 alone where the unused bits are no storage
(`STATUS_UNUSED_STORED`; `10_state.md` R25, decision D5; log 6). -/
def storedStatus (v : Word) : Word := if Config.statusUnusedStored then v else v &&& 1#32

/-- A status word with bit 0 replaced and bits 31 to 1 kept. -/
def withBit0 (v : Word) (c : Bool) : Word := v.extractLsb' 1 31 ++ BitVec.ofBool c

/-- `Carry <- c`: bits 31 to 1 of register 30 stay (`00_scope.md` R12, `10_state.md` R25). -/
def State.setCarry (s : State) (c : Bool) : State := { s with status := withBit0 s.status c }

end Sys2Proof.Machine
end

