-- ==== Sys2Proof/Machine/Memory.lean ====
section
/-! DEFINITION. Memory as a list of cells: reading and writing one byte, and the canonical form (`20_memory.md` R50,
R53, R54). -/

namespace Sys2Proof.Machine

/-- What a byte that nothing has written reads as. The spec leaves it unspecified; "a model that needs a value may take
0x00" (`70_reset_and_hazards.md` R312; log 2, DESIGN CHOICE, unsafe). -/
def Memory.unlisted : Byte := 0#8

/-- The byte at an address. -/
def Memory.read : Memory → Nat → Byte
  | [], _ => Memory.unlisted
  | (k, b) :: m, a => if k = a then b else Memory.read m a

/-- The cells of `m` but the one at `a`. -/
def Memory.erase : Memory → Nat → Memory
  | [], _ => []
  | (k, b) :: m, a => if k = a then Memory.erase m a else (k, b) :: Memory.erase m a

/-- `m` with the cell `(a, b)` put before the first cell of a higher address. -/
def Memory.insert : Memory → Nat → Byte → Memory
  | [], a, b => [(a, b)]
  | (k, c) :: m, a, b => if a < k then (a, b) :: (k, c) :: m else (k, c) :: Memory.insert m a b

/-- Write one byte, keeping the canonical form: writing what an unlisted address reads as unlists the address. -/
def Memory.write (m : Memory) (a : Nat) (b : Byte) : Memory :=
  if b = Memory.unlisted then m.erase a else (m.erase a).insert a b

/-- Are the addresses strictly rising, every one above `lo`, below 2^32, and none listed with the unlisted byte? -/
def Memory.wfFrom : Option Nat → Memory → Bool
  | _, [] => true
  | lo, (k, b) :: m =>
    (match lo with
      | none => true
      | some l => decide (l < k)) && decide (k < 4294967296) && decide (b ≠ Memory.unlisted) && Memory.wfFrom (some k) m

/-- The canonical form: addresses strictly rising inside the 32-bit address space, no cell equal to what an unlisted
address reads as. -/
def Memory.wf (m : Memory) : Bool := Memory.wfFrom none m

end Sys2Proof.Machine
end

