-- ==== Sys2Proof/Machine/Operands.lean ====
section
/-! DEFINITION. How the immediates of an instruction become 32-bit operands (`30_encoding.md` R85) and how the value
of a narrow load or port read is widened (`00_scope.md` R11). -/

namespace Sys2Proof.Machine

/-- `zext_32(I)`: ORI, ANDI, XORI, EQUI, LTUI and the shift amounts (`30_encoding.md` R85). -/
def zextI (i : Half) : Word := i.setWidth 32

/-- `sext_32(I)`: ADDI, SUBI, MULTI, DIVI, EQI, LTI and the load and store offsets (`30_encoding.md` R85). -/
def sextI (i : Half) : Word := i.signExtend 32

/-- `zext_32` of a byte (LBU, INPBU, OUTPB). -/
def zextByte (b : Byte) : Word := b.setWidth 32

/-- `sext_32` of a byte (LB, INPB). -/
def sextByte (b : Byte) : Word := b.signExtend 32

/-- `zext_32` of a half-word (LHU, INPHU, OUTPH). -/
def zextHalf (h : Half) : Word := h.setWidth 32

/-- `sext_32` of a half-word (LH, INPH). -/
def sextHalf (h : Half) : Word := h.signExtend 32

/-- `v[7:0]`. -/
def lowByte (v : Word) : Byte := v.extractLsb' 0 8

/-- `v[15:0]`. -/
def lowHalf (v : Word) : Half := v.extractLsb' 0 16

/-- JA's target, `zext_32(IA) << 2`, an address from 0 to 0x0FFFFFFC (`46_branch.md` R211, `90_conflicts.md` C3;
log 27). -/
def targetIA (ia : BitVec 26) : Word := (ia ++ 0#2).setWidth 32

/-- J's offset, `sext_32(IA << 2)`: the 28-bit value IA followed by two zero bits, sign-extended (`46_branch.md`
R212). -/
def offsetIA (ia : BitVec 26) : Word := (ia ++ 0#2).signExtend 32

/-- The offset of BZI and BNZI, `sext_32(IC << 2)`: the 23-bit value IC followed by two zero bits, sign-extended
(`46_branch.md` R214, R216). -/
def offsetIC (ic : BitVec 21) : Word := (ic ++ 0#2).signExtend 32

end Sys2Proof.Machine
end

