-- ==== Sys2Proof/Machine/Ops.lean ====
section
/-! DEFINITION. The named operations over registers, memory, ports, interrupts and free values: everything an
instruction's meaning is made of. -/

namespace Sys2Proof.Machine

/-! ### Registers -/

/-- The value of "PC" as the executing instruction sees it, its address plus `REL_BASE`: what it reads from register 31
and what a relative jump starts from. `s.pc` is already its address plus 4 (`10_state.md` R26, `46_branch.md` R219,
decision D2; log 7). -/
def State.relPC (s : State) : Word := s.pc + (Config.relBase - 4#32)

/-- `x[r]`, the value of register `r` as the executing instruction sees it (`00_scope.md` R12): register 0 is 0,
register 30 the status register, register 31 the program counter as `relPC` gives it (`10_state.md` R21, R25, R26). -/
def State.reg (s : State) (r : RegNum) : Word :=
  if r = 0#5 then 0#32
  else if r = 29#5 then s.r29
  else if r = 30#5 then s.status
  else if r = 31#5 then s.relPC
  else (s.gpr[r.toNat - 1]?).getD 0#32

/-- `x[r] <- v`: dropped when `r` is 0, a jump when `r` is 31 (`10_state.md` R21, R25, R27; logs 5, 6, 7). -/
def State.setReg (s : State) (r : RegNum) (v : Word) : State :=
  if r = 0#5 then s
  else if r = 29#5 then { s with r29 := v }
  else if r = 30#5 then { s with status := storedStatus v }
  else if r = 31#5 then { s with pc := v }
  else { s with gpr := s.gpr.setIfInBounds (r.toNat - 1) v }

/-- What an instruction with the destination fields `dests` answers, where `r` is the answer of its rule: with
`R0_DEST_WHOLE_NOP` false, the spec's reading, always `r`; with the other reading register 0 among the destinations makes
the whole instruction a no-op (`10_state.md` R21, decision D4; log 5). -/
def State.unlessNop (s : State) (dests : List RegNum) (r : Result) : Result :=
  if Config.r0DestWholeNop && dests.contains 0#5 then .next s else r

/-- `pc <- t` (`00_scope.md` R12). -/
def State.jump (s : State) (t : Word) : State := { s with pc := t }

/-! ### Memory -/

/-- Is this byte address in `MEM_POPULATED` (`20_memory.md` R59)? -/
def State.isPopulated (s : State) (a : Word) : Bool :=
  s.platform.populated.any fun g => decide (g.base ≤ a.toNat) && decide (a.toNat < g.base + g.size)

/-- The first of the byte addresses `a`, `a + 1`, …, `a + n - 1`, each modulo 2^32, that is not populated
(`20_memory.md` R53, R59; log 20). -/
def State.firstAbsent (s : State) (a : Word) : Nat → Option Word
  | 0 => none
  | n + 1 => if s.isPopulated a then s.firstAbsent (a + 1#32) n else some a

/-- An access to the `n` bytes from `a`: it faults when one of them is absent, otherwise the answer is `r`
(`20_memory.md` R59; log 20). -/
def State.access (s : State) (a : Word) (n : Nat) (r : Result) : Result :=
  match s.firstAbsent a n with
  | some b => .fault (.unpopulatedAccess b)
  | none => r

/-- The byte at an address. -/
def State.peekByte (s : State) (a : Word) : Byte := s.mem.read a.toNat

/-- `MemRead(a, 2)` (`20_memory.md` R53): little-endian, any address (R51, R55; log 18). -/
def State.peekHalf (s : State) (a : Word) : Half := s.peekByte (a + 1#32) ++ s.peekByte a

/-- `MemRead(a, 4)` (`20_memory.md` R53): little-endian, any address (R51, R55; log 18). -/
def State.peekWord (s : State) (a : Word) : Word :=
  wordOfBytes (s.peekByte a) (s.peekByte (a + 1#32)) (s.peekByte (a + 2#32)) (s.peekByte (a + 3#32))

/-- `mem[a] <- b` (`20_memory.md` R54). -/
def State.pokeByte (s : State) (a : Word) (b : Byte) : State := { s with mem := s.mem.write a.toNat b }

/-- `MemWrite(a, 2, v)` (`20_memory.md` R54). -/
def State.pokeHalf (s : State) (a : Word) (v : Half) : State :=
  (s.pokeByte a (v.extractLsb' 0 8)).pokeByte (a + 1#32) (v.extractLsb' 8 8)

/-- `MemWrite(a, 4, v)` (`20_memory.md` R54, `90_conflicts.md` C2; log 30). -/
def State.pokeWord (s : State) (a : Word) (v : Word) : State :=
  (((s.pokeByte a (byteOfWord v 0)).pokeByte (a + 1#32) (byteOfWord v 1)).pokeByte (a + 2#32) (byteOfWord v 2)).pokeByte
    (a + 3#32) (byteOfWord v 3)

/-- The effective address `x[RB] + sext_32(I)` modulo 2^32, the one addressing mode (`44_load_store.md` R170). -/
def State.effAddr (s : State) (rb : RegNum) (i : Half) : Word := s.reg rb + sextI i

/-- A load of `n` bytes at `a` whose widened value is `v` (`44_load_store.md` R170 to R175). -/
def State.load (s : State) (ra : RegNum) (a : Word) (n : Nat) (v : Word) : Result :=
  s.unlessNop [ra] (s.access a n (.next (s.setReg ra v)))

/-! ### Free values -/

/-- Count one more drawn value (log 32). -/
def State.draw (s : State) : State := { s with draws := s.draws + 1 }

/-! ### Ports -/

/-- `PortRead(p)`: the next answer of the environment's script, or a free value when it has ended, and the state in
which the environment has seen the read; none when the environment never answers (`45_port_io.md` R190, decision D26;
log 28). -/
def State.portRead (s : State) (p : PortNum) : Option (Word × State) :=
  match s.portIn with
  | .never :: _ => none
  | .value v :: rest => some (v, { s with portIn := rest, portLog := s.portLog ++ [.read p v] })
  | [] =>
    some (Config.portAnswer s.draws s.portLog p,
      { s with draws := s.draws + 1, portLog := s.portLog ++ [.read p (Config.portAnswer s.draws s.portLog p)] })

/-- `PortWrite(p, v)`: delivered to the environment and appended to the trace (`45_port_io.md` R191). -/
def State.portWrite (s : State) (p : PortNum) (v : Word) : State := { s with portLog := s.portLog ++ [.write p v] }

/-- The pair a port event adds to the output trace: a write adds one, a read none (`45_port_io.md` R191). -/
def writeOf : PortEvent → Option (PortNum × Word)
  | .write p v => some (p, v)
  | .read _ _ => none

/-- The output trace: the sequence of `PortWrite` pairs (`45_port_io.md` R191, `70_reset_and_hazards.md` R312). -/
def State.output (s : State) : List (PortNum × Word) := s.portLog.filterMap writeOf

/-- A port input: read the port, then write `f` of its answer to register `ra` (`45_port_io.md` R193). A read that never
completes leaves the core stuck in it, and no interrupt gets it out (R190, decision D29; log 28). -/
def State.input (s : State) (ra : RegNum) (p : PortNum) (f : Word → Word) : Result :=
  s.unlessNop [ra]
    (match s.portRead p with
     | some (v, t) => .next (t.setReg ra (f v))
     | none => .fault (.portReadNeverCompletes p))

/-! ### Arithmetic over the registers -/

/-- Write an add's or subtract's 33-bit result: the low 32 bits to `ra`, then bit 32 to Carry (`41_arithmetic.md` R131
to R134, `00_scope.md` R13; log 8). -/
def State.setSum (s : State) (ra : RegNum) (r : BitVec 33) : State := (s.setReg ra (low32 r)).setCarry (bit32 r)

/-- A shift of `v` by `n` from 0 to 31 (`42_shift.md` R150). -/
def shiftBy : ShiftOp → Word → Nat → Word
  | .sra, v, n => v.sshiftRight n
  | .srl, v, n => v >>> n
  | .sll, v, n => v <<< n

/-- A shift of `v` by `n` into register `ra`. For an amount of 32 or more the result is drawn (`42_shift.md` R150,
decision D15; log 17). -/
def State.shift (s : State) (ra : RegNum) (op : ShiftOp) (v n : Word) : Result :=
  if n.toNat ≤ 31 then .next (s.setReg ra (shiftBy op v n.toNat))
  else .next (s.draw.setReg ra (Config.shiftBig s.draws op v n))

/-- The 32-bit truth value a relational instruction writes (`43_relational.md` R160). -/
def truth (b : Bool) : Word := if b then 1#32 else 0#32

/-- Is this the one signed division with no representable quotient, -2^31 / -1 (`41_arithmetic.md` R142)? -/
def sdivOverflows (a b : Word) : Bool := a == 0x80000000#32 && b == 0xFFFFFFFF#32

/-- Write a quotient to `ra`, then a remainder to `rd` (`41_arithmetic.md` R140, `00_scope.md` R13; log 8). -/
def State.setQuotRem (s : State) (ra rd : RegNum) (q r : Word) : State := (s.setReg ra q).setReg rd r

/-- DIV or DIVU with a zero divisor: no destination is written and register 30 takes any value (`41_arithmetic.md` R143,
decision D10; log 12). -/
def State.divByZero (s : State) (a : Word) : State :=
  { s with draws := s.draws + 1, status := Config.divZeroStatus s.draws a s.status }

/-! ### Branches -/

/-- A conditional branch: taken when `c`, else the program counter stays at the next instruction (`46_branch.md`
R218). -/
def State.branchIf (s : State) (c : Bool) (t : Word) : State := if c then s.jump t else s

/-! ### Taking an interrupt and returning from one -/

/-- Interrupt entry with the vector `v`: register 29 receives the program counter, the program counter the vector, and
the lock goes on; nothing else changes (`60_exceptions.md` R273 to R276). -/
def State.enterInterrupt (s : State) (v : Word) : State := { s with r29 := s.pc, pc := v, inService := true }

/-- The end of the interrupt lock, by a JR whose register field is 29 (`60_exceptions.md` R276, `46_branch.md`
R220). -/
def State.endInterrupt (s : State) : State := { s with inService := false }

/-- The address of interrupt `n`'s vector word, `IV_0 + 4n` (`60_exceptions.md` R271, `90_conflicts.md` C10;
log 22). -/
def State.vectorAddr (s : State) (n : Nat) : Word := s.platform.ivBase + BitVec.ofNat 32 (4 * n)

/-- Service interrupt `n` (`60_exceptions.md` R273, R278): it is no longer pending; its vector word is read; zero means
no action, anything else is the handler's address. Logs 22, 23. -/
def State.service (s : State) (n : Nat) : Result :=
  ({ s with pending := s.pending.filter fun k => k != n }).access (s.vectorAddr n) 4
    (if s.peekWord (s.vectorAddr n) = 0#32 then .next { s with pending := s.pending.filter fun k => k != n }
     else .next (State.enterInterrupt { s with pending := s.pending.filter fun k => k != n } (s.peekWord (s.vectorAddr n))))

/-- Put a number into a rising list without repeats: `pending` is a set (`60_exceptions.md` R272, decision D24;
log 23). -/
def insertNumber (n : Nat) : List Nat → List Nat
  | [] => [n]
  | k :: ks => if n < k then n :: k :: ks else if n = k then k :: ks else k :: insertNumber n ks

/-- The environment makes numbers received; only 1 to `N_INT` are interrupts (`60_exceptions.md` R271, R272). -/
def receiveNumbers (nInt : Nat) (pending : List Nat) : List Nat → List Nat
  | [] => pending
  | n :: ns =>
    receiveNumbers nInt (if decide (1 ≤ n) && decide (n ≤ nInt) then insertNumber n pending else pending) ns

/-- The arrivals of one check: the next entry of the environment's script (`60_exceptions.md` R272, R280; log 24). -/
def State.receive (s : State) : State :=
  match s.irqIn with
  | [] => s
  | ns :: rest => { s with irqIn := rest, pending := receiveNumbers s.platform.nInt s.pending ns }

/-- The lowest number of a list (`60_exceptions.md` R272, R279). -/
def lowest : List Nat → Option Nat
  | [] => none
  | n :: ns =>
    match lowest ns with
    | none => some n
    | some k => some (if n ≤ k then n else k)

/-- The interrupt check, step (1) of the instruction cycle (`10_state.md` R29, `60_exceptions.md` R272, R276): arrivals
first; then, with the lock off, the pending interrupt of the lowest number is serviced, one at most. -/
def State.checkInterrupts (s : State) : Result :=
  if s.receive.inService then .next s.receive
  else match lowest s.receive.pending with
    | none => .next s.receive
    | some n => s.receive.service n

end Sys2Proof.Machine
end

