-- ==== Sys2Proof/Machine/Cycle.lean ====
section
/-! DEFINITION. The parts of the instruction cycle that are not an instruction's own: the fetch and what it checks
(`10_state.md` R29), placing a word where it fetches, and the end-of-run test (`70_reset_and_hazards.md` R311). -/

namespace Sys2Proof.Machine

/-- What the fetch of steps (2) and (3) answers (`10_state.md` R29): a fault, or the instruction word. -/
def State.fetch (s : State) : Except Fault Word :=
  if s.pc.extractLsb' 0 2 ≠ 0#2 then .error (.misalignedFetch s.pc)
  else match s.firstAbsent s.pc 4 with
    | some a => .error (.unpopulatedAccess a)
    | none => .ok (s.peekWord s.pc)

/-- Step (4) of the cycle: `pc <- pc + 4`, modulo 2^32, before the instruction executes (`10_state.md` R28, R29;
log 7). -/
def State.advance (s : State) : State := { s with pc := s.pc + 4#32 }

/-- The address the next step fetches from: the program counter after the interrupt check. -/
def State.fetchAddr (s : State) : Word :=
  match s.checkInterrupts with
  | .next t => t.pc
  | .fault _ => s.pc
  | .refused _ => s.pc

/-- `s` with the instruction word made of the `nbits` low bits of `w` stored where the next step fetches. -/
def State.placeFetchWord (s : State) (nbits w : Nat) : State :=
  s.pokeWord s.fetchAddr (BitVec.ofNat 32 (w % 2 ^ nbits))

/-- Can no interrupt be pending or arrive: nothing pending, and nothing the environment will still send is an interrupt
of this implementation (`70_reset_and_hazards.md` R311)? -/
def State.isQuiet (s : State) : Bool :=
  s.pending.isEmpty && s.irqIn.all fun ns => ns.all fun n => !(decide (1 ≤ n) && decide (n ≤ s.platform.nInt))

/-- The end of a run: the instruction about to execute is a J to itself (field -1), and no interrupt is pending or can
arrive (`70_reset_and_hazards.md` R311, decision D28; log 35). -/
def State.atEndOfRun (s : State) : Bool :=
  s.isQuiet &&
    match s.fetch with
    | .ok w => decide (decodeWord w = .j 0x3FFFFFF#26)
    | .error _ => false

end Sys2Proof.Machine
end

