-- ==== Sys2Proof/Machine/Arithmetic.lean ====
section
/-! DEFINITION. The arithmetic instructions (`41_arithmetic.md`). ADD, ADDI, SUB and SUBI write Carry on every execution; no
other instruction writes it as a side effect (R137). -/

namespace Sys2Proof.Machine

/-- ADD: the 33-bit sum; `x[RA] <- r[31:0]`, then `Carry <- r[32]` (`41_arithmetic.md` R131). -/
def execAdd (ra rb rc : RegNum) (s : State) : Result :=
  s.unlessNop [ra] (.next (s.setSum ra (sum33 (s.reg rb) (s.reg rc))))

/-- ADDI: as ADD with `sext_32(I)` (`41_arithmetic.md` R132). -/
def execAddi (ra rb : RegNum) (i : Half) (s : State) : Result :=
  s.unlessNop [ra] (.next (s.setSum ra (sum33 (s.reg rb) (sextI i))))

/-- SUB: the 33-bit difference; `x[RA] <- r[31:0]`, then `Carry <- r[32]`, the borrow (`41_arithmetic.md` R133). -/
def execSub (ra rb rc : RegNum) (s : State) : Result :=
  s.unlessNop [ra] (.next (s.setSum ra (diff33 (s.reg rb) (s.reg rc))))

/-- SUBI: as SUB with `sext_32(I)` (`41_arithmetic.md` R134). -/
def execSubi (ra rb : RegNum) (i : Half) (s : State) : Result :=
  s.unlessNop [ra] (.next (s.setSum ra (diff33 (s.reg rb) (sextI i))))

/-- MULT: the low 32 bits of the product; Carry unchanged (`41_arithmetic.md` R135). -/
def execMult (ra rb rc : RegNum) (s : State) : Result :=
  .next (s.setReg ra (s.reg rb * s.reg rc))

/-- MULTI: as MULT with `sext_32(I)` (`41_arithmetic.md` R136). -/
def execMulti (ra rb : RegNum) (i : Half) (s : State) : Result :=
  .next (s.setReg ra (s.reg rb * sextI i))

/-- DIV, signed: quotient rounded toward zero to RA, then the remainder, which has the sign of the dividend, to RD
(`41_arithmetic.md` R140, R142; log 14). A zero divisor writes neither and leaves register 30 any value (R143; log 12);
the two results of -2^31 / -1 are any values (R142; log 15). -/
def execDiv (ra rb rc rd : RegNum) (s : State) : Result :=
  s.unlessNop [ra, rd]
    (if s.reg rc = 0#32 then .next (s.divByZero (s.reg rb))
     else if sdivOverflows (s.reg rb) (s.reg rc) then
       .next (s.draw.setQuotRem ra rd (Config.sdivOverflowQuot s.draws) (Config.sdivOverflowRem s.draws))
     else .next (s.setQuotRem ra rd ((s.reg rb).sdiv (s.reg rc)) ((s.reg rb).srem (s.reg rc))))

/-- DIVU (DIV with DM = 0), unsigned: quotient to RA, then remainder to RD (`41_arithmetic.md` R140, R142). A zero
divisor writes neither and leaves register 30 any value (R143; log 12). -/
def execDivu (ra rb rc rd : RegNum) (s : State) : Result :=
  s.unlessNop [ra, rd]
    (if s.reg rc = 0#32 then .next (s.divByZero (s.reg rb))
     else .next (s.setQuotRem ra rd (s.reg rb / s.reg rc) (s.reg rb % s.reg rc)))

/-- DIVI: no remainder is written (`41_arithmetic.md` R141). Immediate 0: the model stops
(R143, decision D11; log 13). Odd immediate: signed division (-2^31 / -1: any value, log 15). Even immediate and no negative
operand: the quotient. Even immediate and a negative operand: `DIVI_EVEN_MODE`, any value (log 16). -/
def execDivi (ra rb : RegNum) (i : Half) (s : State) : Result :=
  s.unlessNop [ra]
    (if i = 0#16 then .fault .divideByZero
     else if i.getLsbD 0 then
       if sdivOverflows (s.reg rb) (sextI i) then .next (s.draw.setReg ra (Config.sdivOverflowQuot s.draws))
       else .next (s.setReg ra ((s.reg rb).sdiv (sextI i)))
     else if (s.reg rb).msb || i.msb then .next (s.draw.setReg ra (Config.diviEvenMode s.draws (s.reg rb) i))
     else .next (s.setReg ra (s.reg rb / sextI i)))

end Sys2Proof.Machine
end

