-- ==== Sys2Proof/Machine/Branch.lean ====
section
/-! DEFINITION. The jumps, the branches and NOP (`46_branch.md`). In a meaning `s.pc` is the address of the instruction that
follows, `A + 4`, and `s.relPC` the base of relative jumps, `A` plus `REL_BASE` = 4 (`10_state.md` R26; log 7). -/

namespace Sys2Proof.Machine

/-- JR: `pc <- x[RB]`; when the register field is 29 the interrupt lock ends, whatever the register holds
(`46_branch.md` R210, R220; logs 25, 26). -/
def execJr (rb : RegNum) (s : State) : Result :=
  if rb = 29#5 then .next ((s.jump (s.reg rb)).endInterrupt) else .next (s.jump (s.reg rb))

/-- JA: `pc <- zext_32(IA) << 2` (`46_branch.md` R211). -/
def execJa (ia : BitVec 26) (s : State) : Result :=
  .next (s.jump (targetIA ia))

/-- J: `pc <- (A + 4) + sext_32(IA << 2)` (`46_branch.md` R212). -/
def execJ (ia : BitVec 26) (s : State) : Result :=
  .next (s.jump (s.relPC + offsetIA ia))

/-- BZ: to `x[RB]` when `x[RA]` is 0 (`46_branch.md` R213). -/
def execBz (ra rb : RegNum) (s : State) : Result :=
  .next (s.branchIf (s.reg ra == 0#32) (s.reg rb))

/-- BZI: to `(A + 4) + sext_32(IC << 2)` when `x[RA]` is 0 (`46_branch.md` R214). -/
def execBzi (ra : RegNum) (ic : BitVec 21) (s : State) : Result :=
  .next (s.branchIf (s.reg ra == 0#32) (s.relPC + offsetIC ic))

/-- BNZ: to `x[RB]` when `x[RA]` is not 0 (`46_branch.md` R215). -/
def execBnz (ra rb : RegNum) (s : State) : Result :=
  .next (s.branchIf (s.reg ra != 0#32) (s.reg rb))

/-- BNZI: to `(A + 4) + sext_32(IC << 2)` when `x[RA]` is not 0 (`46_branch.md` R216). -/
def execBnzi (ra : RegNum) (ic : BitVec 21) (s : State) : Result :=
  .next (s.branchIf (s.reg ra != 0#32) (s.relPC + offsetIC ic))

/-- NOP: nothing but the advance of the program counter, which the fetch has done (`46_branch.md` R217, decision D9;
log 11). -/
def execNop (s : State) : Result :=
  .next s

end Sys2Proof.Machine
end

