-- ==== Sys2Proof/Machine/Invalid.lean ====
section
/-! DEFINITION. The ten opcodes marked "Invalid Instr." in Table 6 (`30_encoding.md` R88, R91). -/

namespace Sys2Proof.Machine

/-- Executing a word whose opcode is marked "Invalid Instr." stops the model; it is never a no-op (`30_encoding.md` R91,
decision D8; log 10). -/
def illegal (w : Word) (_s : State) : Result := .fault (.illegalInstruction w)

/-- Opcode 0x06, "Invalid Instr.": `raise IllegalInstruction(w)` (`30_encoding.md` R91). -/
def execInvalid06 (low : BitVec 26) (s : State) : Result :=
  illegal (packIA 0x06#6 low) s

/-- Opcode 0x07, "Invalid Instr.": `raise IllegalInstruction(w)` (`30_encoding.md` R91). -/
def execInvalid07 (low : BitVec 26) (s : State) : Result :=
  illegal (packIA 0x07#6 low) s

/-- Opcode 0x38, "Invalid Instr.": `raise IllegalInstruction(w)` (`30_encoding.md` R91). -/
def execInvalid38 (low : BitVec 26) (s : State) : Result :=
  illegal (packIA 0x38#6 low) s

/-- Opcode 0x39, "Invalid Instr.": `raise IllegalInstruction(w)` (`30_encoding.md` R91). -/
def execInvalid39 (low : BitVec 26) (s : State) : Result :=
  illegal (packIA 0x39#6 low) s

/-- Opcode 0x3A, "Invalid Instr.": `raise IllegalInstruction(w)` (`30_encoding.md` R91). -/
def execInvalid3A (low : BitVec 26) (s : State) : Result :=
  illegal (packIA 0x3A#6 low) s

/-- Opcode 0x3B, "Invalid Instr.": `raise IllegalInstruction(w)` (`30_encoding.md` R91). -/
def execInvalid3B (low : BitVec 26) (s : State) : Result :=
  illegal (packIA 0x3B#6 low) s

/-- Opcode 0x3C, "Invalid Instr.": `raise IllegalInstruction(w)` (`30_encoding.md` R91). -/
def execInvalid3C (low : BitVec 26) (s : State) : Result :=
  illegal (packIA 0x3C#6 low) s

/-- Opcode 0x3D, "Invalid Instr.": `raise IllegalInstruction(w)` (`30_encoding.md` R91). -/
def execInvalid3D (low : BitVec 26) (s : State) : Result :=
  illegal (packIA 0x3D#6 low) s

/-- Opcode 0x3E, "Invalid Instr.": `raise IllegalInstruction(w)` (`30_encoding.md` R91). -/
def execInvalid3E (low : BitVec 26) (s : State) : Result :=
  illegal (packIA 0x3E#6 low) s

/-- Opcode 0x3F, "Invalid Instr.": `raise IllegalInstruction(w)` (`30_encoding.md` R91). -/
def execInvalid3F (low : BitVec 26) (s : State) : Result :=
  illegal (packIA 0x3F#6 low) s

end Sys2Proof.Machine
end

