-- ==== Sys2Proof/Machine/LoadStore.lean ====
section
/-! DEFINITION. The loads and stores (`44_load_store.md`): base plus offset, any alignment (R170). -/

namespace Sys2Proof.Machine

/-- LBU: `x[RA]` receives the zero-extended byte at `x[RB] + sext_32(I)` (`44_load_store.md` R171). -/
def execLbu (ra rb : RegNum) (i : Half) (s : State) : Result :=
  s.load ra (s.effAddr rb i) 1 (zextByte (s.peekByte (s.effAddr rb i)))

/-- LB: `x[RA]` receives the sign-extended byte at `x[RB] + sext_32(I)` (`44_load_store.md` R172). -/
def execLb (ra rb : RegNum) (i : Half) (s : State) : Result :=
  s.load ra (s.effAddr rb i) 1 (sextByte (s.peekByte (s.effAddr rb i)))

/-- LHU: `x[RA]` receives the zero-extended half-word at `x[RB] + sext_32(I)` (`44_load_store.md` R173). -/
def execLhu (ra rb : RegNum) (i : Half) (s : State) : Result :=
  s.load ra (s.effAddr rb i) 2 (zextHalf (s.peekHalf (s.effAddr rb i)))

/-- LH: `x[RA]` receives the sign-extended half-word at `x[RB] + sext_32(I)` (`44_load_store.md` R174). -/
def execLh (ra rb : RegNum) (i : Half) (s : State) : Result :=
  s.load ra (s.effAddr rb i) 2 (sextHalf (s.peekHalf (s.effAddr rb i)))

/-- LW: `x[RA]` receives the word at `x[RB] + sext_32(I)` (`44_load_store.md` R175). -/
def execLw (ra rb : RegNum) (i : Half) (s : State) : Result :=
  s.load ra (s.effAddr rb i) 4 (s.peekWord (s.effAddr rb i))

/-- SB: store `x[RA][7:0]` at `x[RB] + sext_32(I)`; no register is written (`44_load_store.md` R176). -/
def execSb (ra rb : RegNum) (i : Half) (s : State) : Result :=
  s.access (s.effAddr rb i) 1 (.next (s.pokeByte (s.effAddr rb i) (lowByte (s.reg ra))))

/-- SH: store `x[RA][15:0]` at `x[RB] + sext_32(I)`; no register is written (`44_load_store.md` R177). -/
def execSh (ra rb : RegNum) (i : Half) (s : State) : Result :=
  s.access (s.effAddr rb i) 2 (.next (s.pokeHalf (s.effAddr rb i) (lowHalf (s.reg ra))))

/-- SW: store `x[RA]` at `x[RB] + sext_32(I)`; no register is written (`44_load_store.md` R178). -/
def execSw (ra rb : RegNum) (i : Half) (s : State) : Result :=
  s.access (s.effAddr rb i) 4 (.next (s.pokeWord (s.effAddr rb i) (s.reg ra)))

end Sys2Proof.Machine
end

