-- ==== Sys2Proof/Machine/Logical.lean ====
section
/-! DEFINITION. The logical instructions (`40_logical.md`). None touches Carry; none can fault (R120). -/

namespace Sys2Proof.Machine

/-- OR: `x[RA] <- x[RB] | x[RC]` (`40_logical.md` R121). -/
def execOr (ra rb rc : RegNum) (s : State) : Result :=
  .next (s.setReg ra (s.reg rb ||| s.reg rc))

/-- ORI: `x[RA] <- x[RB] | zext_32(I)` (`40_logical.md` R122). -/
def execOri (ra rb : RegNum) (i : Half) (s : State) : Result :=
  .next (s.setReg ra (s.reg rb ||| zextI i))

/-- AND: `x[RA] <- x[RB] & x[RC]` (`40_logical.md` R123). -/
def execAnd (ra rb rc : RegNum) (s : State) : Result :=
  .next (s.setReg ra (s.reg rb &&& s.reg rc))

/-- ANDI: `x[RA] <- x[RB] & zext_32(I)` (`40_logical.md` R124). -/
def execAndi (ra rb : RegNum) (i : Half) (s : State) : Result :=
  .next (s.setReg ra (s.reg rb &&& zextI i))

/-- XOR: `x[RA] <- x[RB] ^ x[RC]` (`40_logical.md` R125). -/
def execXor (ra rb rc : RegNum) (s : State) : Result :=
  .next (s.setReg ra (s.reg rb ^^^ s.reg rc))

/-- XORI: `x[RA] <- x[RB] ^ zext_32(I)` (`40_logical.md` R126). -/
def execXori (ra rb : RegNum) (i : Half) (s : State) : Result :=
  .next (s.setReg ra (s.reg rb ^^^ zextI i))

end Sys2Proof.Machine
end

