-- ==== Sys2Proof/Machine/PortIO.lean ====
section
/-! DEFINITION. The port instructions (`45_port_io.md`). None writes Carry; none raises an exception; with RA = 0 an input still
reads the port (R193); an input whose read never completes leaves the core stuck (R190). -/

namespace Sys2Proof.Machine

/-- INPBU: `x[RA]` receives the zero-extended low byte of `PortRead(P)` (`45_port_io.md` R194). -/
def execInpbu (ra : RegNum) (p : PortNum) (s : State) : Result :=
  s.input ra p (fun v => zextByte (lowByte v))

/-- INPB: `x[RA]` receives the sign-extended low byte of `PortRead(P)` (`45_port_io.md` R195). -/
def execInpb (ra : RegNum) (p : PortNum) (s : State) : Result :=
  s.input ra p (fun v => sextByte (lowByte v))

/-- INPHU: `x[RA]` receives the zero-extended low half-word of `PortRead(P)` (`45_port_io.md` R196). -/
def execInphu (ra : RegNum) (p : PortNum) (s : State) : Result :=
  s.input ra p (fun v => zextHalf (lowHalf v))

/-- INPH: `x[RA]` receives the sign-extended low half-word of `PortRead(P)` (`45_port_io.md` R197). -/
def execInph (ra : RegNum) (p : PortNum) (s : State) : Result :=
  s.input ra p (fun v => sextHalf (lowHalf v))

/-- INP: `x[RA]` receives `PortRead(P)` (`45_port_io.md` R198). -/
def execInp (ra : RegNum) (p : PortNum) (s : State) : Result :=
  s.input ra p id

/-- OUTPB: `PortWrite(P, zext_32(x[RA][7:0]))` (`45_port_io.md` R199). -/
def execOutpb (ra : RegNum) (p : PortNum) (s : State) : Result :=
  .next (s.portWrite p (zextByte (lowByte (s.reg ra))))

/-- OUTPH: `PortWrite(P, zext_32(x[RA][15:0]))` (`45_port_io.md` R200). -/
def execOutph (ra : RegNum) (p : PortNum) (s : State) : Result :=
  .next (s.portWrite p (zextHalf (lowHalf (s.reg ra))))

/-- OUTP: `PortWrite(P, x[RA])` (`45_port_io.md` R201). -/
def execOutp (ra : RegNum) (p : PortNum) (s : State) : Result :=
  .next (s.portWrite p (s.reg ra))

end Sys2Proof.Machine
end

