-- ==== Sys2Proof/Machine/Relational.lean ====
section
/-! DEFINITION. The relational instructions (`43_relational.md`): the value written is 0 or 1, no flag changes (R160). -/

namespace Sys2Proof.Machine

/-- EQ: 1 when `x[RB]` equals `x[RC]`, else 0 (`43_relational.md` R161). -/
def execEq (ra rb rc : RegNum) (s : State) : Result :=
  .next (s.setReg ra (truth (s.reg rb == s.reg rc)))

/-- EQI: against `sext_32(I)` (`43_relational.md` R162). -/
def execEqi (ra rb : RegNum) (i : Half) (s : State) : Result :=
  .next (s.setReg ra (truth (s.reg rb == sextI i)))

/-- EQ by its duplicate opcode 0x1A (`30_encoding.md` R90, `43_relational.md` R161). -/
def execEqDup (ra rb rc : RegNum) (s : State) : Result :=
  .next (s.setReg ra (truth (s.reg rb == s.reg rc)))

/-- EQUI: against `zext_32(I)` (`43_relational.md` R163). -/
def execEqui (ra rb : RegNum) (i : Half) (s : State) : Result :=
  .next (s.setReg ra (truth (s.reg rb == zextI i)))

/-- LT: 1 when `x[RB] <s x[RC]`, else 0 (`43_relational.md` R164). -/
def execLt (ra rb rc : RegNum) (s : State) : Result :=
  .next (s.setReg ra (truth ((s.reg rb).slt (s.reg rc))))

/-- LTI: against `sext_32(I)`, signed (`43_relational.md` R165). -/
def execLti (ra rb : RegNum) (i : Half) (s : State) : Result :=
  .next (s.setReg ra (truth ((s.reg rb).slt (sextI i))))

/-- LTU: 1 when `x[RB] <u x[RC]`, else 0 (`43_relational.md` R166). -/
def execLtu (ra rb rc : RegNum) (s : State) : Result :=
  .next (s.setReg ra (truth ((s.reg rb).ult (s.reg rc))))

/-- LTUI: against `zext_32(I)`, unsigned (`43_relational.md` R167). -/
def execLtui (ra rb : RegNum) (i : Half) (s : State) : Result :=
  .next (s.setReg ra (truth ((s.reg rb).ult (zextI i))))

end Sys2Proof.Machine
end

