-- ==== Sys2Proof/Machine/Shift.lean ====
section
/-! DEFINITION. The shift instructions (`42_shift.md`). No shift writes Carry (R150). -/

namespace Sys2Proof.Machine

/-- SRAV: shift `x[RB]` by `x[RC]`, all 32 bits of it (`42_shift.md` R151, R150). -/
def execSrav (ra rb rc : RegNum) (s : State) : Result :=
  s.shift ra .sra (s.reg rb) (s.reg rc)

/-- SRA: shift `x[RB]` by I, 0 to 65535 (`42_shift.md` R152, R150). -/
def execSra (ra rb : RegNum) (i : Half) (s : State) : Result :=
  s.shift ra .sra (s.reg rb) (zextI i)

/-- SRLV: shift `x[RB]` by `x[RC]`, all 32 bits of it (`42_shift.md` R153, R150). -/
def execSrlv (ra rb rc : RegNum) (s : State) : Result :=
  s.shift ra .srl (s.reg rb) (s.reg rc)

/-- SRL: shift `x[RB]` by I, 0 to 65535 (`42_shift.md` R154, R150). -/
def execSrl (ra rb : RegNum) (i : Half) (s : State) : Result :=
  s.shift ra .srl (s.reg rb) (zextI i)

/-- SLLV: shift `x[RB]` by `x[RC]`, all 32 bits of it (`42_shift.md` R155, R150). -/
def execSllv (ra rb rc : RegNum) (s : State) : Result :=
  s.shift ra .sll (s.reg rb) (s.reg rc)

/-- SLL: shift `x[RB]` by I, 0 to 65535 (`42_shift.md` R156, R150). -/
def execSll (ra rb : RegNum) (i : Half) (s : State) : Result :=
  s.shift ra .sll (s.reg rb) (zextI i)

/-- SLLV by its duplicate opcode 0x16 (`30_encoding.md` R90, `42_shift.md` R155). -/
def execSllvDup (ra rb rc : RegNum) (s : State) : Result :=
  s.shift ra .sll (s.reg rb) (s.reg rc)

/-- SLL by its duplicate opcode 0x17 (`30_encoding.md` R90, `42_shift.md` R156). -/
def execSllDup (ra rb : RegNum) (i : Half) (s : State) : Result :=
  s.shift ra .sll (s.reg rb) (zextI i)

end Sys2Proof.Machine
end

