-- ==== Sys2Proof/Machine/Dispatch.lean ====
section
/-! DEFINITION. The dispatch: one arm per constructor of Instr, each a direct call of its meaning. The state an
instruction executes in is the state after the fetch, whose program counter is already the next instruction's address
(10_state.md R29). -/

namespace Sys2Proof.Machine

def exec (i : Instr) (s : State) : Host.Outcome State Fault Refusal :=
  match i with
  | .or ra rb rc => Sys2Proof.Machine.execOr ra rb rc s
  | .ori ra rb imm => Sys2Proof.Machine.execOri ra rb imm s
  | .and ra rb rc => Sys2Proof.Machine.execAnd ra rb rc s
  | .andi ra rb imm => Sys2Proof.Machine.execAndi ra rb imm s
  | .xor ra rb rc => Sys2Proof.Machine.execXor ra rb rc s
  | .xori ra rb imm => Sys2Proof.Machine.execXori ra rb imm s
  | .invalid06 low => Sys2Proof.Machine.execInvalid06 low s
  | .invalid07 low => Sys2Proof.Machine.execInvalid07 low s
  | .add ra rb rc => Sys2Proof.Machine.execAdd ra rb rc s
  | .addi ra rb imm => Sys2Proof.Machine.execAddi ra rb imm s
  | .sub ra rb rc => Sys2Proof.Machine.execSub ra rb rc s
  | .subi ra rb imm => Sys2Proof.Machine.execSubi ra rb imm s
  | .mult ra rb rc => Sys2Proof.Machine.execMult ra rb rc s
  | .multi ra rb imm => Sys2Proof.Machine.execMulti ra rb imm s
  | .div ra rb rc rd => Sys2Proof.Machine.execDiv ra rb rc rd s
  | .divu ra rb rc rd => Sys2Proof.Machine.execDivu ra rb rc rd s
  | .divi ra rb imm => Sys2Proof.Machine.execDivi ra rb imm s
  | .srav ra rb rc => Sys2Proof.Machine.execSrav ra rb rc s
  | .sra ra rb imm => Sys2Proof.Machine.execSra ra rb imm s
  | .srlv ra rb rc => Sys2Proof.Machine.execSrlv ra rb rc s
  | .srl ra rb imm => Sys2Proof.Machine.execSrl ra rb imm s
  | .sllv ra rb rc => Sys2Proof.Machine.execSllv ra rb rc s
  | .sll ra rb imm => Sys2Proof.Machine.execSll ra rb imm s
  | .sllvDup ra rb rc => Sys2Proof.Machine.execSllvDup ra rb rc s
  | .sllDup ra rb imm => Sys2Proof.Machine.execSllDup ra rb imm s
  | .eq ra rb rc => Sys2Proof.Machine.execEq ra rb rc s
  | .eqi ra rb imm => Sys2Proof.Machine.execEqi ra rb imm s
  | .eqDup ra rb rc => Sys2Proof.Machine.execEqDup ra rb rc s
  | .equi ra rb imm => Sys2Proof.Machine.execEqui ra rb imm s
  | .lt ra rb rc => Sys2Proof.Machine.execLt ra rb rc s
  | .lti ra rb imm => Sys2Proof.Machine.execLti ra rb imm s
  | .ltu ra rb rc => Sys2Proof.Machine.execLtu ra rb rc s
  | .ltui ra rb imm => Sys2Proof.Machine.execLtui ra rb imm s
  | .lbu ra rb imm => Sys2Proof.Machine.execLbu ra rb imm s
  | .lb ra rb imm => Sys2Proof.Machine.execLb ra rb imm s
  | .lhu ra rb imm => Sys2Proof.Machine.execLhu ra rb imm s
  | .lh ra rb imm => Sys2Proof.Machine.execLh ra rb imm s
  | .lw ra rb imm => Sys2Proof.Machine.execLw ra rb imm s
  | .sb ra rb imm => Sys2Proof.Machine.execSb ra rb imm s
  | .sh ra rb imm => Sys2Proof.Machine.execSh ra rb imm s
  | .sw ra rb imm => Sys2Proof.Machine.execSw ra rb imm s
  | .inpbu ra p => Sys2Proof.Machine.execInpbu ra p s
  | .inpb ra p => Sys2Proof.Machine.execInpb ra p s
  | .inphu ra p => Sys2Proof.Machine.execInphu ra p s
  | .inph ra p => Sys2Proof.Machine.execInph ra p s
  | .inp ra p => Sys2Proof.Machine.execInp ra p s
  | .outpb ra p => Sys2Proof.Machine.execOutpb ra p s
  | .outph ra p => Sys2Proof.Machine.execOutph ra p s
  | .outp ra p => Sys2Proof.Machine.execOutp ra p s
  | .jr rb => Sys2Proof.Machine.execJr rb s
  | .ja ia => Sys2Proof.Machine.execJa ia s
  | .j ia => Sys2Proof.Machine.execJ ia s
  | .bz ra rb => Sys2Proof.Machine.execBz ra rb s
  | .bzi ra ic => Sys2Proof.Machine.execBzi ra ic s
  | .bnz ra rb => Sys2Proof.Machine.execBnz ra rb s
  | .bnzi ra ic => Sys2Proof.Machine.execBnzi ra ic s
  | .nop => Sys2Proof.Machine.execNop s
  | .invalid38 low => Sys2Proof.Machine.execInvalid38 low s
  | .invalid39 low => Sys2Proof.Machine.execInvalid39 low s
  | .invalid3A low => Sys2Proof.Machine.execInvalid3A low s
  | .invalid3B low => Sys2Proof.Machine.execInvalid3B low s
  | .invalid3C low => Sys2Proof.Machine.execInvalid3C low s
  | .invalid3D low => Sys2Proof.Machine.execInvalid3D low s
  | .invalid3E low => Sys2Proof.Machine.execInvalid3E low s
  | .invalid3F low => Sys2Proof.Machine.execInvalid3F low s

end Sys2Proof.Machine
end

