-- ==== Sys2Proof/Machine/Step.lean ====
section
/-! DEFINITION. One step of the core: one pass of the instruction cycle (`10_state.md` R29). -/

namespace Sys2Proof.Machine

/-- One step (`10_state.md` R29): the interrupt check, the fetch, the increment of the program counter, then the
decoded instruction. Step (6), ending the interrupt lock, is part of JR's meaning. -/
def step (s : State) : Host.Outcome State Fault Refusal :=
  match s.checkInterrupts with
  | .fault f => .fault f
  | .refused r => .refused r
  | .next t =>
    match t.fetch with
    | .error f => .fault f
    | .ok w => exec (decodeWord w) t.advance

/-- `s` with an instruction stored where `step` fetches its next one; nothing else changes. -/
def State.withFetchWord (s : State) (nbits w : Nat) : State := s.placeFetchWord nbits w

end Sys2Proof.Machine
end

