-- ==== Sys2Proof/Machine/Assembler.lean ====
section
/-! DEFINITION. The cross-assembler, from parsed lines to the image (`47_assembler_and_conventions.md` sections 2 to
5): operand forms, address assignment, labels, the pseudo-instructions LA, CALL and RET, the directives, the output.
What the manual calls or this spec takes as an error is an `AsmError`; nothing is guessed (log 34). -/

namespace Sys2Proof.Machine

/-- A label, as the characters of the source (R242). -/
abbrev Label := List Char

/-- Why the assembler gives no image. The manual does not say what it does on an error (R240); the model gives none.
All safe. -/
inductive AsmError where
  /-- A line that no form of R241, R242, R245 covers. -/
  | badLine
  /-- A name that R246, R250 to R256 do not list. -/
  | unknownName
  /-- Operands that do not fit the instruction's or directive's form (R246). -/
  | badOperands
  /-- An immediate outside -32768 to 65535 (R249, decision D37). -/
  | immediateRange
  /-- A `.byte` operand outside 0 to 255 (R254). -/
  | byteRange
  /-- What is no string literal of Python, a formatted literal, or a character of `.asciiz` outside ASCII (R253; log 36). -/
  | badString
  /-- A reference to a label that no line defines. -/
  | undefinedLabel
  /-- Two definitions of one label. -/
  | duplicateLabel
  /-- A label with no instruction or data directive after it (R242 gives it no address). -/
  | danglingLabel
  /-- A jump or branch to a label its field cannot reach (R248). -/
  | outOfReach
  /-- `.data` with an operand: "but this does not work" (R255). -/
  | dataOperand
  /-- Two items at overlapping addresses (R243), or an item outside the 32-bit address space. -/
  | overlap
  deriving DecidableEq, Repr

/-- An operand of an instruction, by its type in Table 8 (R245). -/
inductive Operand where
  /-- `$rn`. -/
  | reg (r : RegNum)
  /-- `$pn`. -/
  | port (p : PortNum)
  /-- A signed decimal integer. -/
  | imm (v : Int)
  /-- The name of a label. -/
  | label (l : Label)
  deriving DecidableEq, Repr

/-- What a line holds beside its labels (R241). -/
inductive Item where
  /-- Nothing, or a comment. -/
  | blank
  /-- A machine instruction or pseudo-instruction by its name. -/
  | instr (name : List Char) (ops : List Operand)
  /-- `.asciiz`, the bytes of the string without the final zero (R253). -/
  | asciiz (bytes : List Byte)
  /-- `.byte` (R254). -/
  | byte (vals : List Int)
  /-- `.data` (R255). -/
  | data (at_ : Option Int)
  /-- `.text` (R256). -/
  | text (at_ : Option Int)
  deriving DecidableEq, Repr

/-- One line of the source: its labels and its item (R241, R242). -/
structure Line where
  labels : List Label
  item : Item
  deriving DecidableEq, Repr

/-- The operand list a machine instruction takes in assembler source (R246), with the instruction it makes. -/
inductive AsmForm where
  /-- `RA,RB,RC`. -/
  | r3 (mk : RegNum → RegNum → RegNum → Instr)
  /-- `RA,RB,I`. -/
  | r2i (mk : RegNum → RegNum → Half → Instr)
  /-- `RA,RB[,I]`: the offset may be left out and is then 0 (R247). -/
  | mem (mk : RegNum → RegNum → Half → Instr)
  /-- `RA,P`. -/
  | port (mk : RegNum → PortNum → Instr)
  /-- `RA` of JR, placed in field R_B (R260, decision D1). -/
  | r1 (mk : RegNum → Instr)
  /-- `RA,RB` of BZ and BNZ. -/
  | r2 (mk : RegNum → RegNum → Instr)
  /-- `label` of JA: the label's address divided by 4 (R248). -/
  | absLabel (mk : BitVec 26 → Instr)
  /-- `label` of J: the relative word offset (R248). -/
  | relLabel (mk : BitVec 26 → Instr)
  /-- `RA,label` of BZI and BNZI: the relative word offset (R248). -/
  | branchLabel (mk : RegNum → BitVec 21 → Instr)

/-- The table of section 3.4.1 (R246). DIV and DIVU name three registers; R_D is 0 (R260, decision D33). NOP has no
mnemonic and the duplicate opcodes are not emitted (R258). -/
def asmTable : List (List Char × AsmForm) :=
  [("OR".toList, .r3 .or), ("ORI".toList, .r2i .ori), ("AND".toList, .r3 .and), ("ANDI".toList, .r2i .andi),
   ("XOR".toList, .r3 .xor), ("XORI".toList, .r2i .xori), ("ADD".toList, .r3 .add), ("ADDI".toList, .r2i .addi),
   ("SUB".toList, .r3 .sub), ("SUBI".toList, .r2i .subi), ("MULT".toList, .r3 .mult), ("MULTI".toList, .r2i .multi),
   ("DIV".toList, .r3 fun a b c => .div a b c 0#5), ("DIVU".toList, .r3 fun a b c => .divu a b c 0#5),
   ("DIVI".toList, .r2i .divi)] ++
  [("SRAV".toList, .r3 .srav), ("SRA".toList, .r2i .sra), ("SRLV".toList, .r3 .srlv), ("SRL".toList, .r2i .srl),
   ("SLLV".toList, .r3 .sllv), ("SLL".toList, .r2i .sll), ("EQ".toList, .r3 .eq), ("EQI".toList, .r2i .eqi),
   ("EQUI".toList, .r2i .equi), ("LT".toList, .r3 .lt), ("LTI".toList, .r2i .lti), ("LTU".toList, .r3 .ltu),
   ("LTUI".toList, .r2i .ltui)] ++
  [("LBU".toList, .mem .lbu), ("LB".toList, .mem .lb), ("LHU".toList, .mem .lhu), ("LH".toList, .mem .lh),
   ("LW".toList, .mem .lw), ("SB".toList, .mem .sb), ("SH".toList, .mem .sh), ("SW".toList, .mem .sw)] ++
  [("INPBU".toList, .port .inpbu), ("INPB".toList, .port .inpb), ("INPHU".toList, .port .inphu),
   ("INPH".toList, .port .inph), ("INP".toList, .port .inp), ("OUTPB".toList, .port .outpb),
   ("OUTPH".toList, .port .outph), ("OUTP".toList, .port .outp)] ++
  [("JR".toList, .r1 .jr), ("JA".toList, .absLabel .ja), ("J".toList, .relLabel .j), ("BZ".toList, .r2 .bz),
   ("BZI".toList, .branchLabel .bzi), ("BNZ".toList, .r2 .bnz), ("BNZI".toList, .branchLabel .bnzi)]

/-- The addresses of the labels. -/
abbrev LabelEnv := List (Label × Nat)

/-- A label's address. -/
def labelAddr (env : LabelEnv) (l : Label) : Except AsmError Nat :=
  match env.lookup l with
  | some a => .ok a
  | none => .error .undefinedLabel

/-- The field I of an immediate: the low 16 bits of any value from -32768 to 65535 (R249, decision D37). -/
def immField (v : Int) : Except AsmError Half :=
  if -32768 ≤ v ∧ v ≤ 65535 then .ok (BitVec.ofInt 16 v) else .error .immediateRange

/-- The field of a relative jump at `a` to `t`, `(t - (a + 4)) / 4` in `w` bits of two's complement (R248,
decision D30). -/
def relField (w : Nat) (a t : Nat) : Except AsmError (BitVec w) :=
  if -(2 ^ (w - 1) : Int) ≤ ((t : Int) - (a + 4)) / 4 ∧ ((t : Int) - (a + 4)) / 4 < 2 ^ (w - 1) then
    .ok (BitVec.ofInt w (((t : Int) - (a + 4)) / 4))
  else .error .outOfReach

/-- The field of JA to `t`, `t / 4`; `t` lies in the lower 256 MiB (R248, decision D30). -/
def absField (t : Nat) : Except AsmError (BitVec 26) :=
  if t < 0x10000000 then .ok (BitVec.ofNat 26 (t / 4)) else .error .outOfReach

/-- One machine instruction at address `a` from its form and operands (R246 to R249). -/
def AsmForm.build (env : LabelEnv) (a : Nat) : AsmForm → List Operand → Except AsmError Instr
  | .r3 mk, [.reg ra, .reg rb, .reg rc] => .ok (mk ra rb rc)
  | .r2i mk, [.reg ra, .reg rb, .imm v] => (immField v).map (mk ra rb)
  | .mem mk, [.reg ra, .reg rb, .imm v] => (immField v).map (mk ra rb)
  | .mem mk, [.reg ra, .reg rb] => .ok (mk ra rb 0#16)
  | .port mk, [.reg ra, .port p] => .ok (mk ra p)
  | .r1 mk, [.reg r] => .ok (mk r)
  | .r2 mk, [.reg ra, .reg rb] => .ok (mk ra rb)
  | .absLabel mk, [.label l] => (labelAddr env l).bind fun t => (absField t).map mk
  | .relLabel mk, [.label l] => (labelAddr env l).bind fun t => (relField 26 a t).map mk
  | .branchLabel mk, [.reg ra, .label l] => (labelAddr env l).bind fun t => (relField 21 a t).map (mk ra)
  | _, _ => .error .badOperands

/-- LA `r`, label: seven instructions that load the 32-bit address `t` byte by byte (R250). -/
def expandLA (r : RegNum) (t : Word) : List Instr :=
  [.addi r 0#5 (zextHalfByte t 3), .sll r r 8#16, .addi r r (zextHalfByte t 2), .sll r r 8#16,
   .addi r r (zextHalfByte t 1), .sll r r 8#16, .addi r r (zextHalfByte t 0)]
where
  /-- Byte `k` of an address as an immediate. -/
  zextHalfByte (t : Word) (k : Nat) : Half := (byteOfWord t k).setWidth 16

/-- CALL label: eleven instructions; `ia` is the relative field of the J, which stands 24 bytes in (R251,
`90_conflicts.md` C8, decision D31). -/
def expandCALL (ia : BitVec 26) : List Instr :=
  [.sw 28#5 27#5 0#16, .addi 28#5 27#5 0#16, .subi 27#5 27#5 4#16, .sw 29#5 27#5 0#16, .subi 27#5 27#5 4#16,
   .addi 29#5 31#5 4#16, .j ia, .subi 27#5 28#5 4#16, .lw 29#5 27#5 0#16, .addi 27#5 27#5 4#16, .lw 28#5 27#5 0#16]

/-- RET: `JR $r29` (R252). -/
def expandRET : List Instr := [.jr 29#5]

/-- The machine instructions a named instruction at address `a` becomes (R246, R250 to R252). -/
def expand (env : LabelEnv) (a : Nat) (name : List Char) (ops : List Operand) : Except AsmError (List Instr) :=
  if name = "LA".toList then
    match ops with
    | [.reg r, .label l] => (labelAddr env l).map fun t => expandLA r (BitVec.ofNat 32 t)
    | _ => .error .badOperands
  else if name = "CALL".toList then
    match ops with
    | [.label l] => (labelAddr env l).bind fun t => (relField 26 (a + 24) t).map expandCALL
    | _ => .error .badOperands
  else if name = "RET".toList then
    match ops with
    | [] => .ok expandRET
    | _ => .error .badOperands
  else match asmTable.lookup name with
    | some f => (f.build env a ops).map fun i => [i]
    | none => .error .unknownName

/-- The assembled length of an item in bytes (R243, R250 to R254). -/
def Item.size : Item → Nat
  | .blank => 0
  | .instr name _ => if name = "LA".toList then 28 else if name = "CALL".toList then 44 else 4
  | .asciiz bs => bs.length + 1
  | .byte vs => vs.length
  | .data _ => 0
  | .text _ => 0

/-- Does the item take an address: is it an instruction or a data directive (R242)? -/
def Item.takesAddress : Item → Bool
  | .blank => false
  | .instr _ _ => true
  | .asciiz _ => true
  | .byte _ => true
  | .data _ => false
  | .text _ => false

/-- The next multiple of 4 that is at least `a` (R243, R256). -/
def alignUp (a : Nat) : Nat := (a + 3) / 4 * 4

/-- Give `ls` the address `a`; a label defined twice is an error. -/
def defineLabels (env : LabelEnv) (a : Nat) : List Label → Except AsmError LabelEnv
  | [] => .ok env
  | l :: ls => if (env.lookup l).isSome then .error .duplicateLabel else defineLabels ((l, a) :: env) a ls

/-- Address assignment (R243, R255, R256) and label definition (R242): from the location `loc`, the labels waiting for
an address and the labels defined so far, the items with their addresses and all labels. -/
def place (loc : Nat) (waiting : List Label) (env : LabelEnv) :
    List Line → Except AsmError (List (Nat × Item) × LabelEnv)
  | [] => if waiting = [] then .ok ([], env) else .error .danglingLabel
  | ln :: rest =>
    match ln.item with
    | .blank => place loc (waiting ++ ln.labels) env rest
    | .data none => place loc (waiting ++ ln.labels) env rest
    | .data (some _) => .error .dataOperand
    | .text none => place loc (waiting ++ ln.labels) env rest
    | .text (some v) => if v < 0 then .error .badOperands else place (alignUp v.toNat) (waiting ++ ln.labels) env rest
    | it =>
      (defineLabels env loc (waiting ++ ln.labels)).bind fun env' =>
        (place (alignUp (loc + it.size)) [] env' rest).map fun r => ((loc, it) :: r.1, r.2)

/-- A data byte from a `.byte` operand (R254). -/
def byteOperand (v : Int) : Except AsmError Byte :=
  if 0 ≤ v ∧ v ≤ 255 then .ok (BitVec.ofInt 8 v) else .error .byteRange

/-- The bytes of an item at address `a` (R244, R246 to R254); an instruction's word is little-endian (R52). -/
def itemBytes (env : LabelEnv) (a : Nat) : Item → Except AsmError (List Byte)
  | .blank => .ok []
  | .instr name ops => (expand env a name ops).map fun is => is.flatMap fun i => bytesOfWord (encode i)
  | .asciiz bs => .ok (bs ++ [0#8])
  | .byte vs => vs.mapM byteOperand
  | .data _ => .ok []
  | .text _ => .ok []

/-- The bytes of every item with their first addresses. -/
def emitAll (env : LabelEnv) : List (Nat × Item) → Except AsmError (List (Nat × List Byte))
  | [] => .ok []
  | (a, it) :: rest => (itemBytes env a it).bind fun bs => (emitAll env rest).map fun r => (a, bs) :: r

/-- Does the run of bytes at `a` share no address with any later one, and stay below 2^32? -/
def disjointFrom (a n : Nat) (chunks : List (Nat × List Byte)) : Bool :=
  decide (a + n ≤ 4294967296) && chunks.all fun c => decide (a + n ≤ c.1) || decide (c.1 + c.2.length ≤ a)

/-- Do no two runs of bytes overlap? -/
def allDisjoint : List (Nat × List Byte) → Bool
  | [] => true
  | c :: rest => disjointFrom c.1 c.2.length rest && allDisjoint rest

/-- The byte at an address of the image; a byte that no item covers is 0x00 (R243, decision D34). -/
def imageByte : List (Nat × List Byte) → Nat → Byte
  | [], _ => 0#8
  | (b, bs) :: rest, a => if b ≤ a ∧ a < b + bs.length then (bs[a - b]?).getD 0#8 else imageByte rest a

/-- The address after the highest byte any item covers. -/
def imageEnd : List (Nat × List Byte) → Nat
  | [] => 0
  | (b, bs) :: rest => max (b + bs.length) (imageEnd rest)

/-- The lines of the output: line n (from 1) is the word at address 4(n - 1), from address 0 to the end (R244). -/
def imageWords (chunks : List (Nat × List Byte)) : List Word :=
  (List.range ((imageEnd chunks + 3) / 4)).map fun k =>
    wordOfBytes (imageByte chunks (4 * k)) (imageByte chunks (4 * k + 1)) (imageByte chunks (4 * k + 2))
      (imageByte chunks (4 * k + 3))

/-- Assemble parsed lines: the first item goes to address 0 (R243). -/
def assembleLines (ls : List Line) : Except AsmError (List Word) :=
  (place 0 [] [] ls).bind fun p =>
    (emitAll p.2 p.1).bind fun chunks => if allDisjoint chunks then .ok (imageWords chunks) else .error .overlap

/-- One line of the output: the word as 32 binary digits, most significant first (R244). -/
def outputLine (w : Word) : List Char := (List.range 32).map fun k => if w.getLsbD (31 - k) then '1' else '0'

end Sys2Proof.Machine
end

