-- ==== Sys2Proof/Machine/AsmString.lean ====
section
/-! DEFINITION. The string literal of `.asciiz`, "parsed within the assembler as a Python string literal" that "supports
all escape sequences" (`47_assembler_and_conventions.md` R245, R253). The spec does not repeat Python's rules and says
that the version is not stated: what stands here is Python 3's, read on one line of text (log 36, PRESUMED). -/

namespace Sys2Proof.Machine

/-- Blank and tab, the two characters this model takes as whitespace. MODEL'S CHOICE: R241 says "whitespace only" and
does not list the characters (log 39). -/
def isSpaceChar (c : Char) : Bool := c == ' ' || c == '\t'

/-- A decimal digit. -/
def isDigitChar (c : Char) : Bool := decide ('0'.toNat ≤ c.toNat) && decide (c.toNat ≤ '9'.toNat)

/-- A capital letter of ASCII. -/
def isCapitalChar (c : Char) : Bool := decide ('A'.toNat ≤ c.toNat) && decide (c.toNat ≤ 'Z'.toNat)

/-- A small letter of ASCII. -/
def isSmallChar (c : Char) : Bool := decide ('a'.toNat ≤ c.toNat) && decide (c.toNat ≤ 'z'.toNat)

/-- A letter of ASCII. -/
def isLetterChar (c : Char) : Bool := isCapitalChar c || isSmallChar c

/-- The capital of a small letter; any other character stays. -/
def capitalChar (c : Char) : Char := if isSmallChar c then Char.ofNat (c.toNat - 32) else c

/-! ### Escapes -/

/-- A digit in base 8. -/
def isOctalChar (c : Char) : Bool := decide ('0'.toNat ≤ c.toNat) && decide (c.toNat ≤ '7'.toNat)

/-- A digit in base 16. -/
def isHexChar (c : Char) : Bool :=
  isDigitChar c || decide ('A'.toNat ≤ (capitalChar c).toNat) && decide ((capitalChar c).toNat ≤ 'F'.toNat)

/-- The value of a digit in base 16. -/
def hexDigit (c : Char) : Nat :=
  if isDigitChar c then c.toNat - '0'.toNat else (capitalChar c).toNat - 'A'.toNat + 10

/-- The value of a run of digits in a base. -/
def digitsIn (base : Nat) (ds : List Char) : Nat := ds.foldl (fun n d => base * n + hexDigit d) 0

/-- The one-character escapes. -/
def simpleEscape (c : Char) : Option Nat :=
  if c = '\\' then some 92 else if c = '\'' then some 39 else if c = '"' then some 34
  else if c = 'a' then some 7 else if c = 'b' then some 8 else if c = 'f' then some 12
  else if c = 'n' then some 10 else if c = 'r' then some 13 else if c = 't' then some 9
  else if c = 'v' then some 11 else none

/-- The Unicode names and name aliases of the ASCII characters, but for the letters. -/
def asciiNames : List (Nat × List String) :=
  [(0x00, ["NULL", "NUL"]), (0x01, ["START OF HEADING", "SOH"]), (0x02, ["START OF TEXT", "STX"]),
   (0x03, ["END OF TEXT", "ETX"]), (0x04, ["END OF TRANSMISSION", "EOT"]), (0x05, ["ENQUIRY", "ENQ"]),
   (0x06, ["ACKNOWLEDGE", "ACK"]), (0x07, ["ALERT", "BEL"]), (0x08, ["BACKSPACE", "BS"]),
   (0x09, ["CHARACTER TABULATION", "HORIZONTAL TABULATION", "HT", "TAB"]),
   (0x0A, ["LINE FEED", "NEW LINE", "END OF LINE", "LF", "NL", "EOL"]),
   (0x0B, ["LINE TABULATION", "VERTICAL TABULATION", "VT"]), (0x0C, ["FORM FEED", "FF"]),
   (0x0D, ["CARRIAGE RETURN", "CR"]), (0x0E, ["SHIFT OUT", "LOCKING-SHIFT ONE", "SO"]),
   (0x0F, ["SHIFT IN", "LOCKING-SHIFT ZERO", "SI"])] ++
  [(0x10, ["DATA LINK ESCAPE", "DLE"]), (0x11, ["DEVICE CONTROL ONE", "DC1"]),
   (0x12, ["DEVICE CONTROL TWO", "DC2"]), (0x13, ["DEVICE CONTROL THREE", "DC3"]),
   (0x14, ["DEVICE CONTROL FOUR", "DC4"]), (0x15, ["NEGATIVE ACKNOWLEDGE", "NAK"]),
   (0x16, ["SYNCHRONOUS IDLE", "SYN"]), (0x17, ["END OF TRANSMISSION BLOCK", "ETB"]),
   (0x18, ["CANCEL", "CAN"]), (0x19, ["END OF MEDIUM"]), (0x1A, ["SUBSTITUTE", "SUB"]),
   (0x1B, ["ESCAPE", "ESC"]), (0x1C, ["INFORMATION SEPARATOR FOUR", "FILE SEPARATOR", "FS"]),
   (0x1D, ["INFORMATION SEPARATOR THREE", "GROUP SEPARATOR", "GS"]),
   (0x1E, ["INFORMATION SEPARATOR TWO", "RECORD SEPARATOR", "RS"]),
   (0x1F, ["INFORMATION SEPARATOR ONE", "UNIT SEPARATOR", "US"]), (0x20, ["SPACE", "SP"])] ++
  [(0x21, ["EXCLAMATION MARK"]), (0x22, ["QUOTATION MARK"]), (0x23, ["NUMBER SIGN"]), (0x24, ["DOLLAR SIGN"]),
   (0x25, ["PERCENT SIGN"]), (0x26, ["AMPERSAND"]), (0x27, ["APOSTROPHE"]), (0x28, ["LEFT PARENTHESIS"]),
   (0x29, ["RIGHT PARENTHESIS"]), (0x2A, ["ASTERISK"]), (0x2B, ["PLUS SIGN"]), (0x2C, ["COMMA"]),
   (0x2D, ["HYPHEN-MINUS"]), (0x2E, ["FULL STOP"]), (0x2F, ["SOLIDUS"]), (0x30, ["DIGIT ZERO"]),
   (0x31, ["DIGIT ONE"]), (0x32, ["DIGIT TWO"]), (0x33, ["DIGIT THREE"]), (0x34, ["DIGIT FOUR"])] ++
  [(0x35, ["DIGIT FIVE"]), (0x36, ["DIGIT SIX"]), (0x37, ["DIGIT SEVEN"]), (0x38, ["DIGIT EIGHT"]),
   (0x39, ["DIGIT NINE"]), (0x3A, ["COLON"]), (0x3B, ["SEMICOLON"]), (0x3C, ["LESS-THAN SIGN"]),
   (0x3D, ["EQUALS SIGN"]), (0x3E, ["GREATER-THAN SIGN"]), (0x3F, ["QUESTION MARK"]),
   (0x40, ["COMMERCIAL AT"]), (0x5B, ["LEFT SQUARE BRACKET"]), (0x5C, ["REVERSE SOLIDUS"]),
   (0x5D, ["RIGHT SQUARE BRACKET"]), (0x5E, ["CIRCUMFLEX ACCENT"]), (0x5F, ["LOW LINE"]),
   (0x60, ["GRAVE ACCENT"]), (0x7B, ["LEFT CURLY BRACKET"]), (0x7C, ["VERTICAL LINE"]),
   (0x7D, ["RIGHT CURLY BRACKET"]), (0x7E, ["TILDE"]), (0x7F, ["DELETE", "DEL"])]

/-- The ASCII character of a Unicode name, in capitals. -/
def namedChar (name : List Char) : Option Nat :=
  match name.reverse with
  | l :: rest =>
    if isCapitalChar l && rest.reverse == "LATIN CAPITAL LETTER ".toList then some l.toNat
    else if isCapitalChar l && rest.reverse == "LATIN SMALL LETTER ".toList then some (l.toNat + 32)
    else (asciiNames.find? fun e => e.2.any fun n => n.toList == name).map Prod.fst
  | [] => none

/-- Exactly `n` hexadecimal digits: their value, and the text after them. -/
def fixedHex (n : Nat) (cs : List Char) : Option (List Nat × List Char) :=
  if (cs.take n).length = n ∧ (cs.take n).all isHexChar then some ([digitsIn 16 (cs.take n)], cs.drop n) else none

/-- A name in braces, in letters of either case: its character, and the text after it. -/
def bracedName (cs : List Char) : Option (List Nat × List Char) :=
  match cs, (cs.drop 1).dropWhile fun c => c.toNat != 125 with
  | o :: body, _ :: rest =>
    if o.toNat = 123 then
      (namedChar ((body.takeWhile fun c => c.toNat != 125).map capitalChar)).map fun n => ([n], rest)
    else none
  | _, _ => none

/-- The kind of a literal, from its prefix letters. -/
structure LiteralKind where
  /-- Prefix `r`: escapes are not processed. -/
  raw : Bool
  /-- Prefix `b`: a bytes literal, in which `\u`, `\U` and `\N` are no escapes. -/
  bytes : Bool
  deriving DecidableEq, Repr

/-- What an escape stands for, from after its backslash, and the text after it. An escape that Python does not know stays
in the string, backslash and all; an octal one in a bytes literal is taken modulo 256. -/
def parseEscape (kind : LiteralKind) : List Char → Option (List Nat × List Char)
  | [] => none
  | c :: rest =>
    if kind.raw then some ([92, c.toNat], rest)
    else if c = 'x' then fixedHex 2 rest
    else if isOctalChar c then
      some ([digitsIn 8 (((c :: rest).take 3).takeWhile isOctalChar) % (if kind.bytes then 256 else 512)],
        (c :: rest).drop (((c :: rest).take 3).takeWhile isOctalChar).length)
    else if c = 'u' && !kind.bytes then fixedHex 4 rest
    else if c = 'U' && !kind.bytes then fixedHex 8 rest
    else if c = 'N' && !kind.bytes then bracedName rest
    else match simpleEscape c with
      | some n => some ([n], rest)
      | none => some ([92, c.toNat], rest)

/-! ### Literals -/

/-- Put ASCII characters before the rest of a string. A character above 0x7F has no place in an "ASCII string", and what
becomes of it is not stated (R253): an error. -/
def prependAscii (ns : List Nat) (r : Except AsmError (List Byte × List Char)) : Except AsmError (List Byte × List Char) :=
  if ns.all fun n => decide (n < 128) then r.map fun p => (ns.map (BitVec.ofNat 8) ++ p.1, p.2) else .error .badString

/-- The bytes of one literal, from after its opening quotes, and the text after its closing ones; `close` is the closing
quotes and `fuel` bounds how many characters there are. -/
def literalBody (kind : LiteralKind) (close : List Char) : Nat → List Char → Except AsmError (List Byte × List Char)
  | 0, _ => .error .badString
  | _ + 1, [] => .error .badString
  | fuel + 1, c :: rest =>
    if (c :: rest).take close.length = close then .ok ([], (c :: rest).drop close.length)
    else if c = '\\' then
      match parseEscape kind rest with
      | some e => prependAscii e.1 (literalBody kind close fuel e.2)
      | none => .error .badString
    else prependAscii [c.toNat] (literalBody kind close fuel rest)

/-- The kind that a prefix makes, in letters of either case: none, `r`, `u`, `b`, `br` or `rb`. A formatted literal
(prefix `f`) is an expression to evaluate and no string literal of R245. -/
def literalKind (letters : List Char) : Option LiteralKind :=
  if letters = [] ∨ letters = ['U'] then some { raw := false, bytes := false }
  else if letters = ['R'] then some { raw := true, bytes := false }
  else if letters = ['B'] then some { raw := false, bytes := true }
  else if letters = ['B', 'R'] ∨ letters = ['R', 'B'] then some { raw := true, bytes := true }
  else none

/-- One literal in single, double or triple quotes, from its opening quote. -/
def quotedBody (kind : LiteralKind) (cs : List Char) : Except AsmError (List Byte × List Char) :=
  match cs with
  | q :: rest =>
    if q = '"' ∨ q = '\'' then
      if rest.take 2 = [q, q] then literalBody kind [q, q, q] cs.length (rest.drop 2)
      else literalBody kind [q] cs.length rest
    else .error .badString
  | [] => .error .badString

/-- One literal with its prefix: whether it is a bytes literal, its bytes, and the text after it. -/
def parseLiteral (cs : List Char) : Except AsmError (Bool × List Byte × List Char) :=
  match literalKind ((cs.takeWhile isLetterChar).map capitalChar) with
  | some kind => (quotedBody kind (cs.dropWhile isLetterChar)).map fun p => (kind.bytes, p)
  | none => .error .badString

/-- Adjacent literals, blanks between them, make one string; bytes literals do not mix with others. `fuel` bounds how many
there are. -/
def parseLiterals : Nat → List Char → Except AsmError (Bool × List Byte)
  | 0, _ => .error .badString
  | fuel + 1, cs =>
    (parseLiteral cs).bind fun p =>
      match p.2.2.dropWhile isSpaceChar with
      | [] => .ok (p.1, p.2.1)
      | c :: rest =>
        (parseLiterals fuel (c :: rest)).bind fun r =>
          if r.1 = p.1 then .ok (p.1, p.2.1 ++ r.2) else .error .badString

/-- The string of `.asciiz` (R245, R253). A NUL or a carriage return, which Python takes as the end of a line, has no place
in a literal on one line. -/
def parseString (cs : List Char) : Except AsmError (List Byte) :=
  if cs.any fun c => c.toNat == 0 || c.toNat == 13 then .error .badString
  else (parseLiterals cs.length cs).map Prod.snd

end Sys2Proof.Machine
end

