-- ==== Sys2Proof/Machine/AsmText.lean ====
section
/-! DEFINITION. The assembler's source text (`47_assembler_and_conventions.md` R240 to R242, R245, R253): from
characters to lines. Accepted beyond the manual's words are the string rules of log 36 and the blanks of log 40; every
other line is an error (logs 34, 39). -/

namespace Sys2Proof.Machine

/-- May a label start with this character (R242)? -/
def isLabelStart (c : Char) : Bool := isLetterChar c || c == '_'

/-- May a label contain this character (R242)? -/
def isLabelChar (c : Char) : Bool := isLabelStart c || isDigitChar c || c == '.'

/-- Split at a separator. -/
def splitAtChar (sep : Char) : List Char → List (List Char)
  | [] => [[]]
  | c :: cs =>
    match splitAtChar sep cs with
    | [] => [[c]]
    | h :: t => if c = sep then [] :: h :: t else (c :: h) :: t

/-- The value of a run of decimal digits. -/
def digitsValue (ds : List Char) : Nat := ds.foldl (fun n c => 10 * n + (c.toNat - '0'.toNat)) 0

/-- A decimal number: a single 0, or digits without a leading zero (R245). -/
def parseNat (cs : List Char) : Option Nat :=
  match cs with
  | [] => none
  | ['0'] => some 0
  | c :: rest => if c ≠ '0' && isDigitChar c && rest.all isDigitChar then some (digitsValue (c :: rest)) else none

/-- An immediate: an optional minus sign and a decimal number (R245). -/
def parseInt (cs : List Char) : Option Int :=
  match cs with
  | '-' :: rest => (parseNat rest).map fun n => -(n : Int)
  | _ => (parseNat cs).map fun n => (n : Int)

/-- A label's name (R242, R245). -/
def parseLabel (cs : List Char) : Option Label :=
  match cs with
  | [] => none
  | c :: rest => if isLabelStart c && rest.all isLabelChar then some cs else none

/-- A register or port number, 0 to 31 (R245). -/
def parseIndex (cs : List Char) : Option (BitVec 5) :=
  (parseNat cs).bind fun n => if n < 32 then some (BitVec.ofNat 5 n) else none

/-- One operand (R245). -/
def parseOperand (cs : List Char) : Except AsmError Operand :=
  match cs with
  | '$' :: 'r' :: ds => match parseIndex ds with
    | some r => .ok (.reg r)
    | none => .error .badOperands
  | '$' :: 'p' :: ds => match parseIndex ds with
    | some p => .ok (.port p)
    | none => .error .badOperands
  | _ => match parseInt cs with
    | some v => .ok (.imm v)
    | none => match parseLabel cs with
      | some l => .ok (.label l)
      | none => .error .badOperands

/-- Operands separated by commas (R241); no text is no operand. -/
def parseOperands (cs : List Char) : Except AsmError (List Operand) :=
  if cs = [] then .ok [] else (splitAtChar ',' cs).mapM parseOperand

/-- An integer among a directive's operands. -/
def parseIntOperand (cs : List Char) : Except AsmError Int :=
  match parseInt cs with
  | some v => .ok v
  | none => .error .badOperands

/-- The optional operand of `.data` and `.text` (R255, R256). -/
def parseOptInt (cs : List Char) : Except AsmError (Option Int) :=
  if cs = [] then .ok none else (parseIntOperand cs).map some

/-- An instruction or directive from its name and the text of its operands (R241, R246, R253 to R256). -/
def parseItem (name ops : List Char) : Except AsmError Item :=
  if name = ".asciiz".toList then (parseString ops).map .asciiz
  else if name = ".byte".toList then ((splitAtChar ',' ops).mapM parseIntOperand).map .byte
  else if name = ".data".toList then (parseOptInt ops).map .data
  else if name = ".text".toList then (parseOptInt ops).map .text
  else (parseOperands ops).map (.instr name)

/-- The text without the blanks at its end. MODEL'S CHOICE: the spec does not say that blanks may end a line; they are dropped
(log 40). -/
def trimEnd (cs : List Char) : List Char := (cs.reverse.dropWhile isSpaceChar).reverse

/-- A line after its labels: blank, or a name and its operands (R241). MODEL'S CHOICE: any number of blanks, or none, before
the name, and any number, at least one, between it and its operands (log 40). -/
def parseBody (cs : List Char) : Except AsmError Item :=
  match trimEnd (cs.dropWhile isSpaceChar) with
  | [] => .ok .blank
  | c :: rest =>
    parseItem ((c :: rest).takeWhile fun d => !isSpaceChar d)
      (((c :: rest).dropWhile fun d => !isSpaceChar d).dropWhile isSpaceChar)

/-- A line's labels, each suffixed with a colon, and what is left (R242); `fuel` bounds how many there can be. MODEL'S CHOICE:
blanks before a label, the first or a later one, are dropped (log 40). -/
def takeLabels : Nat → List Char → List Label × List Char
  | 0, cs => ([], cs)
  | fuel + 1, cs =>
    match parseLabel ((cs.dropWhile isSpaceChar).takeWhile isLabelChar),
        (cs.dropWhile isSpaceChar).dropWhile isLabelChar with
    | some l, ':' :: rest => (l :: (takeLabels fuel rest).1, (takeLabels fuel rest).2)
    | _, _ => ([], cs)

/-- Is the text after a line's labels a comment, which begins with a hash symbol (R241)? Behind a label the blanks that set
the rest of the line off from it do not count; without one the hash symbol is the line's first character (log 34). -/
def isComment (labels : List Label) (cs : List Char) : Bool :=
  (if labels = [] then cs else cs.dropWhile isSpaceChar).head? == some '#'

/-- A line from its labels and the text after them (R241, R242): any line may have labels, a comment too. -/
def parseLabelled (p : List Label × List Char) : Except AsmError Line :=
  if isComment p.1 p.2 then .ok { labels := p.1, item := .blank }
  else (parseBody p.2).map fun it => { labels := p.1, item := it }

/-- One line of the source (R241, R242). -/
def parseLine (cs : List Char) : Except AsmError Line := parseLabelled (takeLabels cs.length cs)

/-- Assemble a source text (R240, R241). MODEL'S CHOICE: a line ends at a line feed and at nothing else (log 39). -/
def assemble (src : List Char) : Except AsmError (List Word) :=
  ((splitAtChar '\n' src).mapM parseLine).bind assembleLines

/-- Assemble files in command-line order, as one string (R240). -/
def assembleFiles (files : List (List Char)) : Except AsmError (List Word) := assemble files.flatten

end Sys2Proof.Machine
end

