-- ==== Sys2Proof/Machine/Load.lean ====
section
/-! DEFINITION. The host's loader (`70_reset_and_hazards.md` R312) and the calling convention as data and instruction
sequences (`47_assembler_and_conventions.md` section 1). -/

namespace Sys2Proof.Machine

/-- Store the image's lines from line `n` (counted from 0) on: line `n` at address `4n`, little-endian (R244, R312). -/
def State.loadFrom (s : State) (n : Nat) : List Word → State
  | [] => s
  | w :: ws => (s.pokeWord (BitVec.ofNat 32 (4 * n)) w).loadFrom (n + 1) ws

/-- Load an assembled image from address 0 (R312; log 31). -/
def State.loadImage (s : State) (image : List Word) : State := s.loadFrom 0 image

/-- The start of a run: the state of `10_state.md` R37 with the host's arguments and the image (R312; log 31). -/
def State.start (p : Platform) (irqIn : List (List Nat)) (portIn : List PortAnswer) (image : List Word) : State :=
  { State.reset with platform := p, irqIn := irqIn, portIn := portIn }.loadImage image

/-- Whether assembly-language programs should reference a register directly (Table 7, R230). -/
inductive DirectUse where
  | no
  | readOnly
  | yes
  deriving DecidableEq, Repr

/-- A register's purpose by convention (Table 7, R230). -/
inductive Purpose where
  | constantZero
  | assemblerTemporary
  | returnValue (k : Nat)
  | parameter (k : Nat)
  | volatile
  | static
  | stackPointer
  | framePointer
  | returnAddress
  | statusRegister
  | programCounter
  deriving DecidableEq, Repr

/-- The purpose of a register (Table 7, R230). Table 7 has no row for register 0: its purpose here is R21's
(`10_state.md`), the constant 0 (log 41). The hardware enforces none of this (R234). -/
def purposeOf (r : RegNum) : Purpose :=
  if r.toNat = 0 then .constantZero else if r.toNat = 1 then .assemblerTemporary
  else if r.toNat ≤ 3 then .returnValue (r.toNat - 2) else if r.toNat ≤ 7 then .parameter (r.toNat - 4)
  else if r.toNat ≤ 15 then .volatile else if r.toNat ≤ 23 then .static else if r.toNat ≤ 26 then .volatile
  else if r.toNat = 27 then .stackPointer else if r.toNat = 28 then .framePointer
  else if r.toNat = 29 then .returnAddress else if r.toNat = 30 then .statusRegister else .programCounter

/-- Must the register be preserved through a call (Table 7, R230)? MODEL'S CHOICE: no for register 0, of which Table 7 has no
row (log 41). -/
def mustPreserve (r : RegNum) : Bool :=
  match purposeOf r with
  | .static => true
  | .stackPointer => true
  | .framePointer => true
  | _ => false

/-- May programs use the register directly (Table 7, R230)? MODEL'S CHOICE: yes for register 0, of which Table 7 has no row
(log 41). -/
def directUse (r : RegNum) : DirectUse :=
  match purposeOf r with
  | .assemblerTemporary => .no
  | .returnAddress => .no
  | .programCounter => .no
  | .framePointer => .readOnly
  | .statusRegister => .readOnly
  | _ => .yes

/-- A push of register `r`: store to the location of the stack pointer, then decrement it by 4 (R232). -/
def pushSequence (r : RegNum) : List Instr := [.sw r 27#5 0#16, .subi 27#5 27#5 4#16]

/-- A pop: increment the stack pointer by 4; the popped element is then at the stack pointer, from where it is loaded
into `r` (R232). -/
def popSequence (r : RegNum) : List Instr := [.addi 27#5 27#5 4#16, .lw r 27#5 0#16]

end Sys2Proof.Machine
end

