-- ==== Sys2Proof/Safety.lean ====
section
/-! DEFINITION. The terms in which claims about the machine are stated: what a safe run is, the invariant of every
step, which bits and registers an instruction uses, and the frames that say what a state keeps of another. -/

namespace Sys2Proof.Machine

/-! ### Runs -/

/-- A run of `k` steps from `s` meets no fault and no refusal (`60_exceptions.md` R285: "a proof about a program must
show the program reaches none of them"). -/
def SafeRun (k : Nat) (s : State) : Prop := ∃ t, Host.Core.run Sys2Proof.core k s = .next t

/-- Execute a list of instructions one after another with no fetch between them, the program counter advancing by 4
before each one as the fetch does (`10_state.md` R29). -/
def execList : List Instr → State → Result
  | [], s => .next s
  | i :: is, s =>
    match exec i s.advance with
    | .next t => execList is t
    | .fault f => .fault f
    | .refused r => .refused r

/-- The invariant of every step: memory is in its canonical form, and `pending` is a set of interrupt numbers of the
implementation, held in rising order (`10_state.md` R35, `60_exceptions.md` R271, R272; logs 2, 23). -/
structure State.Inv (s : State) : Prop where
  memory : s.mem.wf = true
  rising : s.pending.Pairwise (· < ·)
  numbers : ∀ n ∈ s.pending, 1 ≤ n ∧ n ≤ s.platform.nInt

/-! ### Encodings, as the spec writes them -/

/-- Format 3R: `op<<26 | RA<<21 | RB<<16 | RC<<11`, bits 10 to 0 unused (`30_encoding.md` R83). -/
def word3R (op : Nat) (ra rb rc : RegNum) (unused : BitVec 11) : Word :=
  BitVec.ofNat 32 (op * 2 ^ 26 + ra.toNat * 2 ^ 21 + rb.toNat * 2 ^ 16 + rc.toNat * 2 ^ 11 + unused.toNat)

/-- Format 2R+I: `op<<26 | RA<<21 | RB<<16 | I` (`30_encoding.md` R83). -/
def word2RI (op : Nat) (ra rb : RegNum) (i : Half) : Word :=
  BitVec.ofNat 32 (op * 2 ^ 26 + ra.toNat * 2 ^ 21 + rb.toNat * 2 ^ 16 + i.toNat)

/-- Format 4R+M: `op<<26 | RA<<21 | RB<<16 | RC<<11 | RD<<6 | DM`, bits 5 to 1 unused (`30_encoding.md` R83). -/
def word4RM (op : Nat) (ra rb rc rd : RegNum) (unused : BitVec 5) (dm : Nat) : Word :=
  BitVec.ofNat 32 (op * 2 ^ 26 + ra.toNat * 2 ^ 21 + rb.toNat * 2 ^ 16 + rc.toNat * 2 ^ 11 + rd.toNat * 2 ^ 6 +
    unused.toNat * 2 + dm)

/-- Formats 1R+P and 2R: `op<<26 | RA<<21 | P<<16` or `op<<26 | RA<<21 | RB<<16`, bits 15 to 0 unused
(`30_encoding.md` R83). -/
def word2R (op : Nat) (ra rb : BitVec 5) (unused : Half) : Word :=
  BitVec.ofNat 32 (op * 2 ^ 26 + ra.toNat * 2 ^ 21 + rb.toNat * 2 ^ 16 + unused.toNat)

/-- Format IA, and the word of an opcode with 26 unused bits: `op<<26 | IA` (`30_encoding.md` R83). -/
def wordIA (op : Nat) (ia : BitVec 26) : Word := BitVec.ofNat 32 (op * 2 ^ 26 + ia.toNat)

/-- Format 1R+I: `op<<26 | RA<<21 | IC` (`30_encoding.md` R83). -/
def word1RI (op : Nat) (ra : RegNum) (ic : BitVec 21) : Word :=
  BitVec.ofNat 32 (op * 2 ^ 26 + ra.toNat * 2 ^ 21 + ic.toNat)

/-- The bits of a word that the instruction's format uses, the others being unused (`30_encoding.md` R83, R84); all the
bits of an invalid opcode's word are kept. -/
def usedBits : Instr → Word
  | .or _ _ _ => 0xFFFFF800#32
  | .ori _ _ _ => 0xFFFFFFFF#32
  | .and _ _ _ => 0xFFFFF800#32
  | .andi _ _ _ => 0xFFFFFFFF#32
  | .xor _ _ _ => 0xFFFFF800#32
  | .xori _ _ _ => 0xFFFFFFFF#32
  | .invalid06 _ => 0xFFFFFFFF#32
  | .invalid07 _ => 0xFFFFFFFF#32
  | .add _ _ _ => 0xFFFFF800#32
  | .addi _ _ _ => 0xFFFFFFFF#32
  | .sub _ _ _ => 0xFFFFF800#32
  | .subi _ _ _ => 0xFFFFFFFF#32
  | .mult _ _ _ => 0xFFFFF800#32
  | .multi _ _ _ => 0xFFFFFFFF#32
  | .div _ _ _ _ => 0xFFFFFFC1#32
  | .divu _ _ _ _ => 0xFFFFFFC1#32
  | .divi _ _ _ => 0xFFFFFFFF#32
  | .srav _ _ _ => 0xFFFFF800#32
  | .sra _ _ _ => 0xFFFFFFFF#32
  | .srlv _ _ _ => 0xFFFFF800#32
  | .srl _ _ _ => 0xFFFFFFFF#32
  | .sllv _ _ _ => 0xFFFFF800#32
  | .sll _ _ _ => 0xFFFFFFFF#32
  | .sllvDup _ _ _ => 0xFFFFF800#32
  | .sllDup _ _ _ => 0xFFFFFFFF#32
  | .eq _ _ _ => 0xFFFFF800#32
  | .eqi _ _ _ => 0xFFFFFFFF#32
  | .eqDup _ _ _ => 0xFFFFF800#32
  | .equi _ _ _ => 0xFFFFFFFF#32
  | .lt _ _ _ => 0xFFFFF800#32
  | .lti _ _ _ => 0xFFFFFFFF#32
  | .ltu _ _ _ => 0xFFFFF800#32
  | .ltui _ _ _ => 0xFFFFFFFF#32
  | .lbu _ _ _ => 0xFFFFFFFF#32
  | .lb _ _ _ => 0xFFFFFFFF#32
  | .lhu _ _ _ => 0xFFFFFFFF#32
  | .lh _ _ _ => 0xFFFFFFFF#32
  | .lw _ _ _ => 0xFFFFFFFF#32
  | .sb _ _ _ => 0xFFFFFFFF#32
  | .sh _ _ _ => 0xFFFFFFFF#32
  | .sw _ _ _ => 0xFFFFFFFF#32
  | .inpbu _ _ => 0xFFFF0000#32
  | .inpb _ _ => 0xFFFF0000#32
  | .inphu _ _ => 0xFFFF0000#32
  | .inph _ _ => 0xFFFF0000#32
  | .inp _ _ => 0xFFFF0000#32
  | .outpb _ _ => 0xFFFF0000#32
  | .outph _ _ => 0xFFFF0000#32
  | .outp _ _ => 0xFFFF0000#32
  | .jr _ => 0xFC1F0000#32
  | .ja _ => 0xFFFFFFFF#32
  | .j _ => 0xFFFFFFFF#32
  | .bz _ _ => 0xFFFF0000#32
  | .bzi _ _ => 0xFFFFFFFF#32
  | .bnz _ _ => 0xFFFF0000#32
  | .bnzi _ _ => 0xFFFFFFFF#32
  | .nop => 0xFC000000#32
  | .invalid38 _ => 0xFFFFFFFF#32
  | .invalid39 _ => 0xFFFFFFFF#32
  | .invalid3A _ => 0xFFFFFFFF#32
  | .invalid3B _ => 0xFFFFFFFF#32
  | .invalid3C _ => 0xFFFFFFFF#32
  | .invalid3D _ => 0xFFFFFFFF#32
  | .invalid3E _ => 0xFFFFFFFF#32
  | .invalid3F _ => 0xFFFFFFFF#32

/-! ### Forms: how an instruction is encoded, decoded and written in assembler source -/

/-- The assembler turns a mnemonic and its operands into the one instruction `i`, at every address and with every set
of labels (`47_assembler_and_conventions.md` R246). -/
def Assembles (name : String) (ops : List Operand) (i : Instr) : Prop :=
  ∀ (env : LabelEnv) (a : Nat), expand env a name.toList ops = .ok [i]

/-- `mk` is the instruction of format 3R with opcode `op`, written `name RA,RB,RC`: its word is that of the format, with
the unused bits zero, and a word with any unused bits decodes to it. -/
def Form3R (op : Nat) (name : String) (mk : RegNum → RegNum → RegNum → Instr) : Prop :=
  ∀ ra rb rc : RegNum, (∀ unused, decodeWord (word3R op ra rb rc unused) = mk ra rb rc) ∧
    encode (mk ra rb rc) = word3R op ra rb rc 0#11 ∧
    Assembles name [.reg ra, .reg rb, .reg rc] (mk ra rb rc)

/-- `mk` is the instruction of format 2R+I with opcode `op`, written `name RA,RB,I`; an immediate from -32768 to 65535
is stored as the low 16 bits of its two's complement (R249). -/
def Form2RI (op : Nat) (name : String) (mk : RegNum → RegNum → Half → Instr) : Prop :=
  ∀ ra rb : RegNum, (∀ i, decodeWord (word2RI op ra rb i) = mk ra rb i ∧ encode (mk ra rb i) = word2RI op ra rb i) ∧
    (∀ v : Int, -32768 ≤ v → v ≤ 65535 → Assembles name [.reg ra, .reg rb, .imm v] (mk ra rb (BitVec.ofInt 16 v)))

/-- As `Form2RI`, for a load or store, whose offset may be left out in the source and is then 0 (R247). -/
def FormMem (op : Nat) (name : String) (mk : RegNum → RegNum → Half → Instr) : Prop :=
  Form2RI op name mk ∧ ∀ ra rb : RegNum, Assembles name [.reg ra, .reg rb] (mk ra rb 0#16)

/-- `mk` is the instruction of format 1R+P with opcode `op`, written `name RA,P`. -/
def FormPort (op : Nat) (name : String) (mk : RegNum → PortNum → Instr) : Prop :=
  ∀ (ra : RegNum) (p : PortNum), (∀ unused, decodeWord (word2R op ra p unused) = mk ra p) ∧
    encode (mk ra p) = word2R op ra p 0#16 ∧ Assembles name [.reg ra, .port p] (mk ra p)

/-- `mk` is the instruction of format 2R with opcode `op`, written `name RA,RB`. -/
def Form2R (op : Nat) (name : String) (mk : RegNum → RegNum → Instr) : Prop :=
  ∀ ra rb : RegNum, (∀ unused, decodeWord (word2R op ra rb unused) = mk ra rb) ∧
    encode (mk ra rb) = word2R op ra rb 0#16 ∧ Assembles name [.reg ra, .reg rb] (mk ra rb)

/-- `mk` is the instruction of format 1R+I with opcode `op`. -/
def Form1RI (op : Nat) (mk : RegNum → BitVec 21 → Instr) : Prop :=
  ∀ (ra : RegNum) (ic : BitVec 21), decodeWord (word1RI op ra ic) = mk ra ic ∧ encode (mk ra ic) = word1RI op ra ic

/-- `mk` is the instruction of format IA with opcode `op`. -/
def FormIA (op : Nat) (mk : BitVec 26 → Instr) : Prop :=
  ∀ ia : BitVec 26, decodeWord (wordIA op ia) = mk ia ∧ encode (mk ia) = wordIA op ia

/-! ### What an instruction's operands are for (`30_encoding.md` R96, R97) -/

/-- The registers an instruction names as destinations: RA of the computational instructions, loads and port reads; RA
and RD of DIV (`30_encoding.md` R97). -/
def destinations : Instr → List RegNum
  | .or ra _ _ => [ra]
  | .ori ra _ _ => [ra]
  | .and ra _ _ => [ra]
  | .andi ra _ _ => [ra]
  | .xor ra _ _ => [ra]
  | .xori ra _ _ => [ra]
  | .invalid06 _ => []
  | .invalid07 _ => []
  | .add ra _ _ => [ra]
  | .addi ra _ _ => [ra]
  | .sub ra _ _ => [ra]
  | .subi ra _ _ => [ra]
  | .mult ra _ _ => [ra]
  | .multi ra _ _ => [ra]
  | .div ra _ _ rd => [ra, rd]
  | .divu ra _ _ rd => [ra, rd]
  | .divi ra _ _ => [ra]
  | .srav ra _ _ => [ra]
  | .sra ra _ _ => [ra]
  | .srlv ra _ _ => [ra]
  | .srl ra _ _ => [ra]
  | .sllv ra _ _ => [ra]
  | .sll ra _ _ => [ra]
  | .sllvDup ra _ _ => [ra]
  | .sllDup ra _ _ => [ra]
  | .eq ra _ _ => [ra]
  | .eqi ra _ _ => [ra]
  | .eqDup ra _ _ => [ra]
  | .equi ra _ _ => [ra]
  | .lt ra _ _ => [ra]
  | .lti ra _ _ => [ra]
  | .ltu ra _ _ => [ra]
  | .ltui ra _ _ => [ra]
  | .lbu ra _ _ => [ra]
  | .lb ra _ _ => [ra]
  | .lhu ra _ _ => [ra]
  | .lh ra _ _ => [ra]
  | .lw ra _ _ => [ra]
  | .sb _ _ _ => []
  | .sh _ _ _ => []
  | .sw _ _ _ => []
  | .inpbu ra _ => [ra]
  | .inpb ra _ => [ra]
  | .inphu ra _ => [ra]
  | .inph ra _ => [ra]
  | .inp ra _ => [ra]
  | .outpb _ _ => []
  | .outph _ _ => []
  | .outp _ _ => []
  | .jr _ => []
  | .ja _ => []
  | .j _ => []
  | .bz _ _ => []
  | .bzi _ _ => []
  | .bnz _ _ => []
  | .bnzi _ _ => []
  | .nop => []
  | .invalid38 _ => []
  | .invalid39 _ => []
  | .invalid3A _ => []
  | .invalid3B _ => []
  | .invalid3C _ => []
  | .invalid3D _ => []
  | .invalid3E _ => []
  | .invalid3F _ => []

/-- The four instructions that write Carry as a side effect (`41_arithmetic.md` R137). -/
def writesCarry : Instr → Bool
  | .or _ _ _ => false
  | .ori _ _ _ => false
  | .and _ _ _ => false
  | .andi _ _ _ => false
  | .xor _ _ _ => false
  | .xori _ _ _ => false
  | .invalid06 _ => false
  | .invalid07 _ => false
  | .add _ _ _ => true
  | .addi _ _ _ => true
  | .sub _ _ _ => true
  | .subi _ _ _ => true
  | .mult _ _ _ => false
  | .multi _ _ _ => false
  | .div _ _ _ _ => false
  | .divu _ _ _ _ => false
  | .divi _ _ _ => false
  | .srav _ _ _ => false
  | .sra _ _ _ => false
  | .srlv _ _ _ => false
  | .srl _ _ _ => false
  | .sllv _ _ _ => false
  | .sll _ _ _ => false
  | .sllvDup _ _ _ => false
  | .sllDup _ _ _ => false
  | .eq _ _ _ => false
  | .eqi _ _ _ => false
  | .eqDup _ _ _ => false
  | .equi _ _ _ => false
  | .lt _ _ _ => false
  | .lti _ _ _ => false
  | .ltu _ _ _ => false
  | .ltui _ _ _ => false
  | .lbu _ _ _ => false
  | .lb _ _ _ => false
  | .lhu _ _ _ => false
  | .lh _ _ _ => false
  | .lw _ _ _ => false
  | .sb _ _ _ => false
  | .sh _ _ _ => false
  | .sw _ _ _ => false
  | .inpbu _ _ => false
  | .inpb _ _ => false
  | .inphu _ _ => false
  | .inph _ _ => false
  | .inp _ _ => false
  | .outpb _ _ => false
  | .outph _ _ => false
  | .outp _ _ => false
  | .jr _ => false
  | .ja _ => false
  | .j _ => false
  | .bz _ _ => false
  | .bzi _ _ => false
  | .bnz _ _ => false
  | .bnzi _ _ => false
  | .nop => false
  | .invalid38 _ => false
  | .invalid39 _ => false
  | .invalid3A _ => false
  | .invalid3B _ => false
  | .invalid3C _ => false
  | .invalid3D _ => false
  | .invalid3E _ => false
  | .invalid3F _ => false

/-- DIV and DIVU, which write register 30 on a zero divisor (`41_arithmetic.md` R143; log 12). -/
def isDivision : Instr → Bool
  | .or _ _ _ => false
  | .ori _ _ _ => false
  | .and _ _ _ => false
  | .andi _ _ _ => false
  | .xor _ _ _ => false
  | .xori _ _ _ => false
  | .invalid06 _ => false
  | .invalid07 _ => false
  | .add _ _ _ => false
  | .addi _ _ _ => false
  | .sub _ _ _ => false
  | .subi _ _ _ => false
  | .mult _ _ _ => false
  | .multi _ _ _ => false
  | .div _ _ _ _ => true
  | .divu _ _ _ _ => true
  | .divi _ _ _ => false
  | .srav _ _ _ => false
  | .sra _ _ _ => false
  | .srlv _ _ _ => false
  | .srl _ _ _ => false
  | .sllv _ _ _ => false
  | .sll _ _ _ => false
  | .sllvDup _ _ _ => false
  | .sllDup _ _ _ => false
  | .eq _ _ _ => false
  | .eqi _ _ _ => false
  | .eqDup _ _ _ => false
  | .equi _ _ _ => false
  | .lt _ _ _ => false
  | .lti _ _ _ => false
  | .ltu _ _ _ => false
  | .ltui _ _ _ => false
  | .lbu _ _ _ => false
  | .lb _ _ _ => false
  | .lhu _ _ _ => false
  | .lh _ _ _ => false
  | .lw _ _ _ => false
  | .sb _ _ _ => false
  | .sh _ _ _ => false
  | .sw _ _ _ => false
  | .inpbu _ _ => false
  | .inpb _ _ => false
  | .inphu _ _ => false
  | .inph _ _ => false
  | .inp _ _ => false
  | .outpb _ _ => false
  | .outph _ _ => false
  | .outp _ _ => false
  | .jr _ => false
  | .ja _ => false
  | .j _ => false
  | .bz _ _ => false
  | .bzi _ _ => false
  | .bnz _ _ => false
  | .bnzi _ _ => false
  | .nop => false
  | .invalid38 _ => false
  | .invalid39 _ => false
  | .invalid3A _ => false
  | .invalid3B _ => false
  | .invalid3C _ => false
  | .invalid3D _ => false
  | .invalid3E _ => false
  | .invalid3F _ => false

/-- The stores (`44_load_store.md` R176 to R178). -/
def isStore : Instr → Bool
  | .or _ _ _ => false
  | .ori _ _ _ => false
  | .and _ _ _ => false
  | .andi _ _ _ => false
  | .xor _ _ _ => false
  | .xori _ _ _ => false
  | .invalid06 _ => false
  | .invalid07 _ => false
  | .add _ _ _ => false
  | .addi _ _ _ => false
  | .sub _ _ _ => false
  | .subi _ _ _ => false
  | .mult _ _ _ => false
  | .multi _ _ _ => false
  | .div _ _ _ _ => false
  | .divu _ _ _ _ => false
  | .divi _ _ _ => false
  | .srav _ _ _ => false
  | .sra _ _ _ => false
  | .srlv _ _ _ => false
  | .srl _ _ _ => false
  | .sllv _ _ _ => false
  | .sll _ _ _ => false
  | .sllvDup _ _ _ => false
  | .sllDup _ _ _ => false
  | .eq _ _ _ => false
  | .eqi _ _ _ => false
  | .eqDup _ _ _ => false
  | .equi _ _ _ => false
  | .lt _ _ _ => false
  | .lti _ _ _ => false
  | .ltu _ _ _ => false
  | .ltui _ _ _ => false
  | .lbu _ _ _ => false
  | .lb _ _ _ => false
  | .lhu _ _ _ => false
  | .lh _ _ _ => false
  | .lw _ _ _ => false
  | .sb _ _ _ => true
  | .sh _ _ _ => true
  | .sw _ _ _ => true
  | .inpbu _ _ => false
  | .inpb _ _ => false
  | .inphu _ _ => false
  | .inph _ _ => false
  | .inp _ _ => false
  | .outpb _ _ => false
  | .outph _ _ => false
  | .outp _ _ => false
  | .jr _ => false
  | .ja _ => false
  | .j _ => false
  | .bz _ _ => false
  | .bzi _ _ => false
  | .bnz _ _ => false
  | .bnzi _ _ => false
  | .nop => false
  | .invalid38 _ => false
  | .invalid39 _ => false
  | .invalid3A _ => false
  | .invalid3B _ => false
  | .invalid3C _ => false
  | .invalid3D _ => false
  | .invalid3E _ => false
  | .invalid3F _ => false

/-- The loads (`44_load_store.md` R171 to R175). -/
def isLoad : Instr → Bool
  | .or _ _ _ => false
  | .ori _ _ _ => false
  | .and _ _ _ => false
  | .andi _ _ _ => false
  | .xor _ _ _ => false
  | .xori _ _ _ => false
  | .invalid06 _ => false
  | .invalid07 _ => false
  | .add _ _ _ => false
  | .addi _ _ _ => false
  | .sub _ _ _ => false
  | .subi _ _ _ => false
  | .mult _ _ _ => false
  | .multi _ _ _ => false
  | .div _ _ _ _ => false
  | .divu _ _ _ _ => false
  | .divi _ _ _ => false
  | .srav _ _ _ => false
  | .sra _ _ _ => false
  | .srlv _ _ _ => false
  | .srl _ _ _ => false
  | .sllv _ _ _ => false
  | .sll _ _ _ => false
  | .sllvDup _ _ _ => false
  | .sllDup _ _ _ => false
  | .eq _ _ _ => false
  | .eqi _ _ _ => false
  | .eqDup _ _ _ => false
  | .equi _ _ _ => false
  | .lt _ _ _ => false
  | .lti _ _ _ => false
  | .ltu _ _ _ => false
  | .ltui _ _ _ => false
  | .lbu _ _ _ => true
  | .lb _ _ _ => true
  | .lhu _ _ _ => true
  | .lh _ _ _ => true
  | .lw _ _ _ => true
  | .sb _ _ _ => false
  | .sh _ _ _ => false
  | .sw _ _ _ => false
  | .inpbu _ _ => false
  | .inpb _ _ => false
  | .inphu _ _ => false
  | .inph _ _ => false
  | .inp _ _ => false
  | .outpb _ _ => false
  | .outph _ _ => false
  | .outp _ _ => false
  | .jr _ => false
  | .ja _ => false
  | .j _ => false
  | .bz _ _ => false
  | .bzi _ _ => false
  | .bnz _ _ => false
  | .bnzi _ _ => false
  | .nop => false
  | .invalid38 _ => false
  | .invalid39 _ => false
  | .invalid3A _ => false
  | .invalid3B _ => false
  | .invalid3C _ => false
  | .invalid3D _ => false
  | .invalid3E _ => false
  | .invalid3F _ => false

/-- The port instructions (`45_port_io.md` R193). -/
def isPortAccess : Instr → Bool
  | .or _ _ _ => false
  | .ori _ _ _ => false
  | .and _ _ _ => false
  | .andi _ _ _ => false
  | .xor _ _ _ => false
  | .xori _ _ _ => false
  | .invalid06 _ => false
  | .invalid07 _ => false
  | .add _ _ _ => false
  | .addi _ _ _ => false
  | .sub _ _ _ => false
  | .subi _ _ _ => false
  | .mult _ _ _ => false
  | .multi _ _ _ => false
  | .div _ _ _ _ => false
  | .divu _ _ _ _ => false
  | .divi _ _ _ => false
  | .srav _ _ _ => false
  | .sra _ _ _ => false
  | .srlv _ _ _ => false
  | .srl _ _ _ => false
  | .sllv _ _ _ => false
  | .sll _ _ _ => false
  | .sllvDup _ _ _ => false
  | .sllDup _ _ _ => false
  | .eq _ _ _ => false
  | .eqi _ _ _ => false
  | .eqDup _ _ _ => false
  | .equi _ _ _ => false
  | .lt _ _ _ => false
  | .lti _ _ _ => false
  | .ltu _ _ _ => false
  | .ltui _ _ _ => false
  | .lbu _ _ _ => false
  | .lb _ _ _ => false
  | .lhu _ _ _ => false
  | .lh _ _ _ => false
  | .lw _ _ _ => false
  | .sb _ _ _ => false
  | .sh _ _ _ => false
  | .sw _ _ _ => false
  | .inpbu _ _ => true
  | .inpb _ _ => true
  | .inphu _ _ => true
  | .inph _ _ => true
  | .inp _ _ => true
  | .outpb _ _ => true
  | .outph _ _ => true
  | .outp _ _ => true
  | .jr _ => false
  | .ja _ => false
  | .j _ => false
  | .bz _ _ => false
  | .bzi _ _ => false
  | .bnz _ _ => false
  | .bnzi _ _ => false
  | .nop => false
  | .invalid38 _ => false
  | .invalid39 _ => false
  | .invalid3A _ => false
  | .invalid3B _ => false
  | .invalid3C _ => false
  | .invalid3D _ => false
  | .invalid3E _ => false
  | .invalid3F _ => false

/-- The jumps and branches (`46_branch.md` R218). -/
def isJump : Instr → Bool
  | .or _ _ _ => false
  | .ori _ _ _ => false
  | .and _ _ _ => false
  | .andi _ _ _ => false
  | .xor _ _ _ => false
  | .xori _ _ _ => false
  | .invalid06 _ => false
  | .invalid07 _ => false
  | .add _ _ _ => false
  | .addi _ _ _ => false
  | .sub _ _ _ => false
  | .subi _ _ _ => false
  | .mult _ _ _ => false
  | .multi _ _ _ => false
  | .div _ _ _ _ => false
  | .divu _ _ _ _ => false
  | .divi _ _ _ => false
  | .srav _ _ _ => false
  | .sra _ _ _ => false
  | .srlv _ _ _ => false
  | .srl _ _ _ => false
  | .sllv _ _ _ => false
  | .sll _ _ _ => false
  | .sllvDup _ _ _ => false
  | .sllDup _ _ _ => false
  | .eq _ _ _ => false
  | .eqi _ _ _ => false
  | .eqDup _ _ _ => false
  | .equi _ _ _ => false
  | .lt _ _ _ => false
  | .lti _ _ _ => false
  | .ltu _ _ _ => false
  | .ltui _ _ _ => false
  | .lbu _ _ _ => false
  | .lb _ _ _ => false
  | .lhu _ _ _ => false
  | .lh _ _ _ => false
  | .lw _ _ _ => false
  | .sb _ _ _ => false
  | .sh _ _ _ => false
  | .sw _ _ _ => false
  | .inpbu _ _ => false
  | .inpb _ _ => false
  | .inphu _ _ => false
  | .inph _ _ => false
  | .inp _ _ => false
  | .outpb _ _ => false
  | .outph _ _ => false
  | .outp _ _ => false
  | .jr _ => true
  | .ja _ => true
  | .j _ => true
  | .bz _ _ => true
  | .bzi _ _ => true
  | .bnz _ _ => true
  | .bnzi _ _ => true
  | .nop => false
  | .invalid38 _ => false
  | .invalid39 _ => false
  | .invalid3A _ => false
  | .invalid3B _ => false
  | .invalid3C _ => false
  | .invalid3D _ => false
  | .invalid3E _ => false
  | .invalid3F _ => false

/-- The instructions the assembler can emit: neither an invalid opcode, nor NOP, nor a duplicate opcode
(`47_assembler_and_conventions.md` R258). -/
def assemblerEmits : Instr → Bool
  | .or _ _ _ => true
  | .ori _ _ _ => true
  | .and _ _ _ => true
  | .andi _ _ _ => true
  | .xor _ _ _ => true
  | .xori _ _ _ => true
  | .invalid06 _ => false
  | .invalid07 _ => false
  | .add _ _ _ => true
  | .addi _ _ _ => true
  | .sub _ _ _ => true
  | .subi _ _ _ => true
  | .mult _ _ _ => true
  | .multi _ _ _ => true
  | .div _ _ _ _ => true
  | .divu _ _ _ _ => true
  | .divi _ _ _ => true
  | .srav _ _ _ => true
  | .sra _ _ _ => true
  | .srlv _ _ _ => true
  | .srl _ _ _ => true
  | .sllv _ _ _ => true
  | .sll _ _ _ => true
  | .sllvDup _ _ _ => false
  | .sllDup _ _ _ => false
  | .eq _ _ _ => true
  | .eqi _ _ _ => true
  | .eqDup _ _ _ => false
  | .equi _ _ _ => true
  | .lt _ _ _ => true
  | .lti _ _ _ => true
  | .ltu _ _ _ => true
  | .ltui _ _ _ => true
  | .lbu _ _ _ => true
  | .lb _ _ _ => true
  | .lhu _ _ _ => true
  | .lh _ _ _ => true
  | .lw _ _ _ => true
  | .sb _ _ _ => true
  | .sh _ _ _ => true
  | .sw _ _ _ => true
  | .inpbu _ _ => true
  | .inpb _ _ => true
  | .inphu _ _ => true
  | .inph _ _ => true
  | .inp _ _ => true
  | .outpb _ _ => true
  | .outph _ _ => true
  | .outp _ _ => true
  | .jr _ => true
  | .ja _ => true
  | .j _ => true
  | .bz _ _ => true
  | .bzi _ _ => true
  | .bnz _ _ => true
  | .bnzi _ _ => true
  | .nop => false
  | .invalid38 _ => false
  | .invalid39 _ => false
  | .invalid3A _ => false
  | .invalid3B _ => false
  | .invalid3C _ => false
  | .invalid3D _ => false
  | .invalid3E _ => false
  | .invalid3F _ => false

/-! ### Frames -/

/-- Every byte of memory reads the same. -/
def SameMemory (s t : State) : Prop := ∀ a : Word, t.peekByte a = s.peekByte a

/-- The interrupt state is the same. -/
def SameInterrupts (s t : State) : Prop := t.pending = s.pending ∧ t.inService = s.inService ∧ t.irqIn = s.irqIn

/-- No port access has happened. -/
def SamePorts (s t : State) : Prop := t.portLog = s.portLog ∧ t.portIn = s.portIn

/-- Everything but the registers is the same. -/
def SameElse (s t : State) : Prop :=
  SameMemory s t ∧ SameInterrupts s t ∧ SamePorts s t ∧ t.platform = s.platform

/-- `t` is `s` after `x[ra] <- v` and nothing else: the register holds `v` (register 0 takes nothing, `10_state.md`
R21), every other register, the program counter and register 30 among them, is unchanged, and so is everything else. -/
def WritesReg (s t : State) (ra : RegNum) (v : Word) : Prop :=
  (ra ≠ 0#5 → t.reg ra = v) ∧ (∀ r, r ≠ ra → t.reg r = s.reg r) ∧ SameElse s t

/-- `t` is `s` after `x[ra] <- q`, then `x[rd] <- r`, and nothing else; the later write wins (`00_scope.md` R13). -/
def WritesTwo (s t : State) (ra : RegNum) (q : Word) (rd : RegNum) (r : Word) : Prop :=
  (rd ≠ 0#5 → t.reg rd = r) ∧ (ra ≠ 0#5 → ra ≠ rd → t.reg ra = q) ∧
    (∀ x, x ≠ ra → x ≠ rd → t.reg x = s.reg x) ∧ SameElse s t

/-- `t` is `s` after `x[ra] <- v`, then `Carry <- c`, and nothing else. When `ra` is 30 the register keeps bits 31 to 1
of `v`; otherwise bits 31 to 1 of register 30 are unchanged (`10_state.md` R25, `41_arithmetic.md` R131). -/
def WritesSum (s t : State) (ra : RegNum) (v : Word) (c : Bool) : Prop :=
  (ra ≠ 0#5 → ra ≠ 30#5 → t.reg ra = v) ∧ t.carry = c ∧
    t.status.extractLsb' 1 31 = (if ra = 30#5 then v else s.status).extractLsb' 1 31 ∧
    (∀ r, r ≠ ra → r ≠ 30#5 → t.reg r = s.reg r) ∧ SameElse s t

/-- `t` is `s` after `pc <- target` and nothing else. -/
def JumpsTo (s t : State) (target : Word) : Prop :=
  t.pc = target ∧ (∀ r, r ≠ 31#5 → t.reg r = s.reg r) ∧ SameElse s t

/-- `t` is `s` after the bytes `bs` are stored from address `a` upward, modulo 2^32, and nothing else: every byte
outside them, every register, and everything else is unchanged (`20_memory.md` R54). -/
def StoresBytes (s t : State) (a : Word) (bs : List Byte) : Prop :=
  (∀ k, (h : k < bs.length) → t.peekByte (a + BitVec.ofNat 32 k) = bs[k]) ∧
    (∀ b : Word, (∀ k < bs.length, b ≠ a + BitVec.ofNat 32 k) → t.peekByte b = s.peekByte b) ∧
    (∀ r, t.reg r = s.reg r) ∧ SameInterrupts s t ∧ SamePorts s t ∧ t.platform = s.platform

/-- The environment answers the next port read: it has an answer ready, or its script has ended and the answer is free
(`45_port_io.md` R190, decision D26; log 28). -/
def WillAnswer (s : State) : Prop := s.portIn.head? ≠ some .never

/-- `t` is `s` after port `p` answered a read with `v` and `x[ra] <- w`, and nothing else: the environment has seen the
read; the answer is the environment's next one, if it has one ready (`45_port_io.md` R190). -/
def ReadsPort (s t : State) (p : PortNum) (v : Word) (ra : RegNum) (w : Word) : Prop :=
  t.portLog = s.portLog ++ [.read p v] ∧ (∀ u rest, s.portIn = .value u :: rest → v = u ∧ t.portIn = rest) ∧
    (s.portIn = [] → t.portIn = []) ∧ (ra ≠ 0#5 → t.reg ra = w) ∧ (∀ r, r ≠ ra → t.reg r = s.reg r) ∧
    SameMemory s t ∧ SameInterrupts s t ∧ t.platform = s.platform

/-- `t` is `s` after `v` is delivered to port `p`, and nothing else (`45_port_io.md` R191). -/
def WritesPort (s t : State) (p : PortNum) (v : Word) : Prop :=
  t.portLog = s.portLog ++ [.write p v] ∧ t.output = s.output ++ [(p, v)] ∧ t.portIn = s.portIn ∧
    (∀ r, t.reg r = s.reg r) ∧ SameMemory s t ∧ SameInterrupts s t ∧ t.platform = s.platform

/-- Every byte of the `n` bytes from `a` is backed by memory (`20_memory.md` R59). -/
def Populated (s : State) (a : Word) (n : Nat) : Prop := ∀ k < n, s.isPopulated (a + BitVec.ofNat 32 k) = true

/-- The first of the `n` bytes from `a` that no memory backs is `b` (`20_memory.md` R59). -/
def FirstAbsent (s : State) (a : Word) (n : Nat) (b : Word) : Prop :=
  ∃ k < n, b = a + BitVec.ofNat 32 k ∧ s.isPopulated b = false ∧ Populated s a k

/-- The next step services no interrupt: the lock is on, or nothing is pending once the arrivals of the check are in
(`60_exceptions.md` R272). -/
def NoService (s : State) : Prop := s.inService = true ∨ s.receive.pending = []

/-- The next step services interrupt `n`: the lock is off and `n` is the lowest pending number once the arrivals of the
check are in (`60_exceptions.md` R272, R279). -/
def Services (s : State) (n : Nat) : Prop :=
  s.inService = false ∧ n ∈ s.receive.pending ∧ ∀ k ∈ s.receive.pending, n ≤ k

/-- The numbers the environment makes received at the next check (`60_exceptions.md` R272, R280). -/
def arrivals (s : State) : List Nat := s.irqIn.headD []

end Sys2Proof.Machine
end

