-- ==== Sys2Proof/Certificates/Slice0/Obligations.lean ====
section
/-! DEFINITION. The statements for the provers. An instruction executes in the state after its fetch, in which `s.pc`,
register 31, is already the instruction's address `A` plus 4 (`10_state.md` R26, R29; log 7). The frames (`WritesReg`,
`WritesSum`, `StoresBytes` and their like) are in `Sys2Proof.Safety`. A docstring marked MODEL'S CHOICE names the
decision of the spec, or the log entry, that its statement rests on. In a frame, what a write of register 30 or 31 does
is decision D5 or D3 (logs 6, 7), and what register 31 reads as is decision D2 (log 7). -/

open Sys2Proof Sys2Proof.Machine

/-! ### Reset, the invariant -/

/-- `10_state.md` R37: register 0 is 0, the program counter is `RESET_PC` = 0, nothing is pending, the lock is off.
MODEL'S CHOICE (decision D22 of the spec; log 4). -/
def Obligations.ResetLeavesTheStatedValues : Prop :=
  State.reset.reg 0#5 = 0#32 ∧ State.reset.pc = 0#32 ∧ State.reset.pending = [] ∧ State.reset.inService = false ∧
    State.reset.output = []

/-- The state after reset meets the invariant. MODEL'S CHOICE of the invariant's form (logs 2, 23). -/
def Obligations.ResetMeetsTheInvariant : Prop := State.reset.Inv

/-- Every step keeps the invariant: memory stays canonical, and `pending` stays a set of interrupt numbers from 1 to
`N_INT` (`10_state.md` R35, `60_exceptions.md` R271, R272). MODEL'S CHOICE of the invariant's form (logs 2, 23). -/
def Obligations.StepKeepsTheInvariant : Prop := ∀ s t : State, s.Inv → step s = .next t → t.Inv

/-! ### Encoding -/

/-- Decoding an encoded instruction gives it back, from its word and from its four bytes in memory order. -/
def Obligations.DecodingAnEncodedInstructionGivesItBack : Prop :=
  ∀ i : Instr, decodeWord (encode i) = i ∧ decodeBytes (bytesOfWord (encode i)) = .ok i

/-- Encoding a decoded word gives the word with its unused bits cleared, and words that differ in unused bits only
decode alike. MODEL'S CHOICE (`30_encoding.md` R84, decision D7; log 9). -/
def Obligations.UnusedBitsAreIgnoredOnDecodeAndZeroOnEncode : Prop :=
  ∀ w v : Word, encode (decodeWord w) = w &&& usedBits (decodeWord w) ∧
    (v &&& usedBits (decodeWord w) = w &&& usedBits (decodeWord w) → decodeWord v = decodeWord w)

/-- Words written out from the spec's encodings, one of every format, decode to the instructions they stand for. MODEL'S
CHOICE of JR's field (`30_encoding.md` R86, decision D1; log 26), and that opcode 0x37 is a NOP (R92, decision D9;
log 11). -/
def Obligations.WordsOfTheSpecDecodeRight : Prop :=
  decodeWord 0x00611000#32 = .or 3#5 1#5 2#5 ∧ decodeWord 0x2461FFFF#32 = .addi 3#5 1#5 0xFFFF#16 ∧
  decodeWord 0x38611101#32 = .div 3#5 1#5 2#5 4#5 ∧ decodeWord 0x38611100#32 = .divu 3#5 1#5 2#5 4#5 ∧
  decodeWord 0x58611000#32 = .sllvDup 3#5 1#5 2#5 ∧ decodeWord 0x7C61FFFF#32 = .ltui 3#5 1#5 0xFFFF#16 ∧
  decodeWord 0x9061FFFC#32 = .lw 3#5 1#5 0xFFFC#16 ∧ decodeWord 0xBC7F0000#32 = .outp 3#5 31#5 ∧
  decodeWord 0xC01D0000#32 = .jr 29#5 ∧ decodeWord 0xCBFFFFFF#32 = .j 0x3FFFFFF#26 ∧
  decodeWord 0xCC220000#32 = .bz 1#5 2#5 ∧ decodeWord 0xD03FFFFD#32 = .bzi 1#5 0x1FFFFD#21 ∧
  decodeWord 0xDC000000#32 = .nop ∧ decodeWord 0xFFFFFFFF#32 = .invalid3F 0x3FFFFFF#26

/-! ### The step -/

/-- A step that services no interrupt runs the instruction that the four bytes at the program counter decode to, with the
program counter advanced past it (`10_state.md` R29). -/
def Obligations.StepRunsTheDecodedInstruction : Prop :=
  ∀ (s : State) (i : Instr), NoService s → s.pc.extractLsb' 0 2 = 0#2 → Populated s s.pc 4 →
    decodeBytes [s.peekByte s.pc, s.peekByte (s.pc + 1#32), s.peekByte (s.pc + 2#32), s.peekByte (s.pc + 3#32)] = .ok i →
    step s = exec i s.receive.advance ∧ s.receive.advance = { s.receive with pc := s.pc + 4#32 }

/-- The ten opcodes marked invalid stop with `IllegalInstruction`, whatever the other bits hold; the all-ones word is one
of them, the all-zero word is a valid OR. MODEL'S CHOICE (`30_encoding.md` R91, decision D8; log 10). -/
def Obligations.InvalidOpcodesStopWithIllegalInstruction : Prop :=
  ∀ (s : State) (low : BitVec 26),
    (decodeWord (wordIA 0x06 low) = .invalid06 low ∧
      exec (.invalid06 low) s = .fault (.illegalInstruction (wordIA 0x06 low))) ∧
    (decodeWord (wordIA 0x07 low) = .invalid07 low ∧
      exec (.invalid07 low) s = .fault (.illegalInstruction (wordIA 0x07 low))) ∧
    (decodeWord (wordIA 0x38 low) = .invalid38 low ∧
      exec (.invalid38 low) s = .fault (.illegalInstruction (wordIA 0x38 low))) ∧
    (decodeWord (wordIA 0x39 low) = .invalid39 low ∧
      exec (.invalid39 low) s = .fault (.illegalInstruction (wordIA 0x39 low))) ∧
    (decodeWord (wordIA 0x3A low) = .invalid3A low ∧
      exec (.invalid3A low) s = .fault (.illegalInstruction (wordIA 0x3A low))) ∧
    (decodeWord (wordIA 0x3B low) = .invalid3B low ∧
      exec (.invalid3B low) s = .fault (.illegalInstruction (wordIA 0x3B low))) ∧
    (decodeWord (wordIA 0x3C low) = .invalid3C low ∧
      exec (.invalid3C low) s = .fault (.illegalInstruction (wordIA 0x3C low))) ∧
    (decodeWord (wordIA 0x3D low) = .invalid3D low ∧
      exec (.invalid3D low) s = .fault (.illegalInstruction (wordIA 0x3D low))) ∧
    (decodeWord (wordIA 0x3E low) = .invalid3E low ∧
      exec (.invalid3E low) s = .fault (.illegalInstruction (wordIA 0x3E low))) ∧
    (decodeWord (wordIA 0x3F low) = .invalid3F low ∧
      exec (.invalid3F low) s = .fault (.illegalInstruction (wordIA 0x3F low))) ∧
    decodeWord 0xFFFFFFFF#32 = .invalid3F 0x3FFFFFF#26 ∧ decodeWord 0#32 = .or 0#5 0#5 0#5

/-- A fetch from an address that is not a multiple of 4 stops, after the interrupt check and before the fetch. MODEL'S
CHOICE (`20_memory.md` R56, decision D17; log 19). -/
def Obligations.MisalignedFetchStops : Prop :=
  ∀ s u : State, s.checkInterrupts = .next u → u.pc.extractLsb' 0 2 ≠ 0#2 → step s = .fault (.misalignedFetch u.pc)

/-- An access that touches a byte no memory backs stops with the first such byte and gives no value: a fetch, a vector
read, each load (with RA = 0 too) and each store. MODEL'S CHOICE (`20_memory.md` R59, decision D19; `10_state.md` R21,
decision D4; logs 5, 20). -/
def Obligations.AccessToAbsentMemoryStops : Prop :=
  (∀ s u : State, ∀ b : Word, s.checkInterrupts = .next u → u.pc.extractLsb' 0 2 = 0#2 → FirstAbsent u u.pc 4 b →
    step s = .fault (.unpopulatedAccess b)) ∧
  (∀ (s : State) (n : Nat) (b : Word), Services s n → FirstAbsent s (s.vectorAddr n) 4 b →
    step s = .fault (.unpopulatedAccess b)) ∧
  (∀ (s : State) (ra rb : RegNum) (i : Half) (b : Word),
    (FirstAbsent s (s.effAddr rb i) 1 b →
      exec (.lbu ra rb i) s = .fault (.unpopulatedAccess b) ∧ exec (.lb ra rb i) s = .fault (.unpopulatedAccess b) ∧
      exec (.sb ra rb i) s = .fault (.unpopulatedAccess b)) ∧
    (FirstAbsent s (s.effAddr rb i) 2 b →
      exec (.lhu ra rb i) s = .fault (.unpopulatedAccess b) ∧ exec (.lh ra rb i) s = .fault (.unpopulatedAccess b) ∧
      exec (.sh ra rb i) s = .fault (.unpopulatedAccess b)) ∧
    (FirstAbsent s (s.effAddr rb i) 4 b →
      exec (.lw ra rb i) s = .fault (.unpopulatedAccess b) ∧ exec (.sw ra rb i) s = .fault (.unpopulatedAccess b)))

/-! ### Logical and arithmetic instructions -/

/-- OR, AND, XOR (`40_logical.md` R121, R123, R125). MODEL'S CHOICE that unused bits are ignored on decode and zero on
encode (`30_encoding.md` R84, decision D7; log 9). -/
def Obligations.LogicalRegisterInstructions : Prop :=
  Form3R 0x00 "OR" .or ∧ Form3R 0x02 "AND" .and ∧ Form3R 0x04 "XOR" .xor ∧
  ∀ (s : State) (ra rb rc : RegNum),
    (∃ t, exec (.or ra rb rc) s = .next t ∧ WritesReg s t ra (s.reg rb ||| s.reg rc)) ∧
    (∃ t, exec (.and ra rb rc) s = .next t ∧ WritesReg s t ra (s.reg rb &&& s.reg rc)) ∧
    (∃ t, exec (.xor ra rb rc) s = .next t ∧ WritesReg s t ra (s.reg rb ^^^ s.reg rc))

/-- ORI, ANDI, XORI with the immediate zero-extended (`40_logical.md` R122, R124, R126). MODEL'S CHOICE of the
assembler's range -32768 to 65535 (`47_assembler_and_conventions.md` R249, decision D37; log 34). -/
def Obligations.LogicalImmediateInstructions : Prop :=
  Form2RI 0x01 "ORI" .ori ∧ Form2RI 0x03 "ANDI" .andi ∧ Form2RI 0x05 "XORI" .xori ∧
  ∀ (s : State) (ra rb : RegNum) (i : Half),
    (∃ t, exec (.ori ra rb i) s = .next t ∧ WritesReg s t ra (s.reg rb ||| BitVec.ofNat 32 i.toNat)) ∧
    (∃ t, exec (.andi ra rb i) s = .next t ∧ WritesReg s t ra (s.reg rb &&& BitVec.ofNat 32 i.toNat)) ∧
    (∃ t, exec (.xori ra rb i) s = .next t ∧ WritesReg s t ra (s.reg rb ^^^ BitVec.ofNat 32 i.toNat))

/-- ADD and SUB: the low 32 bits, then Carry, the carry out or the borrow (`41_arithmetic.md` R131, R133). MODEL'S CHOICE
that unused bits are ignored (decision D7; log 9), that Carry is written with RA = 0 too (D4; log 5), that it is the carry
out or the borrow (D32; log 29), and of what RA = 30 and bits 31 to 1 of register 30 hold (D5, D6; logs 6, 8). -/
def Obligations.AddAndSubtractRegisters : Prop :=
  Form3R 0x08 "ADD" .add ∧ Form3R 0x0A "SUB" .sub ∧
  ∀ (s : State) (ra rb rc : RegNum),
    (∃ t, exec (.add ra rb rc) s = .next t ∧
      WritesSum s t ra (BitVec.ofNat 32 ((s.reg rb).toNat + (s.reg rc).toNat))
        (decide (2 ^ 32 ≤ (s.reg rb).toNat + (s.reg rc).toNat))) ∧
    (∃ t, exec (.sub ra rb rc) s = .next t ∧
      WritesSum s t ra (BitVec.ofInt 32 ((s.reg rb).toNat - (s.reg rc).toNat : Int))
        (decide ((s.reg rb).toNat < (s.reg rc).toNat)))

/-- ADDI and SUBI: as ADD and SUB with the immediate sign-extended to 32 bits (`41_arithmetic.md` R132, R134). MODEL'S
CHOICE of the assembler's range -32768 to 65535 (decision D37; log 34), that Carry is written with RA = 0 too (D4; log 5),
that it is the carry out or the borrow (D32; log 29), and of what RA = 30 and bits 31 to 1 of register 30 hold (D5, D6;
logs 6, 8). -/
def Obligations.AddAndSubtractImmediate : Prop :=
  Form2RI 0x09 "ADDI" .addi ∧ Form2RI 0x0B "SUBI" .subi ∧
  ∀ (s : State) (ra rb : RegNum) (i : Half) (b : Word), b = BitVec.ofInt 32 i.toInt →
    (∃ t, exec (.addi ra rb i) s = .next t ∧
      WritesSum s t ra (BitVec.ofNat 32 ((s.reg rb).toNat + b.toNat)) (decide (2 ^ 32 ≤ (s.reg rb).toNat + b.toNat))) ∧
    (∃ t, exec (.subi ra rb i) s = .next t ∧
      WritesSum s t ra (BitVec.ofInt 32 ((s.reg rb).toNat - b.toNat : Int)) (decide ((s.reg rb).toNat < b.toNat)))

/-- MULT and MULTI: the low 32 bits of the product; no flag (`41_arithmetic.md` R135, R136). MODEL'S CHOICE that unused
bits are ignored (decision D7; log 9) and of the assembler's range -32768 to 65535 (D37; log 34). -/
def Obligations.MultiplyKeepsTheLowWord : Prop :=
  Form3R 0x0C "MULT" .mult ∧ Form2RI 0x0D "MULTI" .multi ∧
  ∀ (s : State) (ra rb rc : RegNum) (i : Half),
    (∃ t, exec (.mult ra rb rc) s = .next t ∧
      WritesReg s t ra (BitVec.ofNat 32 ((s.reg rb).toNat * (s.reg rc).toNat))) ∧
    (∃ t, exec (.multi ra rb i) s = .next t ∧
      WritesReg s t ra (BitVec.ofInt 32 ((s.reg rb).toInt * i.toInt)))

/-- DIV with a divisor that is not 0, outside the one signed overflow: the quotient rounded toward zero, then the
remainder with the sign of the dividend; DIVU: floor and modulus. Operands are read before any write and the remainder is
written last. The assembler's forms name three registers and leave R_D at 0. MODEL'S CHOICE of the rounding
(`41_arithmetic.md` R142, decision D12; log 14), of the order of writes (`00_scope.md` R13, decision D6; log 8), that bits
5 to 1 are ignored (D7; log 9), that with one of RA and RD 0 the other is still written (D4; log 5), and of R_D in the
assembler's forms (D33; log 34). -/
def Obligations.DivisionByANonzeroRegister : Prop :=
  (∀ (ra rb rc rd : RegNum) (unused : BitVec 5),
    decodeWord (word4RM 0x0E ra rb rc rd unused 1) = .div ra rb rc rd ∧
    decodeWord (word4RM 0x0E ra rb rc rd unused 0) = .divu ra rb rc rd ∧
    encode (.div ra rb rc rd) = word4RM 0x0E ra rb rc rd 0#5 1 ∧
    encode (.divu ra rb rc rd) = word4RM 0x0E ra rb rc rd 0#5 0) ∧
  (∀ ra rb rc : RegNum, Assembles "DIV" [.reg ra, .reg rb, .reg rc] (.div ra rb rc 0#5) ∧
    Assembles "DIVU" [.reg ra, .reg rb, .reg rc] (.divu ra rb rc 0#5)) ∧
  ∀ (s : State) (ra rb rc rd : RegNum), s.reg rc ≠ 0#32 →
    (¬(s.reg rb = 0x80000000#32 ∧ s.reg rc = 0xFFFFFFFF#32) →
      ∃ t, exec (.div ra rb rc rd) s = .next t ∧
        WritesTwo s t ra (BitVec.ofInt 32 ((s.reg rb).toInt.tdiv (s.reg rc).toInt)) rd
          (BitVec.ofInt 32 ((s.reg rb).toInt.tmod (s.reg rc).toInt))) ∧
    (∃ t, exec (.divu ra rb rc rd) s = .next t ∧
      WritesTwo s t ra (BitVec.ofNat 32 ((s.reg rb).toNat / (s.reg rc).toNat)) rd
        (BitVec.ofNat 32 ((s.reg rb).toNat % (s.reg rc).toNat)))

/-- DIV and DIVU by zero go on: neither destination is written, and register 30 alone takes a value that is not stated.
MODEL'S CHOICE (`41_arithmetic.md` R143, decision D10; log 12). -/
def Obligations.DivisionByAZeroRegisterWritesOnlyTheStatusRegister : Prop :=
  ∀ (s : State) (ra rb rc rd : RegNum), s.reg rc = 0#32 →
    (∃ t, exec (.div ra rb rc rd) s = .next t ∧ (∀ r, r ≠ 30#5 → t.reg r = s.reg r) ∧ SameElse s t) ∧
    (∃ t, exec (.divu ra rb rc rd) s = .next t ∧ (∀ r, r ≠ 30#5 → t.reg r = s.reg r) ∧ SameElse s t)

/-- Signed -2^31 / -1 goes on: DIV writes some quotient and some remainder, DIVI some quotient, and nothing else changes.
MODEL'S CHOICE (`41_arithmetic.md` R142, decision D13; log 15). -/
def Obligations.SignedDivisionOverflowWritesOnlyItsDestinations : Prop :=
  ∀ (s : State) (ra rb rc rd : RegNum), s.reg rb = 0x80000000#32 →
    (s.reg rc = 0xFFFFFFFF#32 → ∃ t q r, exec (.div ra rb rc rd) s = .next t ∧ WritesTwo s t ra q rd r) ∧
    (∃ t q, exec (.divi ra rb 0xFFFF#16) s = .next t ∧ WritesReg s t ra q)

/-- DIVI where the manual settles the result: an odd immediate divides signed, rounding toward zero; an even one that is
not 0, with neither operand negative, divides in either reading. No remainder is written. MODEL'S CHOICE of the
rounding (`41_arithmetic.md` R141, R142, decision D12; log 14) and of the assembler's range -32768 to 65535 (D37;
log 34). -/
def Obligations.DivideImmediateWhereSettled : Prop :=
  Form2RI 0x0F "DIVI" .divi ∧
  ∀ (s : State) (ra rb : RegNum) (i : Half),
    (i.toNat % 2 = 1 → ¬(s.reg rb = 0x80000000#32 ∧ i = 0xFFFF#16) →
      ∃ t, exec (.divi ra rb i) s = .next t ∧
        WritesReg s t ra (BitVec.ofInt 32 ((s.reg rb).toInt.tdiv i.toInt))) ∧
    (i.toNat % 2 = 0 → i ≠ 0#16 → 0 ≤ (s.reg rb).toInt → 0 ≤ i.toInt →
      ∃ t, exec (.divi ra rb i) s = .next t ∧
        WritesReg s t ra (BitVec.ofNat 32 ((s.reg rb).toNat / i.toNat)))

/-- DIVI outside the settled cases: an even immediate with a negative operand writes some quotient and nothing else; the
immediate 0 stops with `DivideByZero`, whatever the dividend. MODEL'S CHOICE (`41_arithmetic.md` R141, R143, decisions D11,
D14; logs 13, 16). -/
def Obligations.DivideImmediateWhereOpen : Prop :=
  ∀ (s : State) (ra rb : RegNum) (i : Half),
    (i.toNat % 2 = 0 → i ≠ 0#16 → ((s.reg rb).toInt < 0 ∨ i.toInt < 0) →
      ∃ t q, exec (.divi ra rb i) s = .next t ∧ WritesReg s t ra q) ∧
    exec (.divi ra rb 0#16) s = .fault .divideByZero

/-! ### Shifts and comparisons -/

/-- The right shifts by 0 to 31, as divisions by a power of 2: SRAV and SRA of the signed value rounding down, SRLV and
SRL of the unsigned value. By 32 or more, some value is written and nothing else changes: MODEL'S CHOICE (`42_shift.md`
R150, decision D15; log 17), as are that unused bits are ignored (D7; log 9) and the assembler's range -32768 to 65535
(D37; log 34). -/
def Obligations.RightShifts : Prop :=
  Form3R 0x10 "SRAV" .srav ∧ Form2RI 0x11 "SRA" .sra ∧ Form3R 0x12 "SRLV" .srlv ∧ Form2RI 0x13 "SRL" .srl ∧
  ∀ (s : State) (ra rb rc : RegNum) (i : Half),
    (∃ t v, exec (.srav ra rb rc) s = .next t ∧ WritesReg s t ra v ∧
      ((s.reg rc).toNat ≤ 31 → v = BitVec.ofInt 32 ((s.reg rb).toInt / 2 ^ (s.reg rc).toNat))) ∧
    (∃ t v, exec (.sra ra rb i) s = .next t ∧ WritesReg s t ra v ∧
      (i.toNat ≤ 31 → v = BitVec.ofInt 32 ((s.reg rb).toInt / 2 ^ i.toNat))) ∧
    (∃ t v, exec (.srlv ra rb rc) s = .next t ∧ WritesReg s t ra v ∧
      ((s.reg rc).toNat ≤ 31 → v = BitVec.ofNat 32 ((s.reg rb).toNat / 2 ^ (s.reg rc).toNat))) ∧
    (∃ t v, exec (.srl ra rb i) s = .next t ∧ WritesReg s t ra v ∧
      (i.toNat ≤ 31 → v = BitVec.ofNat 32 ((s.reg rb).toNat / 2 ^ i.toNat)))

/-- The left shifts by 0 to 31, as multiplications by a power of 2, under both opcodes of each. By 32 or more, some value
is written and nothing else changes: MODEL'S CHOICE (`42_shift.md` R150, decision D15; log 17), as are that unused bits
are ignored (D7; log 9) and the assembler's range -32768 to 65535 (D37; log 34). -/
def Obligations.LeftShifts : Prop :=
  Form3R 0x14 "SLLV" .sllv ∧ Form2RI 0x15 "SLL" .sll ∧
  ∀ (s : State) (ra rb rc : RegNum) (i : Half),
    (∃ t v, exec (.sllv ra rb rc) s = .next t ∧ WritesReg s t ra v ∧
      ((s.reg rc).toNat ≤ 31 → v = BitVec.ofNat 32 ((s.reg rb).toNat * 2 ^ (s.reg rc).toNat))) ∧
    (∃ t v, exec (.sll ra rb i) s = .next t ∧ WritesReg s t ra v ∧
      (i.toNat ≤ 31 → v = BitVec.ofNat 32 ((s.reg rb).toNat * 2 ^ i.toNat))) ∧
    (∃ t v, exec (.sllvDup ra rb rc) s = .next t ∧ WritesReg s t ra v ∧
      ((s.reg rc).toNat ≤ 31 → v = BitVec.ofNat 32 ((s.reg rb).toNat * 2 ^ (s.reg rc).toNat))) ∧
    (∃ t v, exec (.sllDup ra rb i) s = .next t ∧ WritesReg s t ra v ∧
      (i.toNat ≤ 31 → v = BitVec.ofNat 32 ((s.reg rb).toNat * 2 ^ i.toNat)))

/-- EQ under both its opcodes, EQI (sign-extended immediate), EQUI (zero-extended) (`43_relational.md` R161 to R163).
MODEL'S CHOICE that unused bits are ignored (decision D7; log 9) and of the assembler's range -32768 to 65535 (D37;
log 34). -/
def Obligations.EqualityTests : Prop :=
  Form3R 0x18 "EQ" .eq ∧ Form2RI 0x19 "EQI" .eqi ∧ Form2RI 0x1B "EQUI" .equi ∧
  (∀ (ra rb rc : RegNum) (unused : BitVec 11), decodeWord (word3R 0x1A ra rb rc unused) = .eqDup ra rb rc) ∧
  ∀ (s : State) (ra rb rc : RegNum) (i : Half),
    (∃ t, exec (.eq ra rb rc) s = .next t ∧
      WritesReg s t ra (if (s.reg rb).toNat = (s.reg rc).toNat then 1#32 else 0#32)) ∧
    (∃ t, exec (.eqDup ra rb rc) s = .next t ∧
      WritesReg s t ra (if (s.reg rb).toNat = (s.reg rc).toNat then 1#32 else 0#32)) ∧
    (∃ t, exec (.eqi ra rb i) s = .next t ∧
      WritesReg s t ra (if (s.reg rb).toInt = i.toInt then 1#32 else 0#32)) ∧
    (∃ t, exec (.equi ra rb i) s = .next t ∧
      WritesReg s t ra (if (s.reg rb).toNat = i.toNat then 1#32 else 0#32))

/-- LT and LTI compare as signed integers, LTU and LTUI as unsigned (`43_relational.md` R164 to R167). MODEL'S CHOICE that
unused bits are ignored (decision D7; log 9) and of the assembler's range -32768 to 65535 (D37; log 34). -/
def Obligations.LessThanTests : Prop :=
  Form3R 0x1C "LT" .lt ∧ Form2RI 0x1D "LTI" .lti ∧ Form3R 0x1E "LTU" .ltu ∧ Form2RI 0x1F "LTUI" .ltui ∧
  ∀ (s : State) (ra rb rc : RegNum) (i : Half),
    (∃ t, exec (.lt ra rb rc) s = .next t ∧
      WritesReg s t ra (if (s.reg rb).toInt < (s.reg rc).toInt then 1#32 else 0#32)) ∧
    (∃ t, exec (.lti ra rb i) s = .next t ∧
      WritesReg s t ra (if (s.reg rb).toInt < i.toInt then 1#32 else 0#32)) ∧
    (∃ t, exec (.ltu ra rb rc) s = .next t ∧
      WritesReg s t ra (if (s.reg rb).toNat < (s.reg rc).toNat then 1#32 else 0#32)) ∧
    (∃ t, exec (.ltui ra rb i) s = .next t ∧
      WritesReg s t ra (if (s.reg rb).toNat < i.toNat then 1#32 else 0#32))

/-- A word with a duplicate opcode executes as the word with the primary opcode, and the assembler emits the primary one,
for SLL here with every immediate from 0 to 65535 of its unsigned field (`30_encoding.md` R90). -/
def Obligations.DuplicateOpcodesExecuteAsThePrimaryOnes : Prop :=
  ∀ (s : State) (ra rb rc : RegNum) (unused : BitVec 11) (i : Half),
    exec (decodeWord (word3R 0x16 ra rb rc unused)) s = exec (decodeWord (word3R 0x14 ra rb rc unused)) s ∧
    exec (decodeWord (word2RI 0x17 ra rb i)) s = exec (decodeWord (word2RI 0x15 ra rb i)) s ∧
    exec (decodeWord (word3R 0x1A ra rb rc unused)) s = exec (decodeWord (word3R 0x18 ra rb rc unused)) s ∧
    Assembles "SLLV" [.reg ra, .reg rb, .reg rc] (decodeWord (word3R 0x14 ra rb rc 0#11)) ∧
    Assembles "SLL" [.reg ra, .reg rb, .imm i.toNat] (decodeWord (word2RI 0x15 ra rb i)) ∧
    Assembles "EQ" [.reg ra, .reg rb, .reg rc] (decodeWord (word3R 0x18 ra rb rc 0#11))

/-! ### Loads and stores -/

/-- The one addressing mode: base plus signed byte offset, modulo 2^32 (`44_load_store.md` R170). -/
def Obligations.EffectiveAddressIsBasePlusSignedOffset : Prop :=
  ∀ (s : State) (rb : RegNum) (i : Half),
    ((s.effAddr rb i).toNat : Int) = ((s.reg rb).toNat + i.toInt) % 2 ^ 32

/-- LBU, LB, LHU, LH, LW from populated memory at any address, aligned or not (`44_load_store.md` R171 to R175). MODEL'S
CHOICE of the misaligned accesses (`20_memory.md` R55, decision D16; log 18), of the wrap of the bytes' addresses (R53,
decision D18; log 7) and of the assembler's offset range -32768 to 65535 (D37; log 34). -/
def Obligations.LoadsFromPopulatedMemory : Prop :=
  FormMem 0x20 "LBU" .lbu ∧ FormMem 0x21 "LB" .lb ∧ FormMem 0x22 "LHU" .lhu ∧ FormMem 0x23 "LH" .lh ∧
  FormMem 0x24 "LW" .lw ∧
  ∀ (s : State) (ra rb : RegNum) (i : Half) (a : Word), a = s.reg rb + BitVec.ofInt 32 i.toInt →
    (Populated s a 1 →
      (∃ t, exec (.lbu ra rb i) s = .next t ∧ WritesReg s t ra (BitVec.ofNat 32 (s.peekByte a).toNat)) ∧
      (∃ t, exec (.lb ra rb i) s = .next t ∧ WritesReg s t ra (BitVec.ofInt 32 (s.peekByte a).toInt))) ∧
    (Populated s a 2 →
      (∃ t, exec (.lhu ra rb i) s = .next t ∧
        WritesReg s t ra (BitVec.ofNat 32 ((s.peekByte a).toNat + 2 ^ 8 * (s.peekByte (a + 1#32)).toNat))) ∧
      (∃ t, exec (.lh ra rb i) s = .next t ∧
        WritesReg s t ra (BitVec.ofInt 32 ((s.peekByte a).toNat + 2 ^ 8 * (s.peekByte (a + 1#32)).toInt)))) ∧
    (Populated s a 4 →
      ∃ t, exec (.lw ra rb i) s = .next t ∧
        WritesReg s t ra (BitVec.ofNat 32 ((s.peekByte a).toNat + 2 ^ 8 * (s.peekByte (a + 1#32)).toNat +
          2 ^ 16 * (s.peekByte (a + 2#32)).toNat + 2 ^ 24 * (s.peekByte (a + 3#32)).toNat)))

/-- SB, SH, SW to populated memory at any address: the bytes of the register, least significant first, and no other byte
and no register changes (`44_load_store.md` R176 to R178). MODEL'S CHOICE of the misaligned accesses (`20_memory.md` R55,
decision D16; log 18), of the wrap of the bytes' addresses (D18; log 7), of the bytes SW stores (`90_conflicts.md` C2;
log 30) and of the assembler's offset range -32768 to 65535 (D37; log 34). -/
def Obligations.StoresToPopulatedMemory : Prop :=
  FormMem 0x25 "SB" .sb ∧ FormMem 0x26 "SH" .sh ∧ FormMem 0x27 "SW" .sw ∧
  ∀ (s : State) (ra rb : RegNum) (i : Half) (a v : Word), a = s.effAddr rb i → v = s.reg ra →
    (Populated s a 1 → ∃ t, exec (.sb ra rb i) s = .next t ∧ StoresBytes s t a [BitVec.ofNat 8 v.toNat]) ∧
    (Populated s a 2 → ∃ t, exec (.sh ra rb i) s = .next t ∧
      StoresBytes s t a [BitVec.ofNat 8 v.toNat, BitVec.ofNat 8 (v.toNat / 2 ^ 8)]) ∧
    (Populated s a 4 → ∃ t, exec (.sw ra rb i) s = .next t ∧
      StoresBytes s t a [BitVec.ofNat 8 v.toNat, BitVec.ofNat 8 (v.toNat / 2 ^ 8), BitVec.ofNat 8 (v.toNat / 2 ^ 16),
        BitVec.ofNat 8 (v.toNat / 2 ^ 24)])

/-- A narrow load sees exactly the bytes a wider store wrote: after SW of `v` at `a`, LBU at `a + k` gives byte `k` of
`v`, LHU at `a` and `a + 2` its half-words, LW `v` itself (`20_memory.md` R58, which derives it from R53 and R54). The
loads use the store's base register, which they may also overwrite. MODEL'S CHOICE that any alignment works (decision D16;
log 18), that the bytes' addresses wrap at the top of memory (D18; log 7), and of the four bytes SW stores
(`90_conflicts.md` C2; log 30). -/
def Obligations.NarrowLoadsSeeAWordStore : Prop :=
  ∀ (s t : State) (ra rb rd : RegNum) (a v : Word), a = s.reg rb → v = s.reg ra → rd ≠ 0#5 →
    exec (.sw ra rb 0#16) s = .next t →
    (∀ k < 4, ∃ u, exec (.lbu rd rb (BitVec.ofNat 16 k)) t = .next u ∧
      u.reg rd = BitVec.ofNat 32 (v.toNat / 2 ^ (8 * k) % 2 ^ 8)) ∧
    (∀ k < 2, ∃ u, exec (.lhu rd rb (BitVec.ofNat 16 (2 * k))) t = .next u ∧
      u.reg rd = BitVec.ofNat 32 (v.toNat / 2 ^ (16 * k) % 2 ^ 16)) ∧
    (∃ u, exec (.lw rd rb 0#16) t = .next u ∧ u.reg rd = v)

/-- A store is seen by the very next fetch: when a step stores a word where the program continues, the next step runs
that word. MODEL'S CHOICE (`20_memory.md` R65, `70_reset_and_hazards.md` R313, decision D21; log 21). -/
def Obligations.AStoreIsSeenByTheNextFetch : Prop :=
  ∀ (s t : State) (ra rb : RegNum) (i : Half), exec (.sw ra rb i) s = .next t → s.effAddr rb i = s.pc →
    s.pc.extractLsb' 0 2 = 0#2 → NoService t → step t = exec (decodeWord (s.reg ra)) t.receive.advance

/-- Memory changes only where a store of this step puts a byte: over a whole step, interrupt service included, a byte
that differs lies in the range of the SB, SH or SW the step executed (`20_memory.md` R54, R57, `60_exceptions.md`
R275). -/
def Obligations.MemoryChangesOnlyWhereAStorePutsAByte : Prop :=
  ∀ (s t : State) (b : Word), step s = .next t → t.peekByte b ≠ s.peekByte b →
    ∃ u w, s.checkInterrupts = .next u ∧ u.fetch = .ok w ∧
      ((∃ ra rb i, decodeWord w = .sb ra rb i ∧ b = u.advance.effAddr rb i) ∨
       (∃ ra rb i, decodeWord w = .sh ra rb i ∧ ∃ k < 2, b = u.advance.effAddr rb i + BitVec.ofNat 32 k) ∨
       (∃ ra rb i, decodeWord w = .sw ra rb i ∧ ∃ k < 4, b = u.advance.effAddr rb i + BitVec.ofNat 32 k))

/-! ### Ports -/

/-- The five port inputs: the port answers a 32-bit value, of which the instruction's width reaches the register; the read
happens even when RA is 0; a read that the environment never answers leaves the core stuck (`45_port_io.md` R190, R194 to
R198). MODEL'S CHOICE that an answer is the script's next one while it has one, and that a stuck core has no further step
(decision D26; log 28), that the read happens with RA = 0 (D4; log 5), and that unused bits are ignored (D7; log 9). -/
def Obligations.PortInputs : Prop :=
  FormPort 0x28 "INPBU" .inpbu ∧ FormPort 0x29 "INPB" .inpb ∧ FormPort 0x2A "INPHU" .inphu ∧
  FormPort 0x2B "INPH" .inph ∧ FormPort 0x2C "INP" .inp ∧
  ∀ (s : State) (ra : RegNum) (p : PortNum),
    (WillAnswer s →
      (∃ t v, exec (.inpbu ra p) s = .next t ∧ ReadsPort s t p v ra (BitVec.ofNat 32 (v.toNat % 2 ^ 8))) ∧
      (∃ t v, exec (.inpb ra p) s = .next t ∧ ReadsPort s t p v ra (BitVec.ofInt 32 (Int.bmod v.toNat (2 ^ 8)))) ∧
      (∃ t v, exec (.inphu ra p) s = .next t ∧ ReadsPort s t p v ra (BitVec.ofNat 32 (v.toNat % 2 ^ 16))) ∧
      (∃ t v, exec (.inph ra p) s = .next t ∧ ReadsPort s t p v ra (BitVec.ofInt 32 (Int.bmod v.toNat (2 ^ 16)))) ∧
      (∃ t v, exec (.inp ra p) s = .next t ∧ ReadsPort s t p v ra v)) ∧
    (¬WillAnswer s → ∀ i ∈ [Instr.inpbu ra p, .inpb ra p, .inphu ra p, .inph ra p, .inp ra p],
      exec i s = .fault (.portReadNeverCompletes p))

/-- The three port outputs deliver the zero-extended byte or half-word, or the word, of the register, and append it to the
output trace (`45_port_io.md` R199 to R201). MODEL'S CHOICE of the trace (R191, decision D26; log 28) and that unused bits
are ignored (D7; log 9). -/
def Obligations.PortOutputs : Prop :=
  FormPort 0x2D "OUTPB" .outpb ∧ FormPort 0x2E "OUTPH" .outph ∧ FormPort 0x2F "OUTP" .outp ∧
  ∀ (s : State) (ra : RegNum) (p : PortNum),
    (∃ t, exec (.outpb ra p) s = .next t ∧ WritesPort s t p (BitVec.ofNat 32 ((s.reg ra).toNat % 2 ^ 8))) ∧
    (∃ t, exec (.outph ra p) s = .next t ∧ WritesPort s t p (BitVec.ofNat 32 ((s.reg ra).toNat % 2 ^ 16))) ∧
    (∃ t, exec (.outp ra p) s = .next t ∧ WritesPort s t p (s.reg ra))

/-- Only port instructions reach a port, over a whole step (`20_memory.md` R66, `45_port_io.md` R192). -/
def Obligations.OnlyPortInstructionsReachAPort : Prop :=
  ∀ (s t u : State) (w : Word), s.checkInterrupts = .next u → u.fetch = .ok w → step s = .next t →
    isPortAccess (decodeWord w) = false → SamePorts s t ∧ t.output = s.output

/-! ### Jumps and branches -/

/-- JR jumps to the register in bits 20 to 16 and changes nothing else, but that a JR whose field is 29 ends the interrupt
lock, whatever value register 29 holds (`46_branch.md` R210, R220). MODEL'S CHOICE of the field (decision D1; logs 25,
26), and that the other low bits are ignored (D7; log 9). -/
def Obligations.JumpRegisterAndTheEndOfTheLock : Prop :=
  (∀ (rb x : RegNum) (unused : Half), decodeWord (word2R 0x30 x rb unused) = .jr rb ∧
    encode (.jr rb) = word2R 0x30 0#5 rb 0#16 ∧ Assembles "JR" [.reg rb] (.jr rb)) ∧
  Assembles "RET" [] (.jr 29#5) ∧
  ∀ (s : State) (rb : RegNum), ∃ t, exec (.jr rb) s = .next t ∧ t.pc = s.reg rb ∧
    t.inService = (if rb = 29#5 then false else s.inService) ∧ t.pending = s.pending ∧ t.irqIn = s.irqIn ∧
    (∀ r, r ≠ 31#5 → t.reg r = s.reg r) ∧ SameMemory s t ∧ SamePorts s t ∧ t.platform = s.platform

/-- JA goes to four times its unsigned field; J to the next instruction's address plus four times its signed field
(`46_branch.md` R211, R212). MODEL'S CHOICE (decision D2 for the base `A + 4`, `90_conflicts.md` C3; logs 7, 27). -/
def Obligations.ImmediateJumps : Prop :=
  FormIA 0x31 .ja ∧ FormIA 0x32 .j ∧
  ∀ (s : State) (ia : BitVec 26),
    (∃ t, exec (.ja ia) s = .next t ∧ JumpsTo s t (BitVec.ofNat 32 (4 * ia.toNat))) ∧
    (∃ t, exec (.j ia) s = .next t ∧ JumpsTo s t (BitVec.ofInt 32 (s.pc.toNat + 4 * ia.toInt)))

/-- BZ and BNZ: to the register's value when the tested register is, or is not, zero; otherwise on to the next instruction
(`46_branch.md` R213, R215). MODEL'S CHOICE that unused bits are ignored (decision D7; log 9). -/
def Obligations.BranchesToARegister : Prop :=
  Form2R 0x33 "BZ" .bz ∧ Form2R 0x35 "BNZ" .bnz ∧
  ∀ (s : State) (ra rb : RegNum),
    (∃ t, exec (.bz ra rb) s = .next t ∧ JumpsTo s t (if (s.reg ra).toNat = 0 then s.reg rb else s.pc)) ∧
    (∃ t, exec (.bnz ra rb) s = .next t ∧ JumpsTo s t (if (s.reg ra).toNat = 0 then s.pc else s.reg rb))

/-- BZI and BNZI: to the next instruction's address plus four times the signed field when the tested register is, or is
not, zero (`46_branch.md` R214, R216). MODEL'S CHOICE of the base `A + 4` (decision D2; log 7). -/
def Obligations.BranchesToARelativeAddress : Prop :=
  Form1RI 0x34 .bzi ∧ Form1RI 0x36 .bnzi ∧
  ∀ (s : State) (ra : RegNum) (ic : BitVec 21),
    (∃ t, exec (.bzi ra ic) s = .next t ∧
      JumpsTo s t (if (s.reg ra).toNat = 0 then BitVec.ofInt 32 (s.pc.toNat + 4 * ic.toInt) else s.pc)) ∧
    (∃ t, exec (.bnzi ra ic) s = .next t ∧
      JumpsTo s t (if (s.reg ra).toNat = 0 then s.pc else BitVec.ofInt 32 (s.pc.toNat + 4 * ic.toInt)))

/-- NOP changes nothing: the program counter stays at the next instruction. MODEL'S CHOICE (`46_branch.md` R217,
`30_encoding.md` R92, decision D9; log 11). -/
def Obligations.NopChangesNothing : Prop :=
  (∀ unused : BitVec 26, decodeWord (wordIA 0x37 unused) = .nop) ∧ encode .nop = 0xDC000000#32 ∧
  ∀ s : State, ∃ t, exec .nop s = .next t ∧ t = s

/-- Every step whose instruction is no jump or branch and does not name register 31 as destination leaves the program
counter at its own address plus 4, modulo 2^32. MODEL'S CHOICE of the wrap (`10_state.md` R28, decision D18; log 7). -/
def Obligations.TheProgramCounterAdvancesByFour : Prop :=
  ∀ (s t u : State) (w : Word), s.checkInterrupts = .next u → u.fetch = .ok w → step s = .next t →
    isJump (decodeWord w) = false → 31#5 ∉ destinations (decodeWord w) →
    t.pc.toNat = (u.pc.toNat + 4) % 2 ^ 32

/-! ### Registers, Carry, faults: over all instructions -/

/-- Register 0 reads 0 and writing it changes nothing (`10_state.md` R21). -/
def Obligations.RegisterZeroIsConstant : Prop := ∀ (s : State) (v : Word), s.reg 0#5 = 0#32 ∧ s.setReg 0#5 v = s

/-- No instruction writes a register implicitly, but the program counter and the status register: any other register
changes only as a named destination (`10_state.md` R22, R23, `30_encoding.md` R97). -/
def Obligations.RegistersChangeOnlyAsNamedDestinations : Prop :=
  ∀ (i : Instr) (s t : State) (r : RegNum), exec i s = .next t → r ∉ destinations i → r ≠ 30#5 → r ≠ 31#5 →
    t.reg r = s.reg r

/-- The status register changes only by an explicit write, by Carry of ADD, ADDI, SUB and SUBI, whose bits 31 to 1 stay,
or by a DIV or DIVU by zero (`10_state.md` R24, R25, `41_arithmetic.md` R137). MODEL'S CHOICE for the division and for bits
31 to 1 (decisions D5, D10; logs 6, 12). -/
def Obligations.WhatChangesTheStatusRegister : Prop :=
  ∀ (i : Instr) (s t : State), exec i s = .next t → 30#5 ∉ destinations i →
    (writesCarry i = false → isDivision i = false → t.status = s.status) ∧
    (writesCarry i = true → t.status.extractLsb' 1 31 = s.status.extractLsb' 1 31)

/-- No step is refused, and a meaning stops only at an invalid opcode, at a load or store of absent memory, at a DIVI with
the immediate 0, or in a port read that the environment never answers (`45_port_io.md` R190, `60_exceptions.md` R270, R285).
MODEL'S CHOICE (decisions D8, D11, D19, D26; logs 10, 13, 20, 28). -/
def Obligations.NothingIsRefusedAndFewThingsFault : Prop :=
  (∀ (s : State) (r : Refusal), step s ≠ .refused r) ∧
  ∀ (i : Instr) (s : State) (f : Fault), exec i s = .fault f →
    (i.isValid = false ∧ f = .illegalInstruction (encode i)) ∨
    ((isLoad i = true ∨ isStore i = true) ∧ ∃ b, f = .unpopulatedAccess b ∧ s.isPopulated b = false) ∨
    ((∃ ra rb, i = .divi ra rb 0#16) ∧ f = .divideByZero) ∨
    (∃ ra p, i ∈ [Instr.inpbu ra p, .inpb ra p, .inphu ra p, .inph ra p, .inp ra p] ∧ ¬WillAnswer s ∧
      f = .portReadNeverCompletes p)

/-- No step changes the implementation's parameters (`10_state.md` R38). -/
def Obligations.TheParametersNeverChange : Prop := ∀ s t : State, step s = .next t → t.platform = s.platform

/-! ### Interrupts -/

/-- At a check the environment adds the numbers from 1 to `N_INT` it sends, each once; other numbers are no interrupts
(`60_exceptions.md` R272). MODEL'S CHOICE (decisions D24, D25; logs 23, 24). -/
def Obligations.ArrivalsAddInterruptNumbers : Prop :=
  ∀ (s : State) (n : Nat), s.Inv →
    (n ∈ s.receive.pending ↔ n ∈ s.pending ∨ (n ∈ arrivals s ∧ 1 ≤ n ∧ n ≤ s.platform.nInt)) ∧
    s.receive.pending.count n ≤ 1

/-- Interrupt entry: with the lock off, the lowest pending number is serviced; register 29 receives the program counter,
the program counter the vector, the lock goes on, the number is no longer pending, nothing else changes, and the
handler's first instruction runs in the same step (`60_exceptions.md` R272 to R275). MODEL'S CHOICE (decision D24; logs
22, 23). -/
def Obligations.InterruptEntry : Prop :=
  ∀ (s : State) (n : Nat) (v : Word), Services s n → Populated s (s.vectorAddr n) 4 →
    v = s.peekWord (s.vectorAddr n) → v ≠ 0#32 →
    ∃ t, s.checkInterrupts = .next t ∧ t.reg 29#5 = s.pc ∧ t.pc = v ∧ t.inService = true ∧
      (∀ k, k ∈ t.pending ↔ k ∈ s.receive.pending ∧ k ≠ n) ∧ (∀ r, r ≠ 29#5 → r ≠ 31#5 → t.reg r = s.reg r) ∧
      SameMemory s t ∧ SamePorts s t ∧ t.platform = s.platform ∧
      (v.extractLsb' 0 2 = 0#2 → Populated s v 4 → step s = exec (decodeWord (s.peekWord v)) t.advance)

/-- The vector of interrupt n is the little-endian word at `IV_0 + 4n` (`60_exceptions.md` R271, `20_memory.md` R68).
MODEL'S CHOICE (decisions D25, D27; log 22). -/
def Obligations.TheVectorWordOfAnInterrupt : Prop :=
  ∀ (s : State) (n : Nat), ((s.vectorAddr n).toNat : Int) = (s.platform.ivBase.toNat + 4 * n) % 2 ^ 32 ∧
    (s.peekWord (s.vectorAddr n)).toNat = (s.peekByte (s.vectorAddr n)).toNat +
      2 ^ 8 * (s.peekByte (s.vectorAddr n + 1#32)).toNat + 2 ^ 16 * (s.peekByte (s.vectorAddr n + 2#32)).toNat +
      2 ^ 24 * (s.peekByte (s.vectorAddr n + 3#32)).toNat

/-- A zero vector word: the interrupt counts as serviced, and nothing else happens; the instruction at the program
counter runs. MODEL'S CHOICE (`60_exceptions.md` R278, decision D23; log 23). -/
def Obligations.AZeroVectorIsServicedWithoutAction : Prop :=
  ∀ (s : State) (n : Nat), Services s n → Populated s (s.vectorAddr n) 4 → s.peekWord (s.vectorAddr n) = 0#32 →
    ∃ t, s.checkInterrupts = .next t ∧ (∀ r, t.reg r = s.reg r) ∧ t.inService = false ∧
      (∀ k, k ∈ t.pending ↔ k ∈ s.receive.pending ∧ k ≠ n) ∧ SameMemory s t ∧ SamePorts s t ∧
      t.platform = s.platform ∧
      (s.pc.extractLsb' 0 2 = 0#2 → Populated s s.pc 4 → step s = exec (decodeWord (s.peekWord s.pc)) t.advance)

/-- While the lock is on no interrupt is serviced, and what is received stays pending; a step ends the lock only if its
instruction is a JR whose field is 29, and register 29 then changes only as a named destination (`60_exceptions.md`
R276, R277). -/
def Obligations.TheLockHoldsUntilJumpRegister29 : Prop :=
  ∀ (s t : State) (w : Word), s.inService = true → s.receive.fetch = .ok w → step s = .next t →
    t.inService = (if decodeWord w = .jr 29#5 then false else true) ∧
    (∀ k ∈ s.pending, k ∈ t.pending) ∧ (29#5 ∉ destinations (decodeWord w) → t.reg 29#5 = s.reg 29#5)

/-- No instruction sets the lock, none but JR with field 29 ends it (`46_branch.md` R220, `60_exceptions.md` R277), and
none reads or changes what is pending (`10_state.md` R35) or what the environment will send, the model's own field
(log 24). -/
def Obligations.InstructionsAndTheInterruptState : Prop :=
  ∀ (i : Instr) (s t : State), exec i s = .next t →
    t.inService = (if i = .jr 29#5 then false else s.inService) ∧ t.pending = s.pending ∧ t.irqIn = s.irqIn

/-! ### The assembler, the loader, the calling convention, the end of a run -/

/-- A label operand makes the jump or branch go to the label: for JA below 256 MiB, for J, BZI and BNZI within the field's
reach. MODEL'S CHOICE of the relative fields (`47_assembler_and_conventions.md` R248, decision D30; log 34), of their base,
the jump's address plus 4 (D2; log 7), and of JA's zero-extended field, on which labels from 128 MiB up depend
(`90_conflicts.md` C3; log 27). -/
def Obligations.LabelOperandsReachTheirLabels : Prop :=
  ∀ (env : LabelEnv) (a t : Nat) (l : Label) (s : State) (ra : RegNum),
    env.lookup l = some t → a % 4 = 0 → t % 4 = 0 → s.pc = BitVec.ofNat 32 (a + 4) →
    (t < 2 ^ 28 → ∃ ia, expand env a "JA".toList [.label l] = .ok [.ja ia] ∧
      exec (.ja ia) s = .next (s.jump (BitVec.ofNat 32 t))) ∧
    (-2 ^ 27 ≤ (t : Int) - (a + 4) → (t : Int) - (a + 4) < 2 ^ 27 →
      ∃ ia, expand env a "J".toList [.label l] = .ok [.j ia] ∧
        exec (.j ia) s = .next (s.jump (BitVec.ofNat 32 t))) ∧
    (-2 ^ 22 ≤ (t : Int) - (a + 4) → (t : Int) - (a + 4) < 2 ^ 22 →
      ∃ ic, expand env a "BZI".toList [.reg ra, .label l] = .ok [.bzi ra ic] ∧
        expand env a "BNZI".toList [.reg ra, .label l] = .ok [.bnzi ra ic] ∧
        (s.reg ra = 0#32 → exec (.bzi ra ic) s = .next (s.jump (BitVec.ofNat 32 t))) ∧
        (s.reg ra ≠ 0#32 → exec (.bnzi ra ic) s = .next (s.jump (BitVec.ofNat 32 t))))

/-- The assembler emits no invalid opcode, no NOP and no duplicate opcode (`47_assembler_and_conventions.md` R258). -/
def Obligations.WhatTheAssemblerEmits : Prop :=
  ∀ (env : LabelEnv) (a : Nat) (name : List Char) (ops : List Operand) (is : List Instr),
    expand env a name ops = .ok is → ∀ i ∈ is, assemblerEmits i = true

/-- `.byte`: as many bytes as operands, in the exact order given, the first at the directive's address, here the one that
`.text` gives (`47_assembler_and_conventions.md` R254); and the rule's own example, printed as a line and read as a
word. -/
def Obligations.ByteDirectivePlacesItsBytesInOrder : Prop :=
  (∀ (a : Nat) (vs : List Int), a % 4 = 0 → a + vs.length ≤ 2 ^ 32 → (∀ v ∈ vs, 0 ≤ v ∧ v ≤ 255) →
    (Item.byte vs).size = vs.length ∧
    ∃ image, assembleLines [{ labels := [], item := .text (some a) }, { labels := [], item := .byte vs }] = .ok image ∧
      ∀ k, (h : k < vs.length) →
        ∃ w, image[(a + k) / 4]? = some w ∧ ((byteOfWord w ((a + k) % 4)).toNat : Int) = vs[k]) ∧
  ∃ image, assemble ".text 64\n.byte 120,86,52,18".toList = .ok image ∧ image[16]? = some 0x12345678#32 ∧
    (State.reset.loadImage image).peekWord 0x40#32 = 0x12345678#32

/-- The manual's label example, from its text to three words. The text is the manual's, which prints no words for it: the
words are the spec's own derivation from R243 and R248 (`47_assembler_and_conventions.md` R257). MODEL'S CHOICE of the
relative fields and their base (decisions D30, D2; logs 34, 7). -/
def Obligations.TheLabelExampleOfTheManual : Prop :=
  assemble "\tJ foo\n\tJ bar\nfoo:\nbar: ADD $r1,$r2,$r3".toList = .ok [0xC8000001#32, 0xC8000000#32, 0x20221800#32]

/-- The loader stores line n at address 4(n - 1), so that the machine's fetch reads it there, and starts at `RESET_PC`
with nothing else changed from reset. MODEL'S CHOICE (`70_reset_and_hazards.md` R312, decision D22; log 31). -/
def Obligations.TheLoaderPlacesTheImage : Prop :=
  ∀ (p : Platform) (irq : List (List Nat)) (ports : List PortAnswer) (image : List Word), 4 * image.length ≤ 2 ^ 32 →
    (∀ n, (h : n < image.length) → (State.start p irq ports image).peekWord (BitVec.ofNat 32 (4 * n)) = image[n]) ∧
    (∀ b : Word, 4 * image.length ≤ b.toNat → (State.start p irq ports image).peekByte b = State.reset.peekByte b) ∧
    (State.start p irq ports image).Inv ∧
    State.start p irq ports image =
      { State.reset with
        platform := p, irqIn := irq, portIn := ports, mem := (State.start p irq ports image).mem }

/-- LA loads the label's address into its register, leaves Carry 0 and everything else unchanged, bits 31 to 1 of register
30 among it; into register 0 only Carry changes (`47_assembler_and_conventions.md` R250, R261). Registers 30 and 31 are no
general registers: there each ADDI's Carry, or a jump, interferes, and the manual gives LA no meaning. MODEL'S CHOICE for
register 0 (decision D4; log 5), of Carry (D32; log 29) and of the unused bits of register 30 (D5; log 6). -/
def Obligations.LoadAddressLoadsTheAddress : Prop :=
  ∀ (s : State) (r : RegNum) (addr : Word), r ≠ 30#5 → r ≠ 31#5 →
    (∀ env a l n, env.lookup l = some n → expand env a "LA".toList [.reg r, .label l] =
      .ok (expandLA r (BitVec.ofNat 32 n))) ∧ (expandLA r addr).length = 7 ∧
    ∃ t, execList (expandLA r addr) s = .next t ∧ (r ≠ 0#5 → t.reg r = addr) ∧ t.carry = false ∧
      t.status.extractLsb' 1 31 = s.status.extractLsb' 1 31 ∧ t.pc = s.pc + 28#32 ∧ (∀ q, q ≠ r → q ≠ 30#5 → q ≠ 31#5 → t.reg q = s.reg q) ∧ SameElse s t

/-- CALL of a label within the J's reach is eleven instructions, of which the first seven build the frame and enter the
subroutine at the label with the address after the J in register 29; the last four, from any state in which register 28
and the frame are as they were left, restore registers 27, 28 and 29 (`47_assembler_and_conventions.md` R248, R251, R262).
MODEL'S CHOICE of the base `A + 4`, of the J and of its field (decisions D2, D30, D31; logs 7, 34), and of frames at any
alignment (D16, D18; logs 7, 18). -/
def Obligations.CallBuildsAndRemovesItsFrame : Prop :=
  ∀ (s t : State) (ia : BitVec 26) (sp : Word), sp = s.reg 27#5 → Populated s sp 4 → Populated s (sp - 4#32) 4 →
    (expandCALL ia).length = 11 ∧
    (∀ (env : LabelEnv) (a n : Nat) (l : Label), env.lookup l = some n → a % 4 = 0 → n % 4 = 0 →
      -2 ^ 27 ≤ (n : Int) - (a + 28) → (n : Int) - (a + 28) < 2 ^ 27 → s.pc = BitVec.ofNat 32 a →
      ∃ field, expand env a "CALL".toList [.label l] = .ok (expandCALL field) ∧
        ∃ u, execList ((expandCALL field).take 7) s = .next u ∧ u.pc = BitVec.ofNat 32 n) ∧
    (∃ u, execList ((expandCALL ia).take 7) s = .next u ∧ u.reg 29#5 = s.pc + 28#32 ∧ u.reg 28#5 = sp ∧
      u.reg 27#5 = sp - 8#32 ∧ u.peekWord sp = s.reg 28#5 ∧ u.peekWord (sp - 4#32) = s.reg 29#5 ∧
      u.pc = BitVec.ofInt 32 (s.pc.toNat + 28 + 4 * ia.toInt) ∧
      (∀ b : Word, (∀ k < 8, b ≠ sp - 4#32 + BitVec.ofNat 32 k) → u.peekByte b = s.peekByte b) ∧
      (∀ r, r ≠ 27#5 → r ≠ 28#5 → r ≠ 29#5 → r ≠ 30#5 → r ≠ 31#5 → u.reg r = s.reg r)) ∧
    (t.platform = s.platform → t.reg 28#5 = sp → t.peekWord sp = s.reg 28#5 → t.peekWord (sp - 4#32) = s.reg 29#5 →
      ∃ u, execList ((expandCALL ia).drop 7) t = .next u ∧ u.reg 27#5 = sp ∧ u.reg 28#5 = s.reg 28#5 ∧
        u.reg 29#5 = s.reg 29#5 ∧ u.pc = t.pc + 16#32 ∧ SameMemory t u ∧
        (∀ r, r ≠ 27#5 → r ≠ 28#5 → r ≠ 29#5 → r ≠ 30#5 → r ≠ 31#5 → u.reg r = t.reg r))

/-- A push stores at the stack pointer, then decrements it by 4; a pop increments it by 4, and the popped element is then
at it; a push and then a pop give the element and the stack pointer back (`47_assembler_and_conventions.md` R232). A pop
into register 0 drops the element, one into 27 leaves it in the stack pointer, one into 31 jumps to it. MODEL'S CHOICE of a
stack at any alignment and of the wrap (decisions D16, D18; logs 18, 7), of the value pushed from register 31 (D2; log 7),
and of pops into registers 0, 30 and 31 (D3, D4, D5; logs 5, 6, 7). -/
def Obligations.PushAndPop : Prop :=
  ∀ (s : State) (r q : RegNum) (sp : Word), sp = s.reg 27#5 → Populated s sp 4 →
    (∃ u, execList (pushSequence r) s = .next u ∧ u.peekWord sp = s.advance.reg r ∧ u.reg 27#5 = sp - 4#32 ∧
      (∀ b : Word, (∀ k < 4, b ≠ sp + BitVec.ofNat 32 k) → u.peekByte b = s.peekByte b) ∧
      (∀ x, x ≠ 27#5 → x ≠ 30#5 → x ≠ 31#5 → u.reg x = s.reg x)) ∧
    (∀ u, execList (pushSequence r) s = .next u →
      ∃ t, execList (popSequence q) u = .next t ∧ (q ≠ 27#5 → t.reg 27#5 = sp) ∧
        (q ≠ 0#5 → t.reg q = s.advance.reg r) ∧ t.peekWord sp = s.advance.reg r ∧ (q ≠ 31#5 → t.pc = u.pc + 8#32) ∧
        (∀ x, x ≠ q → x ≠ 27#5 → x ≠ 30#5 → x ≠ 31#5 → t.reg x = s.reg x))

/-- At the end of a run, a J to itself with no interrupt pending or able to arrive, a step changes nothing but the
environment's script, and the run stays at its end. MODEL'S CHOICE (`70_reset_and_hazards.md` R311, decision D28;
log 35). -/
def Obligations.TheEndOfARunStays : Prop :=
  ∀ s : State, s.atEndOfRun = true →
    step s = .next { s with irqIn := s.irqIn.tail } ∧ (State.atEndOfRun { s with irqIn := s.irqIn.tail }) = true
end

