-- ==== Sys2Proof/Laws/State.lean ====
section
/-! SUPPORT. One lemma per field per update of the state: what an operation leaves alone, and the value of the fields it
sets. No later proof unfolds a record update. -/

namespace Sys2Proof.Machine

/-! ### The parameters at the values the spec decides (`00_scope.md` R8) -/

/-- `REL_BASE` is 4: the program counter an instruction sees is the one the fetch has advanced (decision D2; log 7). -/
@[simp] theorem relPC_eq (s : State) : s.relPC = s.pc := by
  simp only [State.relPC, Config.relBase, BitVec.sub_self, BitVec.add_zero]

/-- `R0_DEST_WHOLE_NOP` is false: a destination register 0 cancels nothing but its own write (decision D4; log 5). -/
@[simp] theorem unlessNop_eq (s : State) (dests : List RegNum) (r : Result) : s.unlessNop dests r = r := rfl

/-- `STATUS_UNUSED_STORED` is true: register 30 stores all of a written value (decision D5; log 6). -/
@[simp] theorem storedStatus_eq (v : Word) : storedStatus v = v := rfl

/-! ### setReg -/

@[simp] theorem setReg_mem (s : State) (r : RegNum) (v : Word) : (s.setReg r v).mem = s.mem := by unfold State.setReg; split_ifs <;> rfl
@[simp] theorem setReg_pending (s : State) (r : RegNum) (v : Word) : (s.setReg r v).pending = s.pending := by unfold State.setReg; split_ifs <;> rfl
@[simp] theorem setReg_inService (s : State) (r : RegNum) (v : Word) : (s.setReg r v).inService = s.inService := by unfold State.setReg; split_ifs <;> rfl
@[simp] theorem setReg_portLog (s : State) (r : RegNum) (v : Word) : (s.setReg r v).portLog = s.portLog := by unfold State.setReg; split_ifs <;> rfl
@[simp] theorem setReg_platform (s : State) (r : RegNum) (v : Word) : (s.setReg r v).platform = s.platform := by unfold State.setReg; split_ifs <;> rfl
@[simp] theorem setReg_irqIn (s : State) (r : RegNum) (v : Word) : (s.setReg r v).irqIn = s.irqIn := by unfold State.setReg; split_ifs <;> rfl
@[simp] theorem setReg_portIn (s : State) (r : RegNum) (v : Word) : (s.setReg r v).portIn = s.portIn := by unfold State.setReg; split_ifs <;> rfl
@[simp] theorem setReg_draws (s : State) (r : RegNum) (v : Word) : (s.setReg r v).draws = s.draws := by unfold State.setReg; split_ifs <;> rfl

/-! ### setCarry -/

@[simp] theorem setCarry_gpr (s : State) (c : Bool) : (s.setCarry c).gpr = s.gpr := rfl
@[simp] theorem setCarry_r29 (s : State) (c : Bool) : (s.setCarry c).r29 = s.r29 := rfl
@[simp] theorem setCarry_pc (s : State) (c : Bool) : (s.setCarry c).pc = s.pc := rfl
@[simp] theorem setCarry_mem (s : State) (c : Bool) : (s.setCarry c).mem = s.mem := rfl
@[simp] theorem setCarry_pending (s : State) (c : Bool) : (s.setCarry c).pending = s.pending := rfl
@[simp] theorem setCarry_inService (s : State) (c : Bool) : (s.setCarry c).inService = s.inService := rfl
@[simp] theorem setCarry_portLog (s : State) (c : Bool) : (s.setCarry c).portLog = s.portLog := rfl
@[simp] theorem setCarry_platform (s : State) (c : Bool) : (s.setCarry c).platform = s.platform := rfl
@[simp] theorem setCarry_irqIn (s : State) (c : Bool) : (s.setCarry c).irqIn = s.irqIn := rfl
@[simp] theorem setCarry_portIn (s : State) (c : Bool) : (s.setCarry c).portIn = s.portIn := rfl
@[simp] theorem setCarry_draws (s : State) (c : Bool) : (s.setCarry c).draws = s.draws := rfl
@[simp] theorem setCarry_status (s : State) (c : Bool) : (s.setCarry c).status = withBit0 s.status c := rfl

/-! ### jump -/

@[simp] theorem jump_gpr (s : State) (t : Word) : (s.jump t).gpr = s.gpr := rfl
@[simp] theorem jump_r29 (s : State) (t : Word) : (s.jump t).r29 = s.r29 := rfl
@[simp] theorem jump_status (s : State) (t : Word) : (s.jump t).status = s.status := rfl
@[simp] theorem jump_mem (s : State) (t : Word) : (s.jump t).mem = s.mem := rfl
@[simp] theorem jump_pending (s : State) (t : Word) : (s.jump t).pending = s.pending := rfl
@[simp] theorem jump_inService (s : State) (t : Word) : (s.jump t).inService = s.inService := rfl
@[simp] theorem jump_portLog (s : State) (t : Word) : (s.jump t).portLog = s.portLog := rfl
@[simp] theorem jump_platform (s : State) (t : Word) : (s.jump t).platform = s.platform := rfl
@[simp] theorem jump_irqIn (s : State) (t : Word) : (s.jump t).irqIn = s.irqIn := rfl
@[simp] theorem jump_portIn (s : State) (t : Word) : (s.jump t).portIn = s.portIn := rfl
@[simp] theorem jump_draws (s : State) (t : Word) : (s.jump t).draws = s.draws := rfl
@[simp] theorem jump_pc (s : State) (t : Word) : (s.jump t).pc = t := rfl

/-! ### pokeByte -/

@[simp] theorem pokeByte_gpr (s : State) (a : Word) (b : Byte) : (s.pokeByte a b).gpr = s.gpr := rfl
@[simp] theorem pokeByte_r29 (s : State) (a : Word) (b : Byte) : (s.pokeByte a b).r29 = s.r29 := rfl
@[simp] theorem pokeByte_status (s : State) (a : Word) (b : Byte) : (s.pokeByte a b).status = s.status := rfl
@[simp] theorem pokeByte_pc (s : State) (a : Word) (b : Byte) : (s.pokeByte a b).pc = s.pc := rfl
@[simp] theorem pokeByte_pending (s : State) (a : Word) (b : Byte) : (s.pokeByte a b).pending = s.pending := rfl
@[simp] theorem pokeByte_inService (s : State) (a : Word) (b : Byte) : (s.pokeByte a b).inService = s.inService := rfl
@[simp] theorem pokeByte_portLog (s : State) (a : Word) (b : Byte) : (s.pokeByte a b).portLog = s.portLog := rfl
@[simp] theorem pokeByte_platform (s : State) (a : Word) (b : Byte) : (s.pokeByte a b).platform = s.platform := rfl
@[simp] theorem pokeByte_irqIn (s : State) (a : Word) (b : Byte) : (s.pokeByte a b).irqIn = s.irqIn := rfl
@[simp] theorem pokeByte_portIn (s : State) (a : Word) (b : Byte) : (s.pokeByte a b).portIn = s.portIn := rfl
@[simp] theorem pokeByte_draws (s : State) (a : Word) (b : Byte) : (s.pokeByte a b).draws = s.draws := rfl
@[simp] theorem pokeByte_mem (s : State) (a : Word) (b : Byte) : (s.pokeByte a b).mem = s.mem.write a.toNat b := rfl

/-! ### pokeHalf -/

@[simp] theorem pokeHalf_gpr (s : State) (a : Word) (h : Half) : (s.pokeHalf a h).gpr = s.gpr := rfl
@[simp] theorem pokeHalf_r29 (s : State) (a : Word) (h : Half) : (s.pokeHalf a h).r29 = s.r29 := rfl
@[simp] theorem pokeHalf_status (s : State) (a : Word) (h : Half) : (s.pokeHalf a h).status = s.status := rfl
@[simp] theorem pokeHalf_pc (s : State) (a : Word) (h : Half) : (s.pokeHalf a h).pc = s.pc := rfl
@[simp] theorem pokeHalf_pending (s : State) (a : Word) (h : Half) : (s.pokeHalf a h).pending = s.pending := rfl
@[simp] theorem pokeHalf_inService (s : State) (a : Word) (h : Half) : (s.pokeHalf a h).inService = s.inService := rfl
@[simp] theorem pokeHalf_portLog (s : State) (a : Word) (h : Half) : (s.pokeHalf a h).portLog = s.portLog := rfl
@[simp] theorem pokeHalf_platform (s : State) (a : Word) (h : Half) : (s.pokeHalf a h).platform = s.platform := rfl
@[simp] theorem pokeHalf_irqIn (s : State) (a : Word) (h : Half) : (s.pokeHalf a h).irqIn = s.irqIn := rfl
@[simp] theorem pokeHalf_portIn (s : State) (a : Word) (h : Half) : (s.pokeHalf a h).portIn = s.portIn := rfl
@[simp] theorem pokeHalf_draws (s : State) (a : Word) (h : Half) : (s.pokeHalf a h).draws = s.draws := rfl

/-! ### pokeWord -/

@[simp] theorem pokeWord_gpr (s : State) (a w : Word) : (s.pokeWord a w).gpr = s.gpr := rfl
@[simp] theorem pokeWord_r29 (s : State) (a w : Word) : (s.pokeWord a w).r29 = s.r29 := rfl
@[simp] theorem pokeWord_status (s : State) (a w : Word) : (s.pokeWord a w).status = s.status := rfl
@[simp] theorem pokeWord_pc (s : State) (a w : Word) : (s.pokeWord a w).pc = s.pc := rfl
@[simp] theorem pokeWord_pending (s : State) (a w : Word) : (s.pokeWord a w).pending = s.pending := rfl
@[simp] theorem pokeWord_inService (s : State) (a w : Word) : (s.pokeWord a w).inService = s.inService := rfl
@[simp] theorem pokeWord_portLog (s : State) (a w : Word) : (s.pokeWord a w).portLog = s.portLog := rfl
@[simp] theorem pokeWord_platform (s : State) (a w : Word) : (s.pokeWord a w).platform = s.platform := rfl
@[simp] theorem pokeWord_irqIn (s : State) (a w : Word) : (s.pokeWord a w).irqIn = s.irqIn := rfl
@[simp] theorem pokeWord_portIn (s : State) (a w : Word) : (s.pokeWord a w).portIn = s.portIn := rfl
@[simp] theorem pokeWord_draws (s : State) (a w : Word) : (s.pokeWord a w).draws = s.draws := rfl

/-! ### draw -/

@[simp] theorem draw_gpr (s : State) : (s.draw).gpr = s.gpr := rfl
@[simp] theorem draw_r29 (s : State) : (s.draw).r29 = s.r29 := rfl
@[simp] theorem draw_status (s : State) : (s.draw).status = s.status := rfl
@[simp] theorem draw_pc (s : State) : (s.draw).pc = s.pc := rfl
@[simp] theorem draw_mem (s : State) : (s.draw).mem = s.mem := rfl
@[simp] theorem draw_pending (s : State) : (s.draw).pending = s.pending := rfl
@[simp] theorem draw_inService (s : State) : (s.draw).inService = s.inService := rfl
@[simp] theorem draw_portLog (s : State) : (s.draw).portLog = s.portLog := rfl
@[simp] theorem draw_platform (s : State) : (s.draw).platform = s.platform := rfl
@[simp] theorem draw_irqIn (s : State) : (s.draw).irqIn = s.irqIn := rfl
@[simp] theorem draw_portIn (s : State) : (s.draw).portIn = s.portIn := rfl
@[simp] theorem draw_draws (s : State) : (s.draw).draws = s.draws + 1 := rfl

/-! ### portWrite -/

@[simp] theorem portWrite_gpr (s : State) (p : PortNum) (v : Word) : (s.portWrite p v).gpr = s.gpr := rfl
@[simp] theorem portWrite_r29 (s : State) (p : PortNum) (v : Word) : (s.portWrite p v).r29 = s.r29 := rfl
@[simp] theorem portWrite_status (s : State) (p : PortNum) (v : Word) : (s.portWrite p v).status = s.status := rfl
@[simp] theorem portWrite_pc (s : State) (p : PortNum) (v : Word) : (s.portWrite p v).pc = s.pc := rfl
@[simp] theorem portWrite_mem (s : State) (p : PortNum) (v : Word) : (s.portWrite p v).mem = s.mem := rfl
@[simp] theorem portWrite_pending (s : State) (p : PortNum) (v : Word) : (s.portWrite p v).pending = s.pending := rfl
@[simp] theorem portWrite_inService (s : State) (p : PortNum) (v : Word) : (s.portWrite p v).inService = s.inService := rfl
@[simp] theorem portWrite_platform (s : State) (p : PortNum) (v : Word) : (s.portWrite p v).platform = s.platform := rfl
@[simp] theorem portWrite_irqIn (s : State) (p : PortNum) (v : Word) : (s.portWrite p v).irqIn = s.irqIn := rfl
@[simp] theorem portWrite_portIn (s : State) (p : PortNum) (v : Word) : (s.portWrite p v).portIn = s.portIn := rfl
@[simp] theorem portWrite_draws (s : State) (p : PortNum) (v : Word) : (s.portWrite p v).draws = s.draws := rfl
@[simp] theorem portWrite_portLog (s : State) (p : PortNum) (v : Word) : (s.portWrite p v).portLog = s.portLog ++ [.write p v] := rfl

/-! ### enterInterrupt -/

@[simp] theorem enterInterrupt_gpr (s : State) (v : Word) : (s.enterInterrupt v).gpr = s.gpr := rfl
@[simp] theorem enterInterrupt_status (s : State) (v : Word) : (s.enterInterrupt v).status = s.status := rfl
@[simp] theorem enterInterrupt_mem (s : State) (v : Word) : (s.enterInterrupt v).mem = s.mem := rfl
@[simp] theorem enterInterrupt_pending (s : State) (v : Word) : (s.enterInterrupt v).pending = s.pending := rfl
@[simp] theorem enterInterrupt_portLog (s : State) (v : Word) : (s.enterInterrupt v).portLog = s.portLog := rfl
@[simp] theorem enterInterrupt_platform (s : State) (v : Word) : (s.enterInterrupt v).platform = s.platform := rfl
@[simp] theorem enterInterrupt_irqIn (s : State) (v : Word) : (s.enterInterrupt v).irqIn = s.irqIn := rfl
@[simp] theorem enterInterrupt_portIn (s : State) (v : Word) : (s.enterInterrupt v).portIn = s.portIn := rfl
@[simp] theorem enterInterrupt_draws (s : State) (v : Word) : (s.enterInterrupt v).draws = s.draws := rfl
@[simp] theorem enterInterrupt_r29 (s : State) (v : Word) : (s.enterInterrupt v).r29 = s.pc := rfl
@[simp] theorem enterInterrupt_pc (s : State) (v : Word) : (s.enterInterrupt v).pc = v := rfl
@[simp] theorem enterInterrupt_inService (s : State) (v : Word) : (s.enterInterrupt v).inService = true := rfl

/-! ### endInterrupt -/

@[simp] theorem endInterrupt_gpr (s : State) : (s.endInterrupt).gpr = s.gpr := rfl
@[simp] theorem endInterrupt_r29 (s : State) : (s.endInterrupt).r29 = s.r29 := rfl
@[simp] theorem endInterrupt_status (s : State) : (s.endInterrupt).status = s.status := rfl
@[simp] theorem endInterrupt_pc (s : State) : (s.endInterrupt).pc = s.pc := rfl
@[simp] theorem endInterrupt_mem (s : State) : (s.endInterrupt).mem = s.mem := rfl
@[simp] theorem endInterrupt_pending (s : State) : (s.endInterrupt).pending = s.pending := rfl
@[simp] theorem endInterrupt_portLog (s : State) : (s.endInterrupt).portLog = s.portLog := rfl
@[simp] theorem endInterrupt_platform (s : State) : (s.endInterrupt).platform = s.platform := rfl
@[simp] theorem endInterrupt_irqIn (s : State) : (s.endInterrupt).irqIn = s.irqIn := rfl
@[simp] theorem endInterrupt_portIn (s : State) : (s.endInterrupt).portIn = s.portIn := rfl
@[simp] theorem endInterrupt_draws (s : State) : (s.endInterrupt).draws = s.draws := rfl
@[simp] theorem endInterrupt_inService (s : State) : (s.endInterrupt).inService = false := rfl

/-! ### advance -/

@[simp] theorem advance_gpr (s : State) : (s.advance).gpr = s.gpr := rfl
@[simp] theorem advance_r29 (s : State) : (s.advance).r29 = s.r29 := rfl
@[simp] theorem advance_status (s : State) : (s.advance).status = s.status := rfl
@[simp] theorem advance_mem (s : State) : (s.advance).mem = s.mem := rfl
@[simp] theorem advance_pending (s : State) : (s.advance).pending = s.pending := rfl
@[simp] theorem advance_inService (s : State) : (s.advance).inService = s.inService := rfl
@[simp] theorem advance_portLog (s : State) : (s.advance).portLog = s.portLog := rfl
@[simp] theorem advance_platform (s : State) : (s.advance).platform = s.platform := rfl
@[simp] theorem advance_irqIn (s : State) : (s.advance).irqIn = s.irqIn := rfl
@[simp] theorem advance_portIn (s : State) : (s.advance).portIn = s.portIn := rfl
@[simp] theorem advance_draws (s : State) : (s.advance).draws = s.draws := rfl
@[simp] theorem advance_pc (s : State) : (s.advance).pc = s.pc + 4#32 := rfl

/-! ### setSum -/

@[simp] theorem setSum_mem (s : State) (r : RegNum) (x : BitVec 33) : (s.setSum r x).mem = s.mem := by simp [State.setSum]
@[simp] theorem setSum_pending (s : State) (r : RegNum) (x : BitVec 33) : (s.setSum r x).pending = s.pending := by simp [State.setSum]
@[simp] theorem setSum_inService (s : State) (r : RegNum) (x : BitVec 33) : (s.setSum r x).inService = s.inService := by simp [State.setSum]
@[simp] theorem setSum_portLog (s : State) (r : RegNum) (x : BitVec 33) : (s.setSum r x).portLog = s.portLog := by simp [State.setSum]
@[simp] theorem setSum_platform (s : State) (r : RegNum) (x : BitVec 33) : (s.setSum r x).platform = s.platform := by simp [State.setSum]
@[simp] theorem setSum_irqIn (s : State) (r : RegNum) (x : BitVec 33) : (s.setSum r x).irqIn = s.irqIn := by simp [State.setSum]
@[simp] theorem setSum_portIn (s : State) (r : RegNum) (x : BitVec 33) : (s.setSum r x).portIn = s.portIn := by simp [State.setSum]
@[simp] theorem setSum_draws (s : State) (r : RegNum) (x : BitVec 33) : (s.setSum r x).draws = s.draws := by simp [State.setSum]

/-! ### setQuotRem -/

@[simp] theorem setQuotRem_mem (s : State) (ra rd : RegNum) (q r : Word) : (s.setQuotRem ra rd q r).mem = s.mem := by simp [State.setQuotRem]
@[simp] theorem setQuotRem_pending (s : State) (ra rd : RegNum) (q r : Word) : (s.setQuotRem ra rd q r).pending = s.pending := by simp [State.setQuotRem]
@[simp] theorem setQuotRem_inService (s : State) (ra rd : RegNum) (q r : Word) : (s.setQuotRem ra rd q r).inService = s.inService := by simp [State.setQuotRem]
@[simp] theorem setQuotRem_portLog (s : State) (ra rd : RegNum) (q r : Word) : (s.setQuotRem ra rd q r).portLog = s.portLog := by simp [State.setQuotRem]
@[simp] theorem setQuotRem_platform (s : State) (ra rd : RegNum) (q r : Word) : (s.setQuotRem ra rd q r).platform = s.platform := by simp [State.setQuotRem]
@[simp] theorem setQuotRem_irqIn (s : State) (ra rd : RegNum) (q r : Word) : (s.setQuotRem ra rd q r).irqIn = s.irqIn := by simp [State.setQuotRem]
@[simp] theorem setQuotRem_portIn (s : State) (ra rd : RegNum) (q r : Word) : (s.setQuotRem ra rd q r).portIn = s.portIn := by simp [State.setQuotRem]
@[simp] theorem setQuotRem_draws (s : State) (ra rd : RegNum) (q r : Word) : (s.setQuotRem ra rd q r).draws = s.draws := by simp [State.setQuotRem]

/-! ### branchIf -/

@[simp] theorem branchIf_gpr (s : State) (c : Bool) (t : Word) : (s.branchIf c t).gpr = s.gpr := by unfold State.branchIf; split_ifs <;> rfl
@[simp] theorem branchIf_r29 (s : State) (c : Bool) (t : Word) : (s.branchIf c t).r29 = s.r29 := by unfold State.branchIf; split_ifs <;> rfl
@[simp] theorem branchIf_status (s : State) (c : Bool) (t : Word) : (s.branchIf c t).status = s.status := by unfold State.branchIf; split_ifs <;> rfl
@[simp] theorem branchIf_mem (s : State) (c : Bool) (t : Word) : (s.branchIf c t).mem = s.mem := by unfold State.branchIf; split_ifs <;> rfl
@[simp] theorem branchIf_pending (s : State) (c : Bool) (t : Word) : (s.branchIf c t).pending = s.pending := by unfold State.branchIf; split_ifs <;> rfl
@[simp] theorem branchIf_inService (s : State) (c : Bool) (t : Word) : (s.branchIf c t).inService = s.inService := by unfold State.branchIf; split_ifs <;> rfl
@[simp] theorem branchIf_portLog (s : State) (c : Bool) (t : Word) : (s.branchIf c t).portLog = s.portLog := by unfold State.branchIf; split_ifs <;> rfl
@[simp] theorem branchIf_platform (s : State) (c : Bool) (t : Word) : (s.branchIf c t).platform = s.platform := by unfold State.branchIf; split_ifs <;> rfl
@[simp] theorem branchIf_irqIn (s : State) (c : Bool) (t : Word) : (s.branchIf c t).irqIn = s.irqIn := by unfold State.branchIf; split_ifs <;> rfl
@[simp] theorem branchIf_portIn (s : State) (c : Bool) (t : Word) : (s.branchIf c t).portIn = s.portIn := by unfold State.branchIf; split_ifs <;> rfl
@[simp] theorem branchIf_draws (s : State) (c : Bool) (t : Word) : (s.branchIf c t).draws = s.draws := by unfold State.branchIf; split_ifs <;> rfl
theorem branchIf_pc (s : State) (c : Bool) (t : Word) : (s.branchIf c t).pc = if c then t else s.pc := by
  unfold State.branchIf; split_ifs <;> rfl

/-! ### divByZero -/

@[simp] theorem divByZero_gpr (s : State) (a : Word) : (s.divByZero a).gpr = s.gpr := rfl
@[simp] theorem divByZero_r29 (s : State) (a : Word) : (s.divByZero a).r29 = s.r29 := rfl
@[simp] theorem divByZero_pc (s : State) (a : Word) : (s.divByZero a).pc = s.pc := rfl
@[simp] theorem divByZero_mem (s : State) (a : Word) : (s.divByZero a).mem = s.mem := rfl
@[simp] theorem divByZero_pending (s : State) (a : Word) : (s.divByZero a).pending = s.pending := rfl
@[simp] theorem divByZero_inService (s : State) (a : Word) : (s.divByZero a).inService = s.inService := rfl
@[simp] theorem divByZero_portLog (s : State) (a : Word) : (s.divByZero a).portLog = s.portLog := rfl
@[simp] theorem divByZero_platform (s : State) (a : Word) : (s.divByZero a).platform = s.platform := rfl
@[simp] theorem divByZero_irqIn (s : State) (a : Word) : (s.divByZero a).irqIn = s.irqIn := rfl
@[simp] theorem divByZero_portIn (s : State) (a : Word) : (s.divByZero a).portIn = s.portIn := rfl

end Sys2Proof.Machine
end

