-- ==== Sys2Proof/Laws/Memory.lean ====
section
/-! SUPPORT. The laws of memory: a read after a write, in every memory whatever its form, and the canonical form, which
every write keeps. -/

namespace Sys2Proof.Machine

theorem Memory.read_erase (m : Memory) (a b : Nat) :
    (m.erase a).read b = if b = a then Memory.unlisted else m.read b := by
  induction m with
  | nil => simp [Memory.erase, Memory.read]
  | cons c m ih =>
    obtain ⟨k, v⟩ := c
    simp only [Memory.erase]
    split_ifs with h1 h2 h2
    · simpa [h2] using ih
    · rw [ih, if_neg h2, Memory.read, if_neg (by omega)]
    · rw [Memory.read, if_neg (by omega), ih, if_pos h2]
    · simp only [Memory.read, ih, if_neg h2]

theorem Memory.read_insert (m : Memory) (a b : Nat) (v : Byte) (h : m.read a = Memory.unlisted ∨ b ≠ a)
    (hn : ∀ c ∈ m, c.1 ≠ a) : (m.insert a v).read b = if b = a then v else m.read b := by
  induction m with
  | nil => simp only [Memory.insert, Memory.read]; split_ifs <;> first | rfl | omega
  | cons c m ih =>
    obtain ⟨k, w⟩ := c
    have hk : k ≠ a := hn (k, w) (by simp)
    simp only [Memory.insert]
    split_ifs with h1 h2 h2
    · simp [Memory.read, h2]
    · rw [Memory.read, if_neg (by omega)]
    · rw [Memory.read, if_neg (by omega), ih ?_ fun c hc => hn c (by simp [hc]), if_pos h2]
      refine h.imp (fun h => ?_) id
      rwa [Memory.read, if_neg hk] at h
    · simp only [Memory.read]
      split_ifs
      · rfl
      · rw [ih (.inr h2) fun c hc => hn c (by simp [hc]), if_neg h2]

theorem Memory.fst_ne_of_mem_erase (m : Memory) (a : Nat) : ∀ c ∈ m.erase a, c.1 ≠ a := by
  induction m with
  | nil => simp [Memory.erase]
  | cons c m ih =>
    obtain ⟨k, v⟩ := c
    simp only [Memory.erase]
    split_ifs with h
    · exact ih
    · intro c hc
      rcases List.mem_cons.mp hc with rfl | hc
      · exact h
      · exact ih c hc

/-- A read after a write gives the value written at the address and the old byte everywhere else. -/
theorem Memory.read_write (m : Memory) (a b : Nat) (v : Byte) :
    (m.write a v).read b = if b = a then v else m.read b := by
  unfold Memory.write
  split_ifs with hv hb hb
  · rw [Memory.read_erase, if_pos hb, hv]
  · rw [Memory.read_erase, if_neg hb]
  · rw [Memory.read_insert _ _ _ _ (.inl (by simp [Memory.read_erase])) (Memory.fst_ne_of_mem_erase m a), if_pos hb]
  · rw [Memory.read_insert _ _ _ _ (.inr hb) (Memory.fst_ne_of_mem_erase m a), if_neg hb, Memory.read_erase, if_neg hb]

@[simp] theorem Memory.read_nil (a : Nat) : Memory.read [] a = Memory.unlisted := rfl

/-! ### The canonical form -/

theorem Memory.wfFrom_weaken (m : Memory) (lo lo' : Option Nat) (h : Memory.wfFrom lo m = true)
    (hl : ∀ l', lo' = some l' → ∃ l, lo = some l ∧ l' ≤ l) : Memory.wfFrom lo' m = true := by
  cases m with
  | nil => rfl
  | cons c m =>
    obtain ⟨k, v⟩ := c
    cases lo' with
    | none => simp only [Memory.wfFrom, Bool.and_eq_true] at h ⊢; exact ⟨⟨⟨trivial, h.1.1.2⟩, h.1.2⟩, h.2⟩
    | some l' =>
      obtain ⟨l, rfl, hle⟩ := hl l' rfl
      simp only [Memory.wfFrom, Bool.and_eq_true, decide_eq_true_eq] at h ⊢
      exact ⟨⟨⟨by omega, h.1.1.2⟩, h.1.2⟩, h.2⟩

theorem Memory.wfFrom_erase (m : Memory) (a : Nat) (lo : Option Nat) (h : Memory.wfFrom lo m = true) :
    Memory.wfFrom lo (m.erase a) = true := by
  induction m generalizing lo with
  | nil => exact h
  | cons c m ih =>
    obtain ⟨k, v⟩ := c
    have h' := h
    simp only [Memory.wfFrom, Bool.and_eq_true, decide_eq_true_eq] at h
    simp only [Memory.erase]
    split_ifs with hk
    · refine ih lo (Memory.wfFrom_weaken m (some k) lo h.2 fun l' hl => ⟨k, rfl, ?_⟩)
      subst hl
      have := h.1.1.1
      simp only [decide_eq_true_eq] at this
      omega
    · simp only [Memory.wfFrom, Bool.and_eq_true, decide_eq_true_eq]
      exact ⟨h.1, ih (some k) h.2⟩

theorem Memory.wfFrom_insert (m : Memory) (a : Nat) (v : Byte) (lo : Option Nat) (h : Memory.wfFrom lo m = true)
    (ha : a < 4294967296) (hv : v ≠ Memory.unlisted) (hn : ∀ c ∈ m, c.1 ≠ a) (hlo : ∀ l, lo = some l → l < a) :
    Memory.wfFrom lo (m.insert a v) = true := by
  induction m generalizing lo with
  | nil =>
    cases lo with
    | none => simp [Memory.insert, Memory.wfFrom, ha, hv]
    | some l => simp [Memory.insert, Memory.wfFrom, ha, hv, hlo l rfl]
  | cons c m ih =>
    obtain ⟨k, w⟩ := c
    have hk : k ≠ a := hn (k, w) (by simp)
    simp only [Memory.wfFrom, Bool.and_eq_true, decide_eq_true_eq] at h
    simp only [Memory.insert]
    split_ifs with h1
    · simp only [Memory.wfFrom, Bool.and_eq_true, decide_eq_true_eq]
      refine ⟨⟨⟨?_, ha⟩, hv⟩, ⟨⟨h1, h.1.1.2⟩, h.1.2⟩, h.2⟩
      cases lo with
      | none => rfl
      | some l => simpa using hlo l rfl
    · simp only [Memory.wfFrom, Bool.and_eq_true, decide_eq_true_eq]
      refine ⟨h.1, ih (some k) h.2 (fun c hc => hn c (by simp [hc])) fun l hl => ?_⟩
      cases hl
      omega

/-- Every write inside the address space keeps the canonical form. -/
theorem Memory.wf_write (m : Memory) (a : Nat) (v : Byte) (h : m.wf = true) (ha : a < 4294967296) :
    (m.write a v).wf = true := by
  unfold Memory.write Memory.wf at *
  split_ifs with hv
  · exact Memory.wfFrom_erase m a none h
  · exact Memory.wfFrom_insert _ a v none (Memory.wfFrom_erase m a none h) ha hv (Memory.fst_ne_of_mem_erase m a)
      (by simp)

theorem reset_mem_wf : State.reset.mem.wf = true := rfl

/-! ### Bytes, half-words and words of the state -/

theorem peekByte_pokeByte (s : State) (a b : Word) (v : Byte) :
    (s.pokeByte a v).peekByte b = if b = a then v else s.peekByte b := by
  simp only [State.peekByte, pokeByte_mem, Memory.read_write, BitVec.toNat_inj]

theorem pokeByte_wf (s : State) (a : Word) (v : Byte) (h : s.mem.wf = true) : (s.pokeByte a v).mem.wf = true :=
  Memory.wf_write s.mem a.toNat v h a.isLt

theorem pokeHalf_wf (s : State) (a : Word) (v : Half) (h : s.mem.wf = true) : (s.pokeHalf a v).mem.wf = true :=
  pokeByte_wf _ _ _ (pokeByte_wf _ _ _ h)

theorem pokeWord_wf (s : State) (a v : Word) (h : s.mem.wf = true) : (s.pokeWord a v).mem.wf = true :=
  pokeByte_wf _ _ _ (pokeByte_wf _ _ _ (pokeByte_wf _ _ _ (pokeByte_wf _ _ _ h)))

theorem peekByte_pokeHalf (s : State) (a b : Word) (v : Half) :
    (s.pokeHalf a v).peekByte b =
      if b = a + 1#32 then v.extractLsb' 8 8 else if b = a then v.extractLsb' 0 8 else s.peekByte b := by
  simp only [State.pokeHalf, peekByte_pokeByte]

theorem peekByte_pokeWord (s : State) (a b v : Word) :
    (s.pokeWord a v).peekByte b =
      if b = a + 3#32 then byteOfWord v 3 else if b = a + 2#32 then byteOfWord v 2
      else if b = a + 1#32 then byteOfWord v 1 else if b = a then byteOfWord v 0 else s.peekByte b := by
  simp only [State.pokeWord, peekByte_pokeByte]

end Sys2Proof.Machine
end

