-- ==== Sys2Proof/Laws/Registers.lean ====
section
/-! SUPPORT. The laws of the register file: what a read gives after a write (`10_state.md` R20 to R27). -/

namespace Sys2Proof.Machine

@[simp] theorem reg_zero (s : State) : s.reg 0#5 = 0#32 := rfl
@[simp] theorem reg_29 (s : State) : s.reg 29#5 = s.r29 := rfl
@[simp] theorem reg_30 (s : State) : s.reg 30#5 = s.status := rfl
@[simp] theorem reg_31 (s : State) : s.reg 31#5 = s.pc := relPC_eq s

/-- A register read depends on the register file, register 29, register 30 and the program counter alone. -/
theorem reg_congr (s t : State) (r : RegNum) (hg : t.gpr = s.gpr) (h29 : t.r29 = s.r29) (h30 : t.status = s.status)
    (hp : t.pc = s.pc) : t.reg r = s.reg r := by
  simp only [State.reg, relPC_eq, hg, h29, h30, hp]

@[simp] theorem reg_pokeByte (s : State) (a : Word) (b : Byte) (r : RegNum) : (s.pokeByte a b).reg r = s.reg r := rfl
@[simp] theorem reg_pokeHalf (s : State) (a : Word) (h : Half) (r : RegNum) : (s.pokeHalf a h).reg r = s.reg r := rfl
@[simp] theorem reg_pokeWord (s : State) (a w : Word) (r : RegNum) : (s.pokeWord a w).reg r = s.reg r := rfl
@[simp] theorem reg_draw (s : State) (r : RegNum) : s.draw.reg r = s.reg r := rfl
@[simp] theorem reg_portWrite (s : State) (p : PortNum) (v : Word) (r : RegNum) :
    (s.portWrite p v).reg r = s.reg r := rfl
@[simp] theorem reg_endInterrupt (s : State) (r : RegNum) : s.endInterrupt.reg r = s.reg r := rfl

@[simp] theorem setReg_zero (s : State) (v : Word) : s.setReg 0#5 v = s := rfl
@[simp] theorem setReg_29 (s : State) (v : Word) : s.setReg 29#5 v = { s with r29 := v } := rfl
@[simp] theorem setReg_30 (s : State) (v : Word) : s.setReg 30#5 v = { s with status := v } := rfl
@[simp] theorem setReg_31 (s : State) (v : Word) : s.setReg 31#5 v = s.jump v := rfl

/-- A general register's place in the file is inside it. -/
theorem regIndex_lt (r : RegNum) (h29 : r ≠ 29#5) (h30 : r ≠ 30#5) (h31 : r ≠ 31#5) :
    r.toNat - 1 < 28 := by
  bv_omega

theorem reg_setReg_same (s : State) (r : RegNum) (v : Word) (h : r ≠ 0#5) : (s.setReg r v).reg r = v := by
  by_cases h29 : r = 29#5
  · subst h29; rfl
  by_cases h30 : r = 30#5
  · subst h30; rfl
  by_cases h31 : r = 31#5
  · subst h31; exact reg_31 _
  simp only [State.setReg, State.reg, if_neg h, if_neg h29, if_neg h30, if_neg h31]
  simp [regIndex_lt r h29 h30 h31]

theorem reg_setReg_ne (s : State) (r q : RegNum) (v : Word) (h : q ≠ r) : (s.setReg r v).reg q = s.reg q := by
  unfold State.setReg
  split_ifs with h0 h29 h30 h31
  · rfl
  · subst h29; simp only [State.reg, relPC_eq, if_neg h]
  · subst h30; simp only [State.reg, relPC_eq, if_neg h]
  · subst h31; simp only [State.reg, relPC_eq, if_neg h]
  · simp only [State.reg, relPC_eq]
    split_ifs with g0 g29 g30 g31
    · rfl
    · rfl
    · rfl
    · rfl
    · rw [Vector.getElem?_setIfInBounds, if_neg]
      bv_omega

/-- Writing another register than 31 leaves the program counter. -/
theorem setReg_pc (s : State) (r : RegNum) (v : Word) (h : r ≠ 31#5) : (s.setReg r v).pc = s.pc := by
  rw [← reg_31, ← reg_31, reg_setReg_ne s r _ v h.symm]

/-- Writing another register than 30 leaves the status register. -/
theorem setReg_status (s : State) (r : RegNum) (v : Word) (h : r ≠ 30#5) : (s.setReg r v).status = s.status := by
  rw [← reg_30, ← reg_30, reg_setReg_ne s r _ v h.symm]

/-- What a register reads after a register write: the value written, unless the register is another one or register
0. -/
theorem reg_setReg (s : State) (r q : RegNum) (v : Word) :
    (s.setReg r v).reg q = if q = r ∧ r ≠ 0#5 then v else s.reg q := by
  split_ifs with h
  · obtain ⟨rfl, h0⟩ := h; exact reg_setReg_same s q v h0
  · by_cases hq : q = r
    · have h0 : r = 0#5 := by by_contra h0; exact h ⟨hq, h0⟩
      subst h0; rfl
    · exact reg_setReg_ne s r q v hq

theorem reg_setCarry (s : State) (c : Bool) (q : RegNum) :
    (s.setCarry c).reg q = if q = 30#5 then withBit0 s.status c else s.reg q := by
  simp only [State.reg, relPC_eq]
  split_ifs with h0 h29 h30 h31 <;> simp_all

theorem reg_jump (s : State) (t : Word) (q : RegNum) : (s.jump t).reg q = if q = 31#5 then t else s.reg q := by
  simp only [State.reg, relPC_eq]
  split_ifs with h0 h29 h30 h31 <;> simp_all

theorem reg_branchIf (s : State) (c : Bool) (t : Word) (q : RegNum) :
    (s.branchIf c t).reg q = if q = 31#5 ∧ c = true then t else s.reg q := by
  cases c
  · simp [State.branchIf]
  · simp [State.branchIf, reg_jump]

theorem reg_enterInterrupt (s : State) (v : Word) (q : RegNum) :
    (s.enterInterrupt v).reg q = if q = 29#5 then s.pc else if q = 31#5 then v else s.reg q := by
  simp only [State.reg, relPC_eq, State.enterInterrupt]
  split_ifs with h0 h29 h30 h31 <;> simp_all

/-! ### Bits of the status register and of the 33-bit results -/

@[simp] theorem withBit0_bit0 (v : Word) (c : Bool) : (withBit0 v c).getLsbD 0 = c := by
  unfold withBit0
  rw [BitVec.getLsbD_append]
  cases c <;> rfl

theorem withBit0_upper (v : Word) (c : Bool) : (withBit0 v c).extractLsb' 1 31 = v.extractLsb' 1 31 := by
  unfold withBit0
  ext i hi
  rw [BitVec.getElem_extractLsb', BitVec.getLsbD_append, if_neg (by omega)]
  simp [hi]

@[simp] theorem setCarry_carry (s : State) (c : Bool) : (s.setCarry c).carry = c := withBit0_bit0 s.status c

/-- Carry is the only bit of register 30 that `setCarry` can change (`10_state.md` R25). -/
theorem setCarry_upper (s : State) (c : Bool) :
    (s.setCarry c).status.extractLsb' 1 31 = s.status.extractLsb' 1 31 := withBit0_upper s.status c

theorem sum33_low (a b : Word) : low32 (sum33 a b) = a + b := by
  unfold low32 sum33
  apply BitVec.eq_of_toNat_eq
  simp [BitVec.toNat_add]

theorem diff33_low (a b : Word) : low32 (diff33 a b) = a - b := by
  unfold low32 diff33
  apply BitVec.eq_of_toNat_eq
  simp only [BitVec.toNat_setWidth, BitVec.toNat_sub]
  omega

/-- Carry of a sum: exactly when the unsigned sum reaches 2^32 (`41_arithmetic.md` R137). -/
theorem sum33_bit32 (a b : Word) : bit32 (sum33 a b) = decide (4294967296 ≤ a.toNat + b.toNat) := by
  unfold bit32 sum33
  have ha := a.isLt
  have hb := b.isLt
  rw [BitVec.getLsbD, Nat.testBit_eq_decide_div_mod_eq]
  simp only [BitVec.toNat_add, BitVec.toNat_setWidth]
  congr 1
  apply propext
  omega

/-- Carry of a difference: exactly when the minuend is below the subtrahend as unsigned numbers (`41_arithmetic.md`
R137). -/
theorem diff33_bit32 (a b : Word) : bit32 (diff33 a b) = decide (a.toNat < b.toNat) := by
  unfold bit32 diff33
  have ha := a.isLt
  have hb := b.isLt
  rw [BitVec.getLsbD, Nat.testBit_eq_decide_div_mod_eq]
  simp only [BitVec.toNat_sub, BitVec.toNat_setWidth]
  congr 1
  apply propext
  omega

end Sys2Proof.Machine
end

