-- ==== Sys2Proof/Laws/Ops.lean ====
section
/-! SUPPORT. For each shared operation, one lemma that says once what it can do. -/

namespace Sys2Proof.Machine

/-! ### Accesses to memory -/

theorem access_ok (s : State) (a : Word) (n : Nat) (r : Result) (h : s.firstAbsent a n = none) :
    s.access a n r = r := by
  simp only [State.access, h]

theorem access_fault (s : State) (a b : Word) (n : Nat) (r : Result) (h : s.firstAbsent a n = some b) :
    s.access a n r = .fault (.unpopulatedAccess b) := by
  simp only [State.access, h]

/-- An access that answers a next state found every byte populated. -/
theorem access_next (s t : State) (a : Word) (n : Nat) (r : Result) (h : s.access a n r = .next t) :
    s.firstAbsent a n = none ∧ r = .next t := by
  unfold State.access at h
  split at h
  · cases h
  · exact ⟨‹_›, h⟩

/-- Every byte of an access is populated exactly when no first absent byte is found (`20_memory.md` R59). -/
theorem firstAbsent_none (s : State) (a : Word) (n : Nat) :
    s.firstAbsent a n = none ↔ ∀ k < n, s.isPopulated (a + BitVec.ofNat 32 k) = true := by
  induction n generalizing a with
  | zero => simp [State.firstAbsent]
  | succ n ih =>
    unfold State.firstAbsent
    split_ifs with h
    · rw [ih]
      have shift : ∀ k, a + 1#32 + BitVec.ofNat 32 k = a + BitVec.ofNat 32 (k + 1) := fun k => by
        rw [BitVec.add_assoc, show (1#32 : Word) + BitVec.ofNat 32 k = BitVec.ofNat 32 (k + 1) from ?_]
        rw [show (1#32 : Word) = BitVec.ofNat 32 1 from rfl, ← BitVec.ofNat_add, Nat.add_comm]
      constructor
      · intro hk k hlt
        cases k with
        | zero => simpa using h
        | succ k => rw [← shift]; exact hk k (by omega)
      · intro hk k hlt
        rw [shift]; exact hk (k + 1) (by omega)
    · simp only [false_iff, not_forall]
      exact ⟨0, by omega, by simpa using h⟩

theorem firstAbsent_congr (s t : State) (a : Word) (n : Nat) (h : t.platform = s.platform) :
    t.firstAbsent a n = s.firstAbsent a n := by
  induction n generalizing a with
  | zero => rfl
  | succ n ih =>
    have hp : t.isPopulated a = s.isPopulated a := by simp only [State.isPopulated, h]
    simp only [State.firstAbsent, hp, ih]

theorem peekWord_congr (s t : State) (a : Word) (h : t.mem = s.mem) : t.peekWord a = s.peekWord a := by
  simp only [State.peekWord, State.peekByte, h]

/-! ### Loads, shifts, divisions -/

theorem load_next (s : State) (ra : RegNum) (a : Word) (n : Nat) (v : Word) (h : s.firstAbsent a n = none) :
    s.load ra a n v = .next (s.setReg ra v) := access_ok s a n _ h

/-- A shift completes: by the amount when it is 31 or less, with a drawn result otherwise (`42_shift.md` R150). -/
theorem shift_cases (s : State) (ra : RegNum) (op : ShiftOp) (v n : Word) :
    (n.toNat ≤ 31 ∧ s.shift ra op v n = .next (s.setReg ra (shiftBy op v n.toNat))) ∨
      (31 < n.toNat ∧ s.shift ra op v n = .next (s.draw.setReg ra (Config.shiftBig s.draws op v n))) := by
  unfold State.shift
  split_ifs with h
  · exact .inl ⟨h, rfl⟩
  · exact .inr ⟨by omega, rfl⟩

/-! ### Ports -/

/-- A port read gets no answer when the script says so, the answer at its head, or a free value when it has ended; with
an answer only the script, the log and the count of draws change (`45_port_io.md` R190). -/
theorem portRead_cases (s : State) (p : PortNum) :
    (s.portIn.head? = some .never ∧ s.portRead p = none) ∨
      (∃ v rest, s.portIn = .value v :: rest ∧
        s.portRead p = some (v, { s with portIn := rest, portLog := s.portLog ++ [.read p v] })) ∨
      (s.portIn = [] ∧ s.portRead p = some (Config.portAnswer s.draws s.portLog p,
        { s with draws := s.draws + 1, portLog := s.portLog ++ [.read p (Config.portAnswer s.draws s.portLog p)] })) := by
  unfold State.portRead
  cases h : s.portIn with
  | nil => exact .inr (.inr ⟨rfl, rfl⟩)
  | cons e rest =>
    cases e with
    | value v => exact .inr (.inl ⟨v, rest, rfl, rfl⟩)
    | never => exact .inl ⟨rfl, rfl⟩

/-- A port read is answered exactly when the environment answers. -/
theorem portRead_none (s : State) (p : PortNum) : s.portRead p = none ↔ s.portIn.head? = some .never := by
  rcases portRead_cases s p with ⟨h, h'⟩ | ⟨v, rest, h, h'⟩ | ⟨h, h'⟩ <;> simp [h, h']

/-- All that an answered port read changes. -/
theorem portRead_some {s t : State} {p : PortNum} {v : Word} (h : s.portRead p = some (v, t)) :
    t = { s with draws := t.draws, portIn := t.portIn, portLog := s.portLog ++ [.read p v] } := by
  rcases portRead_cases s p with ⟨-, h'⟩ | ⟨w, rest, -, h'⟩ | ⟨-, h'⟩ <;> rw [h'] at h
  · cases h
  · cases h; rfl
  · cases h; rfl

theorem portRead_log {s t : State} {p : PortNum} {v : Word} (h : s.portRead p = some (v, t)) :
    t.portLog = s.portLog ++ [.read p v] := by rw [portRead_some h]

theorem portRead_reg {s t : State} {p : PortNum} {v : Word} (h : s.portRead p = some (v, t)) (r : RegNum) :
    t.reg r = s.reg r := by rw [portRead_some h]; exact reg_congr _ _ _ rfl rfl rfl rfl

theorem portRead_mem {s t : State} {p : PortNum} {v : Word} (h : s.portRead p = some (v, t)) : t.mem = s.mem := by
  rw [portRead_some h]

theorem portRead_pending {s t : State} {p : PortNum} {v : Word} (h : s.portRead p = some (v, t)) :
    t.pending = s.pending := by rw [portRead_some h]

theorem portRead_inService {s t : State} {p : PortNum} {v : Word} (h : s.portRead p = some (v, t)) :
    t.inService = s.inService := by rw [portRead_some h]

theorem portRead_platform {s t : State} {p : PortNum} {v : Word} (h : s.portRead p = some (v, t)) :
    t.platform = s.platform := by rw [portRead_some h]

theorem portRead_irqIn {s t : State} {p : PortNum} {v : Word} (h : s.portRead p = some (v, t)) :
    t.irqIn = s.irqIn := by rw [portRead_some h]

/-- A port input completes with the answer of its read, or is stuck in a read that gets none. -/
theorem input_cases (s : State) (ra : RegNum) (p : PortNum) (f : Word → Word) :
    (s.portIn.head? = some .never ∧ s.input ra p f = .fault (.portReadNeverCompletes p)) ∨
      ∃ v t, s.portRead p = some (v, t) ∧ s.input ra p f = .next (t.setReg ra (f v)) := by
  cases h : s.portRead p with
  | none => exact .inl ⟨(portRead_none s p).mp h, by simp only [State.input, unlessNop_eq, h]⟩
  | some r => exact .inr ⟨r.1, r.2, rfl, by simp only [State.input, unlessNop_eq, h]⟩

/-! ### Interrupts -/

/-- Servicing an interrupt faults on an absent vector word, does nothing on a zero vector, enters the handler
otherwise; in each case the number is no longer pending (`60_exceptions.md` R273, R278). -/
theorem service_cases (s : State) (n : Nat) :
    (∃ b, s.firstAbsent (s.vectorAddr n) 4 = some b ∧ s.service n = .fault (.unpopulatedAccess b)) ∨
      (s.firstAbsent (s.vectorAddr n) 4 = none ∧ s.peekWord (s.vectorAddr n) = 0#32 ∧
        s.service n = .next { s with pending := s.pending.filter fun k => k != n }) ∨
      (s.firstAbsent (s.vectorAddr n) 4 = none ∧ s.peekWord (s.vectorAddr n) ≠ 0#32 ∧
        s.service n = .next (State.enterInterrupt { s with pending := s.pending.filter fun k => k != n }
          (s.peekWord (s.vectorAddr n)))) := by
  unfold State.service
  have hp := firstAbsent_congr s { s with pending := s.pending.filter fun k => k != n } (s.vectorAddr n) 4 rfl
  cases h : s.firstAbsent (s.vectorAddr n) 4 with
  | some b => exact .inl ⟨b, rfl, access_fault _ _ b _ _ (hp.trans h)⟩
  | none =>
    rw [access_ok _ _ _ _ (hp.trans h)]
    split_ifs with h0
    · exact .inr (.inl ⟨rfl, h0, rfl⟩)
    · exact .inr (.inr ⟨rfl, h0, rfl⟩)

/-- The lowest number of a list is in it and no number of the list is below it (`60_exceptions.md` R272, R279). -/
theorem lowest_spec (ns : List Nat) (k : Nat) : lowest ns = some k ↔ k ∈ ns ∧ ∀ n ∈ ns, k ≤ n := by
  induction ns generalizing k with
  | nil => simp [lowest]
  | cons n ns ih =>
    cases h : lowest ns with
    | none =>
      have hn : ns = [] := by
        cases ns with
        | nil => rfl
        | cons m ms => simp only [lowest] at h; split at h <;> cases h
      subst hn
      simp only [lowest, Option.some.injEq, List.mem_singleton]
      exact ⟨fun hk => ⟨hk.symm, fun m hm => by omega⟩, fun hk => hk.1.symm⟩
    | some m =>
      obtain ⟨hm, hmin⟩ := (ih m).mp h
      simp only [lowest, h, Option.some.injEq, List.mem_cons]
      constructor
      · rintro rfl
        split_ifs with hle
        · exact ⟨.inl rfl, fun a ha => ha.elim (fun e => e ▸ le_refl _) fun ha => le_trans hle (hmin a ha)⟩
        · exact ⟨.inr hm, fun a ha => ha.elim (fun e => by omega) fun ha => hmin a ha⟩
      · rintro ⟨hk, hall⟩
        have h1 := hall n (.inl rfl)
        have h2 := hall m (.inr hm)
        rcases hk with rfl | hk
        · rw [if_pos h2]
        · have h3 := hmin k hk
          split_ifs <;> omega

theorem lowest_none (ns : List Nat) : lowest ns = none ↔ ns = [] := by
  cases ns with
  | nil => simp [lowest]
  | cons n ns =>
    simp only [lowest, reduceCtorEq, iff_false]
    split <;> simp

theorem mem_insertNumber (n k : Nat) (ns : List Nat) : k ∈ insertNumber n ns ↔ k = n ∨ k ∈ ns := by
  induction ns with
  | nil => simp [insertNumber]
  | cons m ms ih =>
    simp only [insertNumber]
    split_ifs with h1 h2
    · simp
    · subst h2; simp
    · simp only [List.mem_cons, ih]; tauto

theorem insertNumber_rising (n : Nat) (ns : List Nat) (h : ns.Pairwise (· < ·)) :
    (insertNumber n ns).Pairwise (· < ·) := by
  induction ns with
  | nil => simp [insertNumber]
  | cons m ms ih =>
    obtain ⟨hm, hms⟩ := List.pairwise_cons.mp h
    simp only [insertNumber]
    split_ifs with h1 h2
    · refine List.pairwise_cons.mpr ⟨fun k hk => ?_, h⟩
      rcases List.mem_cons.mp hk with rfl | hk
      · exact h1
      · exact lt_trans h1 (hm k hk)
    · exact h
    · refine List.pairwise_cons.mpr ⟨fun k hk => ?_, ih hms⟩
      rcases (mem_insertNumber n k ms).mp hk with rfl | hk
      · omega
      · exact hm k hk

/-- What is pending after arrivals: what was pending, and the numbers received that are interrupts of the
implementation (`60_exceptions.md` R271, R272). -/
theorem mem_receiveNumbers (nInt k : Nat) (ns : List Nat) : ∀ pending : List Nat,
    (k ∈ receiveNumbers nInt pending ns ↔ k ∈ pending ∨ (k ∈ ns ∧ 1 ≤ k ∧ k ≤ nInt)) := by
  induction ns with
  | nil => simp [receiveNumbers]
  | cons n ns ih =>
    intro pending
    simp only [receiveNumbers, ih]
    split_ifs with h
    · simp only [Bool.and_eq_true, decide_eq_true_eq] at h
      rw [mem_insertNumber, List.mem_cons]
      constructor
      · rintro ((rfl | hp) | hn)
        · exact .inr ⟨.inl rfl, h⟩
        · exact .inl hp
        · exact .inr ⟨.inr hn.1, hn.2⟩
      · rintro (hp | ⟨rfl | hn, hr⟩)
        · exact .inl (.inr hp)
        · exact .inl (.inl rfl)
        · exact .inr ⟨hn, hr⟩
    · simp only [Bool.and_eq_true, decide_eq_true_eq] at h
      rw [List.mem_cons]
      constructor
      · rintro (hp | hn)
        · exact .inl hp
        · exact .inr ⟨.inr hn.1, hn.2⟩
      · rintro (hp | ⟨rfl | hn, hr⟩)
        · exact .inl hp
        · exact absurd hr h
        · exact .inr ⟨hn, hr⟩

theorem receiveNumbers_rising (nInt : Nat) (ns : List Nat) : ∀ pending : List Nat,
    pending.Pairwise (· < ·) → (receiveNumbers nInt pending ns).Pairwise (· < ·) := by
  induction ns with
  | nil => exact fun _ h => h
  | cons n ns ih =>
    intro pending h
    simp only [receiveNumbers]
    split_ifs
    · exact ih _ (insertNumber_rising n pending h)
    · exact ih _ h

/-- Arrivals change the script and what is pending, nothing else (`60_exceptions.md` R272). -/
theorem receive_cases (s : State) :
    (s.irqIn = [] ∧ s.receive = s) ∨ (∃ ns rest, s.irqIn = ns :: rest ∧
      s.receive = { s with irqIn := rest, pending := receiveNumbers s.platform.nInt s.pending ns }) := by
  unfold State.receive
  cases h : s.irqIn with
  | nil => exact .inl ⟨rfl, rfl⟩
  | cons ns rest => exact .inr ⟨ns, rest, rfl, rfl⟩

theorem receive_eq (s : State) : s.receive = { s with irqIn := s.receive.irqIn, pending := s.receive.pending } := by
  rcases receive_cases s with ⟨-, h⟩ | ⟨ns, rest, -, h⟩ <;> rw [h]

/-- The interrupt check: with the lock on, or with nothing pending, only the arrivals; otherwise the lowest pending
number is serviced (`60_exceptions.md` R272, R276). -/
theorem checkInterrupts_cases (s : State) :
    ((s.inService = true ∨ s.receive.pending = []) ∧ s.checkInterrupts = .next s.receive) ∨
      (s.inService = false ∧ ∃ n, n ∈ s.receive.pending ∧ (∀ k ∈ s.receive.pending, n ≤ k) ∧
        s.checkInterrupts = s.receive.service n) := by
  have hl : s.receive.inService = s.inService := by rw [receive_eq]
  unfold State.checkInterrupts
  rw [hl]
  cases hi : s.inService with
  | true => exact .inl ⟨.inl rfl, rfl⟩
  | false =>
    cases hp : lowest s.receive.pending with
    | none => exact .inl ⟨.inr ((lowest_none _).mp hp), rfl⟩
    | some n =>
      obtain ⟨hm, hmin⟩ := (lowest_spec _ _).mp hp
      exact .inr ⟨rfl, n, hm, hmin, rfl⟩

/-! ### The step -/

/-- The fetch: a fault on a misaligned or absent address, the word otherwise (`10_state.md` R29). -/
theorem fetch_cases (s : State) :
    (s.pc.extractLsb' 0 2 ≠ 0#2 ∧ s.fetch = .error (.misalignedFetch s.pc)) ∨
      (s.pc.extractLsb' 0 2 = 0#2 ∧ ∃ b, s.firstAbsent s.pc 4 = some b ∧ s.fetch = .error (.unpopulatedAccess b)) ∨
      (s.pc.extractLsb' 0 2 = 0#2 ∧ s.firstAbsent s.pc 4 = none ∧ s.fetch = .ok (s.peekWord s.pc)) := by
  unfold State.fetch
  split_ifs with h
  · exact .inl ⟨h, rfl⟩
  · cases ha : s.firstAbsent s.pc 4 with
    | some b => exact .inr (.inl ⟨not_not.mp h, b, rfl, rfl⟩)
    | none => exact .inr (.inr ⟨not_not.mp h, rfl, rfl⟩)

/-- A step that answers a next state checked the interrupts, fetched a word and executed its instruction. -/
theorem step_next (s u : State) (h : step s = .next u) :
    ∃ t w, s.checkInterrupts = .next t ∧ t.fetch = .ok w ∧ exec (decodeWord w) t.advance = .next u := by
  unfold step at h
  split at h
  · cases h
  · cases h
  · split at h
    · cases h
    · exact ⟨_, _, ‹_›, ‹_›, h⟩

theorem step_eq (s t : State) (w : Word) (hc : s.checkInterrupts = .next t) (hf : t.fetch = .ok w) :
    step s = exec (decodeWord w) t.advance := by
  simp only [step, hc, hf]

end Sys2Proof.Machine
end

