-- ==== Sys2Proof/Laws/Frames.lean ====
section
/-! SUPPORT. What each shared operation does, in the frames that the statements use (`Sys2Proof.Safety`): a prover cites
one of these and need not unfold the operation. -/

namespace Sys2Proof.Machine

theorem sameElse_of_eq {s t : State} (hm : t.mem = s.mem) (hp : t.pending = s.pending) (hs : t.inService = s.inService)
    (hi : t.irqIn = s.irqIn) (hl : t.portLog = s.portLog) (hn : t.portIn = s.portIn) (hf : t.platform = s.platform) :
    SameElse s t :=
  ⟨fun a => by rw [State.peekByte, State.peekByte, hm], ⟨hp, hs, hi⟩, ⟨hl, hn⟩, hf⟩

theorem writesReg_setReg (s : State) (ra : RegNum) (v : Word) : WritesReg s (s.setReg ra v) ra v :=
  ⟨fun h => reg_setReg_same s ra v h, fun r h => reg_setReg_ne s ra r v h,
    sameElse_of_eq (by simp) (by simp) (by simp) (by simp) (by simp) (by simp) (by simp)⟩

theorem writesReg_draw_setReg (s : State) (ra : RegNum) (v : Word) : WritesReg s (s.draw.setReg ra v) ra v :=
  ⟨fun h => reg_setReg_same s.draw ra v h, fun r h => reg_setReg_ne s.draw ra r v h,
    sameElse_of_eq (by simp) (by simp) (by simp) (by simp) (by simp) (by simp) (by simp)⟩

theorem writesSum_setSum (s : State) (ra : RegNum) (r : BitVec 33) :
    WritesSum s (s.setSum ra r) ra (low32 r) (bit32 r) := by
  refine ⟨fun h h30 => ?_, setCarry_carry _ _, ?_, fun q h h30 => ?_,
    sameElse_of_eq (by simp) (by simp) (by simp) (by simp) (by simp) (by simp) (by simp)⟩
  · rw [State.setSum, reg_setCarry, if_neg h30, reg_setReg_same _ _ _ h]
  · rw [State.setSum, setCarry_upper]
    split_ifs with h
    · subst h; rfl
    · rw [← reg_30, ← reg_30, reg_setReg_ne _ _ _ _ (Ne.symm h)]
  · rw [State.setSum, reg_setCarry, if_neg h30, reg_setReg_ne _ _ _ _ h]

theorem writesTwo_setQuotRem (s : State) (ra rd : RegNum) (q r : Word) :
    WritesTwo s (s.setQuotRem ra rd q r) ra q rd r := by
  refine ⟨fun h => reg_setReg_same _ _ _ h, fun h hne => ?_, fun x ha hd => ?_,
    sameElse_of_eq (by simp) (by simp) (by simp) (by simp) (by simp) (by simp) (by simp)⟩
  · rw [State.setQuotRem, reg_setReg_ne _ _ _ _ hne, reg_setReg_same _ _ _ h]
  · rw [State.setQuotRem, reg_setReg_ne _ _ _ _ hd, reg_setReg_ne _ _ _ _ ha]

theorem writesTwo_draw_setQuotRem (s : State) (ra rd : RegNum) (q r : Word) :
    WritesTwo s (s.draw.setQuotRem ra rd q r) ra q rd r := writesTwo_setQuotRem s.draw ra rd q r

/-- A division by zero changes register 30 alone (`41_arithmetic.md` R143). -/
theorem divByZero_frame (s : State) (a : Word) :
    (∀ r, r ≠ 30#5 → (s.divByZero a).reg r = s.reg r) ∧ SameElse s (s.divByZero a) := by
  refine ⟨fun r h => ?_, sameElse_of_eq rfl rfl rfl rfl rfl rfl rfl⟩
  simp only [State.reg, relPC_eq, State.divByZero, h, if_false]

theorem jumpsTo_jump (s : State) (t : Word) : JumpsTo s (s.jump t) t :=
  ⟨rfl, fun r h => by rw [reg_jump, if_neg h], sameElse_of_eq rfl rfl rfl rfl rfl rfl rfl⟩

theorem jumpsTo_branchIf (s : State) (c : Bool) (t : Word) : JumpsTo s (s.branchIf c t) (if c then t else s.pc) := by
  cases c
  · exact ⟨rfl, fun r _ => rfl, sameElse_of_eq rfl rfl rfl rfl rfl rfl rfl⟩
  · exact jumpsTo_jump s t

theorem storesBytes_pokeByte (s : State) (a : Word) (v : Byte) : StoresBytes s (s.pokeByte a v) a [v] := by
  refine ⟨fun k hk => ?_, fun b hb => ?_, fun r => rfl, ⟨rfl, rfl, rfl⟩, ⟨rfl, rfl⟩, rfl⟩
  · obtain rfl : k = 0 := by simpa using hk
    simp [peekByte_pokeByte]
  · have := hb 0 (by simp)
    rw [peekByte_pokeByte, if_neg (by simpa using this)]

theorem storesBytes_pokeHalf (s : State) (a : Word) (v : Half) :
    StoresBytes s (s.pokeHalf a v) a [v.extractLsb' 0 8, v.extractLsb' 8 8] := by
  refine ⟨fun k hk => ?_, fun b hb => ?_, fun r => rfl, ⟨rfl, rfl, rfl⟩, ⟨rfl, rfl⟩, rfl⟩
  · have : k = 0 ∨ k = 1 := by simp at hk; omega
    rcases this with rfl | rfl
    · rw [peekByte_pokeHalf, if_neg (by bv_omega), if_pos (by bv_omega)]; rfl
    · rw [peekByte_pokeHalf, if_pos (by bv_omega)]; rfl
  · have h0 := hb 0 (by simp)
    have h1 := hb 1 (by simp)
    rw [peekByte_pokeHalf, if_neg h1, if_neg (by simpa using h0)]

theorem storesBytes_pokeWord (s : State) (a v : Word) :
    StoresBytes s (s.pokeWord a v) a [byteOfWord v 0, byteOfWord v 1, byteOfWord v 2, byteOfWord v 3] := by
  refine ⟨fun k hk => ?_, fun b hb => ?_, fun r => rfl, ⟨rfl, rfl, rfl⟩, ⟨rfl, rfl⟩, rfl⟩
  · have : k = 0 ∨ k = 1 ∨ k = 2 ∨ k = 3 := by simp at hk; omega
    rcases this with rfl | rfl | rfl | rfl
    · rw [peekByte_pokeWord, if_neg (by bv_omega), if_neg (by bv_omega), if_neg (by bv_omega), if_pos (by bv_omega)]; rfl
    · rw [peekByte_pokeWord, if_neg (by bv_omega), if_neg (by bv_omega), if_pos (by bv_omega)]; rfl
    · rw [peekByte_pokeWord, if_neg (by bv_omega), if_pos (by bv_omega)]; rfl
    · rw [peekByte_pokeWord, if_pos (by bv_omega)]; rfl
  · rw [peekByte_pokeWord, if_neg (hb 3 (by simp)), if_neg (hb 2 (by simp)), if_neg (hb 1 (by simp)),
      if_neg (by simpa using hb 0 (by simp))]

/-- A port input that the environment answers completes, with its answer `v` (`45_port_io.md` R190, R193). -/
theorem input_readsPort (s : State) (ra : RegNum) (p : PortNum) (f : Word → Word) (hw : WillAnswer s) :
    ∃ t v, s.input ra p f = .next t ∧ ReadsPort s t p v ra (f v) := by
  rcases input_cases s ra p f with ⟨h, -⟩ | ⟨v, u, hr, h⟩
  · exact absurd h hw
  · refine ⟨_, v, h, ?_, ?_, ?_, fun h => reg_setReg_same _ _ _ h, ?_, ?_, ?_, ?_⟩
    · rw [setReg_portLog, portRead_log hr]
    · intro w rest hin
      simp only [State.portRead, hin] at hr
      cases hr
      exact ⟨rfl, setReg_portIn _ _ _⟩
    · intro hin
      simp only [State.portRead, hin] at hr
      cases hr
      exact setReg_portIn _ _ _
    · intro r hne
      rw [reg_setReg_ne _ _ _ _ hne, portRead_reg hr]
    · intro a
      rw [State.peekByte, State.peekByte, setReg_mem, portRead_mem hr]
    · exact ⟨by rw [setReg_pending, portRead_pending hr], by rw [setReg_inService, portRead_inService hr],
        by rw [setReg_irqIn, portRead_irqIn hr]⟩
    · rw [setReg_platform, portRead_platform hr]

/-- A port input that the environment never answers is stuck (`45_port_io.md` R190). -/
theorem input_stuck (s : State) (ra : RegNum) (p : PortNum) (f : Word → Word) (hw : ¬WillAnswer s) :
    s.input ra p f = .fault (.portReadNeverCompletes p) := by
  rcases input_cases s ra p f with ⟨-, h⟩ | ⟨v, u, hr, -⟩
  · exact h
  · rw [WillAnswer, not_not] at hw
    rw [(portRead_none s p).mpr hw] at hr
    cases hr

theorem portWrite_writesPort (s : State) (p : PortNum) (v : Word) : WritesPort s (s.portWrite p v) p v :=
  ⟨rfl, by simp [State.output, writeOf], rfl, fun _ => rfl, fun _ => rfl, ⟨rfl, rfl, rfl⟩, rfl⟩

theorem populated_iff (s : State) (a : Word) (n : Nat) : Populated s a n ↔ s.firstAbsent a n = none :=
  (firstAbsent_none s a n).symm

theorem firstAbsent_some (s : State) (a b : Word) (n : Nat) (h : FirstAbsent s a n b) :
    s.firstAbsent a n = some b := by
  induction n generalizing a with
  | zero => obtain ⟨k, hk, -⟩ := h; omega
  | succ n ih =>
    obtain ⟨k, hk, rfl, hb, hp⟩ := h
    cases k with
    | zero => simp_all [State.firstAbsent]
    | succ k =>
      have h0 := hp 0 (by omega)
      simp only [BitVec.add_zero] at h0
      simp only [State.firstAbsent, h0, if_true]
      refine ih (a + 1#32) ⟨k, by omega, by bv_omega, hb, fun j hj => ?_⟩
      have := hp (j + 1) (by omega)
      rwa [show a + BitVec.ofNat 32 (j + 1) = a + 1#32 + BitVec.ofNat 32 j by bv_omega] at this

/-- An access to populated bytes answers what the access is for. -/
theorem access_of_populated (s : State) (a : Word) (n : Nat) (r : Result) (h : Populated s a n) : s.access a n r = r :=
  access_ok s a n r ((populated_iff s a n).1 h)

/-- An access that meets an absent byte faults with the first of them. -/
theorem access_of_absent (s : State) (a b : Word) (n : Nat) (r : Result) (h : FirstAbsent s a n b) :
    s.access a n r = .fault (.unpopulatedAccess b) := access_fault s a b n r (firstAbsent_some s a b n h)

/-- A shift by 31 or less writes the shifted value, by 32 or more some value (`42_shift.md` R150). -/
theorem shift_writesReg (s : State) (ra : RegNum) (op : ShiftOp) (v n : Word) :
    ∃ t x, s.shift ra op v n = .next t ∧ WritesReg s t ra x ∧ (n.toNat ≤ 31 → x = shiftBy op v n.toNat) := by
  rcases shift_cases s ra op v n with ⟨-, h⟩ | ⟨h, h'⟩
  · exact ⟨_, _, h, writesReg_setReg _ _ _, fun _ => rfl⟩
  · exact ⟨_, _, h', writesReg_draw_setReg _ _ _, fun _ => by omega⟩

end Sys2Proof.Machine
end

