-- ==== Sys2Proof/Laws/Effect.lean ====
section
/-! SUPPORT. What an instruction can do, said once: `exec_effect` is the inversion lemma of `exec`, with one small lemma
per constructor of `Instr`. A proof over all instructions cites it and need not unfold a meaning. -/

namespace Sys2Proof.Machine

/-- The next states an instruction can answer, by the shared operation that makes them. -/
inductive Effect (i : Instr) (s : State) : State → Prop
  | setReg (ra : RegNum) (v : Word) (hd : destinations i = [ra]) (hj : isJump i = false) (hc : writesCarry i = false)
      (hs : isStore i = false) : Effect i s (s.setReg ra v)
  | drawReg (ra : RegNum) (v : Word) (hd : destinations i = [ra]) (hj : isJump i = false)
      (hc : writesCarry i = false) (hs : isStore i = false) : Effect i s (s.draw.setReg ra v)
  | setSum (ra : RegNum) (r : BitVec 33) (hd : destinations i = [ra]) (hj : isJump i = false)
      (hc : writesCarry i = true) (hs : isStore i = false) : Effect i s (s.setSum ra r)
  | setQuotRem (ra rd : RegNum) (q r : Word) (hd : destinations i = [ra, rd]) (hj : isJump i = false)
      (hc : writesCarry i = false) (hs : isStore i = false) : Effect i s (s.setQuotRem ra rd q r)
  | drawQuotRem (ra rd : RegNum) (q r : Word) (hd : destinations i = [ra, rd]) (hj : isJump i = false)
      (hc : writesCarry i = false) (hs : isStore i = false) : Effect i s (s.draw.setQuotRem ra rd q r)
  | divByZero (a : Word) (hv : isDivision i = true) (hj : isJump i = false) (hc : writesCarry i = false)
      (hs : isStore i = false) : Effect i s (s.divByZero a)
  | input (ra : RegNum) (p : PortNum) (v w : Word) (u : State) (hr : s.portRead p = some (v, u))
      (hd : destinations i = [ra]) (hp : isPortAccess i = true) (hj : isJump i = false) (hc : writesCarry i = false)
      (hs : isStore i = false) : Effect i s (u.setReg ra w)
  | output (p : PortNum) (v : Word) (hp : isPortAccess i = true) (hj : isJump i = false)
      (hc : writesCarry i = false) (hs : isStore i = false) : Effect i s (s.portWrite p v)
  | storeByte (ra rb : RegNum) (k : Half) (hi : i = .sb ra rb k) :
      Effect i s (s.pokeByte (s.effAddr rb k) (lowByte (s.reg ra)))
  | storeHalf (ra rb : RegNum) (k : Half) (hi : i = .sh ra rb k) :
      Effect i s (s.pokeHalf (s.effAddr rb k) (lowHalf (s.reg ra)))
  | storeWord (ra rb : RegNum) (k : Half) (hi : i = .sw ra rb k) :
      Effect i s (s.pokeWord (s.effAddr rb k) (s.reg ra))
  | jump (a : Word) (hi : i ≠ .jr 29#5) (hj : isJump i = true) (hc : writesCarry i = false)
      (hs : isStore i = false) : Effect i s (s.jump a)
  | endLock (a : Word) (hi : i = .jr 29#5) : Effect i s (s.jump a).endInterrupt
  | stay (hi : i ≠ .jr 29#5) (hc : writesCarry i = false) (hs : isStore i = false) : Effect i s s

/-- A load that answers a next state has written its register. -/
theorem load_effect (s t : State) (ra : RegNum) (a : Word) (n : Nat) (v : Word) (h : s.load ra a n v = .next t) :
    s.setReg ra v = t := by
  have := (access_next _ _ _ _ _ h).2
  injection this

/-- A store that answers a next state has made it. -/
theorem store_effect (s t u : State) (a : Word) (n : Nat) (h : s.access a n (.next u) = .next t) : u = t := by
  have := (access_next _ _ _ _ _ h).2
  injection this

theorem shift_effect (i : Instr) (s t : State) (ra : RegNum) (op : ShiftOp) (v n : Word)
    (h : s.shift ra op v n = .next t) (hd : destinations i = [ra]) (hj : isJump i = false)
    (hc : writesCarry i = false) (hs : isStore i = false) : Effect i s t := by
  rcases shift_cases s ra op v n with ⟨-, h'⟩ | ⟨-, h'⟩ <;> (rw [h'] at h; injection h with h; subst h)
  · exact .setReg _ _ hd hj hc hs
  · exact .drawReg _ _ hd hj hc hs

/-- A port input that answers a next state has read its port and written its register. -/
theorem input_effect (i : Instr) (s t : State) (ra : RegNum) (p : PortNum) (f : Word → Word)
    (h : s.input ra p f = .next t) (hd : destinations i = [ra]) (hp : isPortAccess i = true) (hj : isJump i = false)
    (hc : writesCarry i = false) (hs : isStore i = false) : Effect i s t := by
  rcases input_cases s ra p f with ⟨-, h'⟩ | ⟨v, u, hr, h'⟩ <;> rw [h'] at h
  · cases h
  · injection h with h
    subst h
    exact .input _ _ _ _ _ hr hd hp hj hc hs

theorem branch_effect (i : Instr) (s t : State) (c : Bool) (a : Word) (h : s.branchIf c a = t) (hi : i ≠ .jr 29#5)
    (hj : isJump i = true) (hc : writesCarry i = false) (hs : isStore i = false) : Effect i s t := by
  subst h
  cases c
  · exact .stay hi hc hs
  · exact .jump a hi hj hc hs

theorem execOr_effect (s t : State) (ra : RegNum) (rb : RegNum) (rc : RegNum)
    (h : execOr ra rb rc s = .next t) : Effect (.or ra rb rc) s t := by
  injection h with h
  subst h
  exact .setReg _ _ rfl rfl rfl rfl

theorem execOri_effect (s t : State) (ra : RegNum) (rb : RegNum) (i : Half)
    (h : execOri ra rb i s = .next t) : Effect (.ori ra rb i) s t := by
  injection h with h
  subst h
  exact .setReg _ _ rfl rfl rfl rfl

theorem execAnd_effect (s t : State) (ra : RegNum) (rb : RegNum) (rc : RegNum)
    (h : execAnd ra rb rc s = .next t) : Effect (.and ra rb rc) s t := by
  injection h with h
  subst h
  exact .setReg _ _ rfl rfl rfl rfl

theorem execAndi_effect (s t : State) (ra : RegNum) (rb : RegNum) (i : Half)
    (h : execAndi ra rb i s = .next t) : Effect (.andi ra rb i) s t := by
  injection h with h
  subst h
  exact .setReg _ _ rfl rfl rfl rfl

theorem execXor_effect (s t : State) (ra : RegNum) (rb : RegNum) (rc : RegNum)
    (h : execXor ra rb rc s = .next t) : Effect (.xor ra rb rc) s t := by
  injection h with h
  subst h
  exact .setReg _ _ rfl rfl rfl rfl

theorem execXori_effect (s t : State) (ra : RegNum) (rb : RegNum) (i : Half)
    (h : execXori ra rb i s = .next t) : Effect (.xori ra rb i) s t := by
  injection h with h
  subst h
  exact .setReg _ _ rfl rfl rfl rfl

theorem execAdd_effect (s t : State) (ra : RegNum) (rb : RegNum) (rc : RegNum)
    (h : execAdd ra rb rc s = .next t) : Effect (.add ra rb rc) s t := by
  injection h with h
  subst h
  exact .setSum _ _ rfl rfl rfl rfl

theorem execAddi_effect (s t : State) (ra : RegNum) (rb : RegNum) (i : Half)
    (h : execAddi ra rb i s = .next t) : Effect (.addi ra rb i) s t := by
  injection h with h
  subst h
  exact .setSum _ _ rfl rfl rfl rfl

theorem execSub_effect (s t : State) (ra : RegNum) (rb : RegNum) (rc : RegNum)
    (h : execSub ra rb rc s = .next t) : Effect (.sub ra rb rc) s t := by
  injection h with h
  subst h
  exact .setSum _ _ rfl rfl rfl rfl

theorem execSubi_effect (s t : State) (ra : RegNum) (rb : RegNum) (i : Half)
    (h : execSubi ra rb i s = .next t) : Effect (.subi ra rb i) s t := by
  injection h with h
  subst h
  exact .setSum _ _ rfl rfl rfl rfl

theorem execMult_effect (s t : State) (ra : RegNum) (rb : RegNum) (rc : RegNum)
    (h : execMult ra rb rc s = .next t) : Effect (.mult ra rb rc) s t := by
  injection h with h
  subst h
  exact .setReg _ _ rfl rfl rfl rfl

theorem execMulti_effect (s t : State) (ra : RegNum) (rb : RegNum) (i : Half)
    (h : execMulti ra rb i s = .next t) : Effect (.multi ra rb i) s t := by
  injection h with h
  subst h
  exact .setReg _ _ rfl rfl rfl rfl

theorem execDiv_effect (s t : State) (ra : RegNum) (rb : RegNum) (rc : RegNum) (rd : RegNum)
    (h : execDiv ra rb rc rd s = .next t) : Effect (.div ra rb rc rd) s t := by
  rw [execDiv, unlessNop_eq] at h
  split_ifs at h <;> (injection h with h; subst h)
  · exact .divByZero _ rfl rfl rfl rfl
  · exact .drawQuotRem _ _ _ _ rfl rfl rfl rfl
  · exact .setQuotRem _ _ _ _ rfl rfl rfl rfl

theorem execDivu_effect (s t : State) (ra : RegNum) (rb : RegNum) (rc : RegNum) (rd : RegNum)
    (h : execDivu ra rb rc rd s = .next t) : Effect (.divu ra rb rc rd) s t := by
  rw [execDivu, unlessNop_eq] at h
  split_ifs at h <;> (injection h with h; subst h)
  · exact .divByZero _ rfl rfl rfl rfl
  · exact .setQuotRem _ _ _ _ rfl rfl rfl rfl

theorem execDivi_effect (s t : State) (ra : RegNum) (rb : RegNum) (i : Half)
    (h : execDivi ra rb i s = .next t) : Effect (.divi ra rb i) s t := by
  rw [execDivi, unlessNop_eq] at h
  split_ifs at h <;> (injection h with h; subst h)
  · exact .drawReg _ _ rfl rfl rfl rfl
  · exact .setReg _ _ rfl rfl rfl rfl
  · exact .drawReg _ _ rfl rfl rfl rfl
  · exact .setReg _ _ rfl rfl rfl rfl

theorem execSrav_effect (s t : State) (ra : RegNum) (rb : RegNum) (rc : RegNum)
    (h : execSrav ra rb rc s = .next t) : Effect (.srav ra rb rc) s t := by
  exact shift_effect _ s t _ _ _ _ h rfl rfl rfl rfl

theorem execSra_effect (s t : State) (ra : RegNum) (rb : RegNum) (i : Half)
    (h : execSra ra rb i s = .next t) : Effect (.sra ra rb i) s t := by
  exact shift_effect _ s t _ _ _ _ h rfl rfl rfl rfl

theorem execSrlv_effect (s t : State) (ra : RegNum) (rb : RegNum) (rc : RegNum)
    (h : execSrlv ra rb rc s = .next t) : Effect (.srlv ra rb rc) s t := by
  exact shift_effect _ s t _ _ _ _ h rfl rfl rfl rfl

theorem execSrl_effect (s t : State) (ra : RegNum) (rb : RegNum) (i : Half)
    (h : execSrl ra rb i s = .next t) : Effect (.srl ra rb i) s t := by
  exact shift_effect _ s t _ _ _ _ h rfl rfl rfl rfl

theorem execSllv_effect (s t : State) (ra : RegNum) (rb : RegNum) (rc : RegNum)
    (h : execSllv ra rb rc s = .next t) : Effect (.sllv ra rb rc) s t := by
  exact shift_effect _ s t _ _ _ _ h rfl rfl rfl rfl

theorem execSll_effect (s t : State) (ra : RegNum) (rb : RegNum) (i : Half)
    (h : execSll ra rb i s = .next t) : Effect (.sll ra rb i) s t := by
  exact shift_effect _ s t _ _ _ _ h rfl rfl rfl rfl

theorem execSllvDup_effect (s t : State) (ra : RegNum) (rb : RegNum) (rc : RegNum)
    (h : execSllvDup ra rb rc s = .next t) : Effect (.sllvDup ra rb rc) s t := by
  exact shift_effect _ s t _ _ _ _ h rfl rfl rfl rfl

theorem execSllDup_effect (s t : State) (ra : RegNum) (rb : RegNum) (i : Half)
    (h : execSllDup ra rb i s = .next t) : Effect (.sllDup ra rb i) s t := by
  exact shift_effect _ s t _ _ _ _ h rfl rfl rfl rfl

theorem execEq_effect (s t : State) (ra : RegNum) (rb : RegNum) (rc : RegNum)
    (h : execEq ra rb rc s = .next t) : Effect (.eq ra rb rc) s t := by
  injection h with h
  subst h
  exact .setReg _ _ rfl rfl rfl rfl

theorem execEqi_effect (s t : State) (ra : RegNum) (rb : RegNum) (i : Half)
    (h : execEqi ra rb i s = .next t) : Effect (.eqi ra rb i) s t := by
  injection h with h
  subst h
  exact .setReg _ _ rfl rfl rfl rfl

theorem execEqDup_effect (s t : State) (ra : RegNum) (rb : RegNum) (rc : RegNum)
    (h : execEqDup ra rb rc s = .next t) : Effect (.eqDup ra rb rc) s t := by
  injection h with h
  subst h
  exact .setReg _ _ rfl rfl rfl rfl

theorem execEqui_effect (s t : State) (ra : RegNum) (rb : RegNum) (i : Half)
    (h : execEqui ra rb i s = .next t) : Effect (.equi ra rb i) s t := by
  injection h with h
  subst h
  exact .setReg _ _ rfl rfl rfl rfl

theorem execLt_effect (s t : State) (ra : RegNum) (rb : RegNum) (rc : RegNum)
    (h : execLt ra rb rc s = .next t) : Effect (.lt ra rb rc) s t := by
  injection h with h
  subst h
  exact .setReg _ _ rfl rfl rfl rfl

theorem execLti_effect (s t : State) (ra : RegNum) (rb : RegNum) (i : Half)
    (h : execLti ra rb i s = .next t) : Effect (.lti ra rb i) s t := by
  injection h with h
  subst h
  exact .setReg _ _ rfl rfl rfl rfl

theorem execLtu_effect (s t : State) (ra : RegNum) (rb : RegNum) (rc : RegNum)
    (h : execLtu ra rb rc s = .next t) : Effect (.ltu ra rb rc) s t := by
  injection h with h
  subst h
  exact .setReg _ _ rfl rfl rfl rfl

theorem execLtui_effect (s t : State) (ra : RegNum) (rb : RegNum) (i : Half)
    (h : execLtui ra rb i s = .next t) : Effect (.ltui ra rb i) s t := by
  injection h with h
  subst h
  exact .setReg _ _ rfl rfl rfl rfl

theorem execLbu_effect (s t : State) (ra : RegNum) (rb : RegNum) (i : Half)
    (h : execLbu ra rb i s = .next t) : Effect (.lbu ra rb i) s t := by
  rw [← load_effect _ _ _ _ _ _ h]
  exact .setReg _ _ rfl rfl rfl rfl

theorem execLb_effect (s t : State) (ra : RegNum) (rb : RegNum) (i : Half)
    (h : execLb ra rb i s = .next t) : Effect (.lb ra rb i) s t := by
  rw [← load_effect _ _ _ _ _ _ h]
  exact .setReg _ _ rfl rfl rfl rfl

theorem execLhu_effect (s t : State) (ra : RegNum) (rb : RegNum) (i : Half)
    (h : execLhu ra rb i s = .next t) : Effect (.lhu ra rb i) s t := by
  rw [← load_effect _ _ _ _ _ _ h]
  exact .setReg _ _ rfl rfl rfl rfl

theorem execLh_effect (s t : State) (ra : RegNum) (rb : RegNum) (i : Half)
    (h : execLh ra rb i s = .next t) : Effect (.lh ra rb i) s t := by
  rw [← load_effect _ _ _ _ _ _ h]
  exact .setReg _ _ rfl rfl rfl rfl

theorem execLw_effect (s t : State) (ra : RegNum) (rb : RegNum) (i : Half)
    (h : execLw ra rb i s = .next t) : Effect (.lw ra rb i) s t := by
  rw [← load_effect _ _ _ _ _ _ h]
  exact .setReg _ _ rfl rfl rfl rfl

theorem execSb_effect (s t : State) (ra : RegNum) (rb : RegNum) (i : Half)
    (h : execSb ra rb i s = .next t) : Effect (.sb ra rb i) s t := by
  rw [← store_effect _ _ _ _ _ h]
  exact .storeByte _ _ _ rfl

theorem execSh_effect (s t : State) (ra : RegNum) (rb : RegNum) (i : Half)
    (h : execSh ra rb i s = .next t) : Effect (.sh ra rb i) s t := by
  rw [← store_effect _ _ _ _ _ h]
  exact .storeHalf _ _ _ rfl

theorem execSw_effect (s t : State) (ra : RegNum) (rb : RegNum) (i : Half)
    (h : execSw ra rb i s = .next t) : Effect (.sw ra rb i) s t := by
  rw [← store_effect _ _ _ _ _ h]
  exact .storeWord _ _ _ rfl

theorem execInpbu_effect (s t : State) (ra : RegNum) (p : PortNum)
    (h : execInpbu ra p s = .next t) : Effect (.inpbu ra p) s t := by
  exact input_effect _ s t _ _ _ h rfl rfl rfl rfl rfl

theorem execInpb_effect (s t : State) (ra : RegNum) (p : PortNum)
    (h : execInpb ra p s = .next t) : Effect (.inpb ra p) s t := by
  exact input_effect _ s t _ _ _ h rfl rfl rfl rfl rfl

theorem execInphu_effect (s t : State) (ra : RegNum) (p : PortNum)
    (h : execInphu ra p s = .next t) : Effect (.inphu ra p) s t := by
  exact input_effect _ s t _ _ _ h rfl rfl rfl rfl rfl

theorem execInph_effect (s t : State) (ra : RegNum) (p : PortNum)
    (h : execInph ra p s = .next t) : Effect (.inph ra p) s t := by
  exact input_effect _ s t _ _ _ h rfl rfl rfl rfl rfl

theorem execInp_effect (s t : State) (ra : RegNum) (p : PortNum)
    (h : execInp ra p s = .next t) : Effect (.inp ra p) s t := by
  exact input_effect _ s t _ _ _ h rfl rfl rfl rfl rfl

theorem execOutpb_effect (s t : State) (ra : RegNum) (p : PortNum)
    (h : execOutpb ra p s = .next t) : Effect (.outpb ra p) s t := by
  injection h with h
  subst h
  exact .output _ _ rfl rfl rfl rfl

theorem execOutph_effect (s t : State) (ra : RegNum) (p : PortNum)
    (h : execOutph ra p s = .next t) : Effect (.outph ra p) s t := by
  injection h with h
  subst h
  exact .output _ _ rfl rfl rfl rfl

theorem execOutp_effect (s t : State) (ra : RegNum) (p : PortNum)
    (h : execOutp ra p s = .next t) : Effect (.outp ra p) s t := by
  injection h with h
  subst h
  exact .output _ _ rfl rfl rfl rfl

theorem execJr_effect (s t : State) (rb : RegNum)
    (h : execJr rb s = .next t) : Effect (.jr rb) s t := by
  unfold execJr at h
  split_ifs at h with h29 <;> (injection h with h; subst h)
  · exact .endLock _ (by rw [h29])
  · exact .jump _ (by simpa using h29) rfl rfl rfl

theorem execJa_effect (s t : State) (ia : BitVec 26)
    (h : execJa ia s = .next t) : Effect (.ja ia) s t := by
  injection h with h
  subst h
  exact .jump _ (by simp) rfl rfl rfl

theorem execJ_effect (s t : State) (ia : BitVec 26)
    (h : execJ ia s = .next t) : Effect (.j ia) s t := by
  injection h with h
  subst h
  exact .jump _ (by simp) rfl rfl rfl

theorem execBz_effect (s t : State) (ra : RegNum) (rb : RegNum)
    (h : execBz ra rb s = .next t) : Effect (.bz ra rb) s t := by
  injection h with h
  exact branch_effect _ s t _ _ h (by simp) rfl rfl rfl

theorem execBzi_effect (s t : State) (ra : RegNum) (ic : BitVec 21)
    (h : execBzi ra ic s = .next t) : Effect (.bzi ra ic) s t := by
  injection h with h
  exact branch_effect _ s t _ _ h (by simp) rfl rfl rfl

theorem execBnz_effect (s t : State) (ra : RegNum) (rb : RegNum)
    (h : execBnz ra rb s = .next t) : Effect (.bnz ra rb) s t := by
  injection h with h
  exact branch_effect _ s t _ _ h (by simp) rfl rfl rfl

theorem execBnzi_effect (s t : State) (ra : RegNum) (ic : BitVec 21)
    (h : execBnzi ra ic s = .next t) : Effect (.bnzi ra ic) s t := by
  injection h with h
  exact branch_effect _ s t _ _ h (by simp) rfl rfl rfl

theorem execNop_effect (s t : State) (h : execNop s = .next t) : Effect .nop s t := by
  injection h with h
  subst h
  exact .stay (by simp) rfl rfl

/-- What an instruction that answers a next state has done. -/
theorem exec_effect (i : Instr) (s t : State) (h : exec i s = .next t) : Effect i s t := by
  cases i with
  | or a b c => exact execOr_effect s t a b c h
  | ori a b c => exact execOri_effect s t a b c h
  | and a b c => exact execAnd_effect s t a b c h
  | andi a b c => exact execAndi_effect s t a b c h
  | xor a b c => exact execXor_effect s t a b c h
  | xori a b c => exact execXori_effect s t a b c h
  | invalid06 _ => cases h
  | invalid07 _ => cases h
  | add a b c => exact execAdd_effect s t a b c h
  | addi a b c => exact execAddi_effect s t a b c h
  | sub a b c => exact execSub_effect s t a b c h
  | subi a b c => exact execSubi_effect s t a b c h
  | mult a b c => exact execMult_effect s t a b c h
  | multi a b c => exact execMulti_effect s t a b c h
  | div a b c d => exact execDiv_effect s t a b c d h
  | divu a b c d => exact execDivu_effect s t a b c d h
  | divi a b c => exact execDivi_effect s t a b c h
  | srav a b c => exact execSrav_effect s t a b c h
  | sra a b c => exact execSra_effect s t a b c h
  | srlv a b c => exact execSrlv_effect s t a b c h
  | srl a b c => exact execSrl_effect s t a b c h
  | sllv a b c => exact execSllv_effect s t a b c h
  | sll a b c => exact execSll_effect s t a b c h
  | sllvDup a b c => exact execSllvDup_effect s t a b c h
  | sllDup a b c => exact execSllDup_effect s t a b c h
  | eq a b c => exact execEq_effect s t a b c h
  | eqi a b c => exact execEqi_effect s t a b c h
  | eqDup a b c => exact execEqDup_effect s t a b c h
  | equi a b c => exact execEqui_effect s t a b c h
  | lt a b c => exact execLt_effect s t a b c h
  | lti a b c => exact execLti_effect s t a b c h
  | ltu a b c => exact execLtu_effect s t a b c h
  | ltui a b c => exact execLtui_effect s t a b c h
  | lbu a b c => exact execLbu_effect s t a b c h
  | lb a b c => exact execLb_effect s t a b c h
  | lhu a b c => exact execLhu_effect s t a b c h
  | lh a b c => exact execLh_effect s t a b c h
  | lw a b c => exact execLw_effect s t a b c h
  | sb a b c => exact execSb_effect s t a b c h
  | sh a b c => exact execSh_effect s t a b c h
  | sw a b c => exact execSw_effect s t a b c h
  | inpbu a b => exact execInpbu_effect s t a b h
  | inpb a b => exact execInpb_effect s t a b h
  | inphu a b => exact execInphu_effect s t a b h
  | inph a b => exact execInph_effect s t a b h
  | inp a b => exact execInp_effect s t a b h
  | outpb a b => exact execOutpb_effect s t a b h
  | outph a b => exact execOutph_effect s t a b h
  | outp a b => exact execOutp_effect s t a b h
  | jr a => exact execJr_effect s t a h
  | ja a => exact execJa_effect s t a h
  | j a => exact execJ_effect s t a h
  | bz a b => exact execBz_effect s t a b h
  | bzi a b => exact execBzi_effect s t a b h
  | bnz a b => exact execBnz_effect s t a b h
  | bnzi a b => exact execBnzi_effect s t a b h
  | nop => exact execNop_effect s t h
  | invalid38 _ => cases h
  | invalid39 _ => cases h
  | invalid3A _ => cases h
  | invalid3B _ => cases h
  | invalid3C _ => cases h
  | invalid3D _ => cases h
  | invalid3E _ => cases h
  | invalid3F _ => cases h

end Sys2Proof.Machine
end

