-- ==== Sys2Proof/Laws/Encoding.lean ====
section
/-! SUPPORT. The fields of a packed instruction word, format by format (`30_encoding.md` R83). -/

namespace Sys2Proof

theorem extract_append_high {m n : Nat} (x : BitVec m) (y : BitVec n) (k l : Nat) (h : n ≤ k) :
    (x ++ y).extractLsb' k l = x.extractLsb' (k - n) l := by
  ext i hi
  rw [BitVec.getElem_extractLsb', BitVec.getElem_extractLsb', BitVec.getLsbD_append, if_neg (by omega)]
  congr 1
  omega

theorem extract_append_low {m n : Nat} (x : BitVec m) (y : BitVec n) (k l : Nat) (h : k + l ≤ n) :
    (x ++ y).extractLsb' k l = y.extractLsb' k l := by
  ext i hi
  rw [BitVec.getElem_extractLsb', BitVec.getElem_extractLsb', BitVec.getLsbD_append, if_pos (by omega)]

@[simp] theorem fieldOp_pack3R (op : BitVec 6) (ra : RegNum) (rb : RegNum) (rc : RegNum) : fieldOp (pack3R op ra rb rc) = op := by
  unfold fieldOp pack3R
  rw [extract_append_high _ _ _ _ (by decide),
    extract_append_high _ _ _ _ (by decide),
    extract_append_high _ _ _ _ (by decide),
    extract_append_high _ _ _ _ (by decide)]
  exact BitVec.extractLsb'_eq_self

@[simp] theorem fieldRA_pack3R (op : BitVec 6) (ra : RegNum) (rb : RegNum) (rc : RegNum) : fieldRA (pack3R op ra rb rc) = ra := by
  unfold fieldRA pack3R
  rw [extract_append_high _ _ _ _ (by decide),
    extract_append_high _ _ _ _ (by decide),
    extract_append_high _ _ _ _ (by decide),
    extract_append_low _ _ _ _ (by decide)]
  exact BitVec.extractLsb'_eq_self

@[simp] theorem fieldRB_pack3R (op : BitVec 6) (ra : RegNum) (rb : RegNum) (rc : RegNum) : fieldRB (pack3R op ra rb rc) = rb := by
  unfold fieldRB pack3R
  rw [extract_append_high _ _ _ _ (by decide),
    extract_append_high _ _ _ _ (by decide),
    extract_append_low _ _ _ _ (by decide)]
  exact BitVec.extractLsb'_eq_self

@[simp] theorem fieldRC_pack3R (op : BitVec 6) (ra : RegNum) (rb : RegNum) (rc : RegNum) : fieldRC (pack3R op ra rb rc) = rc := by
  unfold fieldRC pack3R
  rw [extract_append_high _ _ _ _ (by decide),
    extract_append_low _ _ _ _ (by decide)]
  exact BitVec.extractLsb'_eq_self

@[simp] theorem fieldOp_pack2RI (op : BitVec 6) (ra : RegNum) (rb : RegNum) (i : Half) : fieldOp (pack2RI op ra rb i) = op := by
  unfold fieldOp pack2RI
  rw [extract_append_high _ _ _ _ (by decide),
    extract_append_high _ _ _ _ (by decide),
    extract_append_high _ _ _ _ (by decide)]
  exact BitVec.extractLsb'_eq_self

@[simp] theorem fieldRA_pack2RI (op : BitVec 6) (ra : RegNum) (rb : RegNum) (i : Half) : fieldRA (pack2RI op ra rb i) = ra := by
  unfold fieldRA pack2RI
  rw [extract_append_high _ _ _ _ (by decide),
    extract_append_high _ _ _ _ (by decide),
    extract_append_low _ _ _ _ (by decide)]
  exact BitVec.extractLsb'_eq_self

@[simp] theorem fieldRB_pack2RI (op : BitVec 6) (ra : RegNum) (rb : RegNum) (i : Half) : fieldRB (pack2RI op ra rb i) = rb := by
  unfold fieldRB pack2RI
  rw [extract_append_high _ _ _ _ (by decide),
    extract_append_low _ _ _ _ (by decide)]
  exact BitVec.extractLsb'_eq_self

@[simp] theorem fieldI_pack2RI (op : BitVec 6) (ra : RegNum) (rb : RegNum) (i : Half) : fieldI (pack2RI op ra rb i) = i := by
  unfold fieldI pack2RI
  rw [extract_append_low _ _ _ _ (by decide)]
  exact BitVec.extractLsb'_eq_self

@[simp] theorem fieldOp_pack4RM (op : BitVec 6) (ra : RegNum) (rb : RegNum) (rc : RegNum) (rd : RegNum) (dm : BitVec 1) : fieldOp (pack4RM op ra rb rc rd dm) = op := by
  unfold fieldOp pack4RM
  rw [extract_append_high _ _ _ _ (by decide),
    extract_append_high _ _ _ _ (by decide),
    extract_append_high _ _ _ _ (by decide),
    extract_append_high _ _ _ _ (by decide),
    extract_append_high _ _ _ _ (by decide),
    extract_append_high _ _ _ _ (by decide)]
  exact BitVec.extractLsb'_eq_self

@[simp] theorem fieldRA_pack4RM (op : BitVec 6) (ra : RegNum) (rb : RegNum) (rc : RegNum) (rd : RegNum) (dm : BitVec 1) : fieldRA (pack4RM op ra rb rc rd dm) = ra := by
  unfold fieldRA pack4RM
  rw [extract_append_high _ _ _ _ (by decide),
    extract_append_high _ _ _ _ (by decide),
    extract_append_high _ _ _ _ (by decide),
    extract_append_high _ _ _ _ (by decide),
    extract_append_high _ _ _ _ (by decide),
    extract_append_low _ _ _ _ (by decide)]
  exact BitVec.extractLsb'_eq_self

@[simp] theorem fieldRB_pack4RM (op : BitVec 6) (ra : RegNum) (rb : RegNum) (rc : RegNum) (rd : RegNum) (dm : BitVec 1) : fieldRB (pack4RM op ra rb rc rd dm) = rb := by
  unfold fieldRB pack4RM
  rw [extract_append_high _ _ _ _ (by decide),
    extract_append_high _ _ _ _ (by decide),
    extract_append_high _ _ _ _ (by decide),
    extract_append_high _ _ _ _ (by decide),
    extract_append_low _ _ _ _ (by decide)]
  exact BitVec.extractLsb'_eq_self

@[simp] theorem fieldRC_pack4RM (op : BitVec 6) (ra : RegNum) (rb : RegNum) (rc : RegNum) (rd : RegNum) (dm : BitVec 1) : fieldRC (pack4RM op ra rb rc rd dm) = rc := by
  unfold fieldRC pack4RM
  rw [extract_append_high _ _ _ _ (by decide),
    extract_append_high _ _ _ _ (by decide),
    extract_append_high _ _ _ _ (by decide),
    extract_append_low _ _ _ _ (by decide)]
  exact BitVec.extractLsb'_eq_self

@[simp] theorem fieldRD_pack4RM (op : BitVec 6) (ra : RegNum) (rb : RegNum) (rc : RegNum) (rd : RegNum) (dm : BitVec 1) : fieldRD (pack4RM op ra rb rc rd dm) = rd := by
  unfold fieldRD pack4RM
  rw [extract_append_high _ _ _ _ (by decide),
    extract_append_high _ _ _ _ (by decide),
    extract_append_low _ _ _ _ (by decide)]
  exact BitVec.extractLsb'_eq_self

@[simp] theorem fieldDM_pack4RM (op : BitVec 6) (ra : RegNum) (rb : RegNum) (rc : RegNum) (rd : RegNum) (dm : BitVec 1) : fieldDM (pack4RM op ra rb rc rd dm) = dm := by
  unfold fieldDM pack4RM
  rw [extract_append_low _ _ _ _ (by decide)]
  exact BitVec.extractLsb'_eq_self

@[simp] theorem fieldOp_pack1RP (op : BitVec 6) (ra : RegNum) (p : PortNum) : fieldOp (pack1RP op ra p) = op := by
  unfold fieldOp pack1RP
  rw [extract_append_high _ _ _ _ (by decide),
    extract_append_high _ _ _ _ (by decide),
    extract_append_high _ _ _ _ (by decide)]
  exact BitVec.extractLsb'_eq_self

@[simp] theorem fieldRA_pack1RP (op : BitVec 6) (ra : RegNum) (p : PortNum) : fieldRA (pack1RP op ra p) = ra := by
  unfold fieldRA pack1RP
  rw [extract_append_high _ _ _ _ (by decide),
    extract_append_high _ _ _ _ (by decide),
    extract_append_low _ _ _ _ (by decide)]
  exact BitVec.extractLsb'_eq_self

@[simp] theorem fieldP_pack1RP (op : BitVec 6) (ra : RegNum) (p : PortNum) : fieldP (pack1RP op ra p) = p := by
  unfold fieldP pack1RP
  rw [extract_append_high _ _ _ _ (by decide),
    extract_append_low _ _ _ _ (by decide)]
  exact BitVec.extractLsb'_eq_self

/-- The register field of JR is R_B, the spec's value of `JR_REG_FIELD` (R86, decision D1; log 26). -/
@[simp] theorem fieldJR_eq (w : Word) : fieldJR w = fieldRB w := rfl

theorem pack1R_eq (op : BitVec 6) (rb : RegNum) : pack1R op rb = op ++ 0#5 ++ rb ++ 0#16 := rfl

@[simp] theorem fieldOp_pack1R (op : BitVec 6) (rb : RegNum) : fieldOp (pack1R op rb) = op := by
  rw [pack1R_eq, fieldOp]
  rw [extract_append_high _ _ _ _ (by decide),
    extract_append_high _ _ _ _ (by decide),
    extract_append_high _ _ _ _ (by decide)]
  exact BitVec.extractLsb'_eq_self

@[simp] theorem fieldRB_pack1R (op : BitVec 6) (rb : RegNum) : fieldRB (pack1R op rb) = rb := by
  rw [pack1R_eq, fieldRB]
  rw [extract_append_high _ _ _ _ (by decide),
    extract_append_low _ _ _ _ (by decide)]
  exact BitVec.extractLsb'_eq_self

@[simp] theorem fieldOp_packIA (op : BitVec 6) (ia : BitVec 26) : fieldOp (packIA op ia) = op := by
  unfold fieldOp packIA
  rw [extract_append_high _ _ _ _ (by decide)]
  exact BitVec.extractLsb'_eq_self

@[simp] theorem fieldIA_packIA (op : BitVec 6) (ia : BitVec 26) : fieldIA (packIA op ia) = ia := by
  unfold fieldIA packIA
  rw [extract_append_low _ _ _ _ (by decide)]
  exact BitVec.extractLsb'_eq_self

@[simp] theorem fieldOp_pack2R (op : BitVec 6) (ra : RegNum) (rb : RegNum) : fieldOp (pack2R op ra rb) = op := by
  unfold fieldOp pack2R
  rw [extract_append_high _ _ _ _ (by decide),
    extract_append_high _ _ _ _ (by decide),
    extract_append_high _ _ _ _ (by decide)]
  exact BitVec.extractLsb'_eq_self

@[simp] theorem fieldRA_pack2R (op : BitVec 6) (ra : RegNum) (rb : RegNum) : fieldRA (pack2R op ra rb) = ra := by
  unfold fieldRA pack2R
  rw [extract_append_high _ _ _ _ (by decide),
    extract_append_high _ _ _ _ (by decide),
    extract_append_low _ _ _ _ (by decide)]
  exact BitVec.extractLsb'_eq_self

@[simp] theorem fieldRB_pack2R (op : BitVec 6) (ra : RegNum) (rb : RegNum) : fieldRB (pack2R op ra rb) = rb := by
  unfold fieldRB pack2R
  rw [extract_append_high _ _ _ _ (by decide),
    extract_append_low _ _ _ _ (by decide)]
  exact BitVec.extractLsb'_eq_self

@[simp] theorem fieldOp_pack1RI (op : BitVec 6) (ra : RegNum) (ic : BitVec 21) : fieldOp (pack1RI op ra ic) = op := by
  unfold fieldOp pack1RI
  rw [extract_append_high _ _ _ _ (by decide),
    extract_append_high _ _ _ _ (by decide)]
  exact BitVec.extractLsb'_eq_self

@[simp] theorem fieldRA_pack1RI (op : BitVec 6) (ra : RegNum) (ic : BitVec 21) : fieldRA (pack1RI op ra ic) = ra := by
  unfold fieldRA pack1RI
  rw [extract_append_high _ _ _ _ (by decide),
    extract_append_low _ _ _ _ (by decide)]
  exact BitVec.extractLsb'_eq_self

@[simp] theorem fieldIC_pack1RI (op : BitVec 6) (ra : RegNum) (ic : BitVec 21) : fieldIC (pack1RI op ra ic) = ic := by
  unfold fieldIC pack1RI
  rw [extract_append_low _ _ _ _ (by decide)]
  exact BitVec.extractLsb'_eq_self

end Sys2Proof
end

