-- ==== Sys2Proof/Laws/PerInstr.lean ====
section
/-! SUPPORT. Lemma families over the constructors of `Instr`. -/

namespace Sys2Proof.Laws

/-- The opcode field of an instruction's word is the opcode of its row (`30_encoding.md` R80, R88). -/
def EncodedOpcode.Statement (i : Instr) : Prop := fieldOp (encode i) = i.opcode

theorem EncodedOpcode.or (ra rb rc : RegNum) : EncodedOpcode.Statement (.or ra rb rc) :=
  fieldOp_pack3R _ _ _ _

theorem EncodedOpcode.ori (ra rb : RegNum) (i : Half) : EncodedOpcode.Statement (.ori ra rb i) :=
  fieldOp_pack2RI _ _ _ _

theorem EncodedOpcode.and (ra rb rc : RegNum) : EncodedOpcode.Statement (.and ra rb rc) :=
  fieldOp_pack3R _ _ _ _

theorem EncodedOpcode.andi (ra rb : RegNum) (i : Half) : EncodedOpcode.Statement (.andi ra rb i) :=
  fieldOp_pack2RI _ _ _ _

theorem EncodedOpcode.xor (ra rb rc : RegNum) : EncodedOpcode.Statement (.xor ra rb rc) :=
  fieldOp_pack3R _ _ _ _

theorem EncodedOpcode.xori (ra rb : RegNum) (i : Half) : EncodedOpcode.Statement (.xori ra rb i) :=
  fieldOp_pack2RI _ _ _ _

theorem EncodedOpcode.invalid06 (low : BitVec 26) : EncodedOpcode.Statement (.invalid06 low) :=
  fieldOp_packIA _ _

theorem EncodedOpcode.invalid07 (low : BitVec 26) : EncodedOpcode.Statement (.invalid07 low) :=
  fieldOp_packIA _ _

theorem EncodedOpcode.add (ra rb rc : RegNum) : EncodedOpcode.Statement (.add ra rb rc) :=
  fieldOp_pack3R _ _ _ _

theorem EncodedOpcode.addi (ra rb : RegNum) (i : Half) : EncodedOpcode.Statement (.addi ra rb i) :=
  fieldOp_pack2RI _ _ _ _

theorem EncodedOpcode.sub (ra rb rc : RegNum) : EncodedOpcode.Statement (.sub ra rb rc) :=
  fieldOp_pack3R _ _ _ _

theorem EncodedOpcode.subi (ra rb : RegNum) (i : Half) : EncodedOpcode.Statement (.subi ra rb i) :=
  fieldOp_pack2RI _ _ _ _

theorem EncodedOpcode.mult (ra rb rc : RegNum) : EncodedOpcode.Statement (.mult ra rb rc) :=
  fieldOp_pack3R _ _ _ _

theorem EncodedOpcode.multi (ra rb : RegNum) (i : Half) : EncodedOpcode.Statement (.multi ra rb i) :=
  fieldOp_pack2RI _ _ _ _

theorem EncodedOpcode.div (ra rb rc rd : RegNum) : EncodedOpcode.Statement (.div ra rb rc rd) :=
  fieldOp_pack4RM _ _ _ _ _ _

theorem EncodedOpcode.divu (ra rb rc rd : RegNum) : EncodedOpcode.Statement (.divu ra rb rc rd) :=
  fieldOp_pack4RM _ _ _ _ _ _

theorem EncodedOpcode.divi (ra rb : RegNum) (i : Half) : EncodedOpcode.Statement (.divi ra rb i) :=
  fieldOp_pack2RI _ _ _ _

theorem EncodedOpcode.srav (ra rb rc : RegNum) : EncodedOpcode.Statement (.srav ra rb rc) :=
  fieldOp_pack3R _ _ _ _

theorem EncodedOpcode.sra (ra rb : RegNum) (i : Half) : EncodedOpcode.Statement (.sra ra rb i) :=
  fieldOp_pack2RI _ _ _ _

theorem EncodedOpcode.srlv (ra rb rc : RegNum) : EncodedOpcode.Statement (.srlv ra rb rc) :=
  fieldOp_pack3R _ _ _ _

theorem EncodedOpcode.srl (ra rb : RegNum) (i : Half) : EncodedOpcode.Statement (.srl ra rb i) :=
  fieldOp_pack2RI _ _ _ _

theorem EncodedOpcode.sllv (ra rb rc : RegNum) : EncodedOpcode.Statement (.sllv ra rb rc) :=
  fieldOp_pack3R _ _ _ _

theorem EncodedOpcode.sll (ra rb : RegNum) (i : Half) : EncodedOpcode.Statement (.sll ra rb i) :=
  fieldOp_pack2RI _ _ _ _

theorem EncodedOpcode.sllvDup (ra rb rc : RegNum) : EncodedOpcode.Statement (.sllvDup ra rb rc) :=
  fieldOp_pack3R _ _ _ _

theorem EncodedOpcode.sllDup (ra rb : RegNum) (i : Half) : EncodedOpcode.Statement (.sllDup ra rb i) :=
  fieldOp_pack2RI _ _ _ _

theorem EncodedOpcode.eq (ra rb rc : RegNum) : EncodedOpcode.Statement (.eq ra rb rc) :=
  fieldOp_pack3R _ _ _ _

theorem EncodedOpcode.eqi (ra rb : RegNum) (i : Half) : EncodedOpcode.Statement (.eqi ra rb i) :=
  fieldOp_pack2RI _ _ _ _

theorem EncodedOpcode.eqDup (ra rb rc : RegNum) : EncodedOpcode.Statement (.eqDup ra rb rc) :=
  fieldOp_pack3R _ _ _ _

theorem EncodedOpcode.equi (ra rb : RegNum) (i : Half) : EncodedOpcode.Statement (.equi ra rb i) :=
  fieldOp_pack2RI _ _ _ _

theorem EncodedOpcode.lt (ra rb rc : RegNum) : EncodedOpcode.Statement (.lt ra rb rc) :=
  fieldOp_pack3R _ _ _ _

theorem EncodedOpcode.lti (ra rb : RegNum) (i : Half) : EncodedOpcode.Statement (.lti ra rb i) :=
  fieldOp_pack2RI _ _ _ _

theorem EncodedOpcode.ltu (ra rb rc : RegNum) : EncodedOpcode.Statement (.ltu ra rb rc) :=
  fieldOp_pack3R _ _ _ _

theorem EncodedOpcode.ltui (ra rb : RegNum) (i : Half) : EncodedOpcode.Statement (.ltui ra rb i) :=
  fieldOp_pack2RI _ _ _ _

theorem EncodedOpcode.lbu (ra rb : RegNum) (i : Half) : EncodedOpcode.Statement (.lbu ra rb i) :=
  fieldOp_pack2RI _ _ _ _

theorem EncodedOpcode.lb (ra rb : RegNum) (i : Half) : EncodedOpcode.Statement (.lb ra rb i) :=
  fieldOp_pack2RI _ _ _ _

theorem EncodedOpcode.lhu (ra rb : RegNum) (i : Half) : EncodedOpcode.Statement (.lhu ra rb i) :=
  fieldOp_pack2RI _ _ _ _

theorem EncodedOpcode.lh (ra rb : RegNum) (i : Half) : EncodedOpcode.Statement (.lh ra rb i) :=
  fieldOp_pack2RI _ _ _ _

theorem EncodedOpcode.lw (ra rb : RegNum) (i : Half) : EncodedOpcode.Statement (.lw ra rb i) :=
  fieldOp_pack2RI _ _ _ _

theorem EncodedOpcode.sb (ra rb : RegNum) (i : Half) : EncodedOpcode.Statement (.sb ra rb i) :=
  fieldOp_pack2RI _ _ _ _

theorem EncodedOpcode.sh (ra rb : RegNum) (i : Half) : EncodedOpcode.Statement (.sh ra rb i) :=
  fieldOp_pack2RI _ _ _ _

theorem EncodedOpcode.sw (ra rb : RegNum) (i : Half) : EncodedOpcode.Statement (.sw ra rb i) :=
  fieldOp_pack2RI _ _ _ _

theorem EncodedOpcode.inpbu (ra : RegNum) (p : PortNum) : EncodedOpcode.Statement (.inpbu ra p) :=
  fieldOp_pack1RP _ _ _

theorem EncodedOpcode.inpb (ra : RegNum) (p : PortNum) : EncodedOpcode.Statement (.inpb ra p) :=
  fieldOp_pack1RP _ _ _

theorem EncodedOpcode.inphu (ra : RegNum) (p : PortNum) : EncodedOpcode.Statement (.inphu ra p) :=
  fieldOp_pack1RP _ _ _

theorem EncodedOpcode.inph (ra : RegNum) (p : PortNum) : EncodedOpcode.Statement (.inph ra p) :=
  fieldOp_pack1RP _ _ _

theorem EncodedOpcode.inp (ra : RegNum) (p : PortNum) : EncodedOpcode.Statement (.inp ra p) :=
  fieldOp_pack1RP _ _ _

theorem EncodedOpcode.outpb (ra : RegNum) (p : PortNum) : EncodedOpcode.Statement (.outpb ra p) :=
  fieldOp_pack1RP _ _ _

theorem EncodedOpcode.outph (ra : RegNum) (p : PortNum) : EncodedOpcode.Statement (.outph ra p) :=
  fieldOp_pack1RP _ _ _

theorem EncodedOpcode.outp (ra : RegNum) (p : PortNum) : EncodedOpcode.Statement (.outp ra p) :=
  fieldOp_pack1RP _ _ _

theorem EncodedOpcode.jr (rb : RegNum) : EncodedOpcode.Statement (.jr rb) :=
  fieldOp_pack1R _ _

theorem EncodedOpcode.ja (ia : BitVec 26) : EncodedOpcode.Statement (.ja ia) :=
  fieldOp_packIA _ _

theorem EncodedOpcode.j (ia : BitVec 26) : EncodedOpcode.Statement (.j ia) :=
  fieldOp_packIA _ _

theorem EncodedOpcode.bz (ra rb : RegNum) : EncodedOpcode.Statement (.bz ra rb) :=
  fieldOp_pack2R _ _ _

theorem EncodedOpcode.bzi (ra : RegNum) (ic : BitVec 21) : EncodedOpcode.Statement (.bzi ra ic) :=
  fieldOp_pack1RI _ _ _

theorem EncodedOpcode.bnz (ra rb : RegNum) : EncodedOpcode.Statement (.bnz ra rb) :=
  fieldOp_pack2R _ _ _

theorem EncodedOpcode.bnzi (ra : RegNum) (ic : BitVec 21) : EncodedOpcode.Statement (.bnzi ra ic) :=
  fieldOp_pack1RI _ _ _

theorem EncodedOpcode.nop : EncodedOpcode.Statement (.nop) :=
  fieldOp_packIA _ _

theorem EncodedOpcode.invalid38 (low : BitVec 26) : EncodedOpcode.Statement (.invalid38 low) :=
  fieldOp_packIA _ _

theorem EncodedOpcode.invalid39 (low : BitVec 26) : EncodedOpcode.Statement (.invalid39 low) :=
  fieldOp_packIA _ _

theorem EncodedOpcode.invalid3A (low : BitVec 26) : EncodedOpcode.Statement (.invalid3A low) :=
  fieldOp_packIA _ _

theorem EncodedOpcode.invalid3B (low : BitVec 26) : EncodedOpcode.Statement (.invalid3B low) :=
  fieldOp_packIA _ _

theorem EncodedOpcode.invalid3C (low : BitVec 26) : EncodedOpcode.Statement (.invalid3C low) :=
  fieldOp_packIA _ _

theorem EncodedOpcode.invalid3D (low : BitVec 26) : EncodedOpcode.Statement (.invalid3D low) :=
  fieldOp_packIA _ _

theorem EncodedOpcode.invalid3E (low : BitVec 26) : EncodedOpcode.Statement (.invalid3E low) :=
  fieldOp_packIA _ _

theorem EncodedOpcode.invalid3F (low : BitVec 26) : EncodedOpcode.Statement (.invalid3F low) :=
  fieldOp_packIA _ _

end Sys2Proof.Laws
end

