-- ==== Sys2Proof/Laws/Words.lean ====
section
/-! SUPPORT. The fields of a word written as the spec writes its format, `op<<26 | RA<<21 | …` (`30_encoding.md` R81,
R83), and its equality with the encoder's packing. -/

namespace Sys2Proof.Machine

theorem toNat_field (w : Word) (k l : Nat) : (w.extractLsb' k l).toNat = w.toNat / 2 ^ k % 2 ^ l := by
  rw [BitVec.extractLsb'_toNat, Nat.shiftRight_eq_div_pow]

theorem toNat_append_add {m n : Nat} (x : BitVec m) (y : BitVec n) : (x ++ y).toNat = x.toNat * 2 ^ n + y.toNat := by
  rw [BitVec.toNat_append, ← Nat.shiftLeft_add_eq_or_of_lt y.isLt, Nat.shiftLeft_eq]

@[simp] theorem fieldOp_word3R (op : BitVec 6) (ra rb rc : RegNum) (u : BitVec 11) : fieldOp (word3R op.toNat ra rb rc u) = op := by
  apply BitVec.eq_of_toNat_eq
  have hop := op.isLt
  have hra := ra.isLt
  have hrb := rb.isLt
  have hrc := rc.isLt
  have hu := u.isLt
  simp only [fieldOp, toNat_field, word3R, BitVec.toNat_ofNat]
  omega

@[simp] theorem fieldRA_word3R (op : Nat) (ra rb rc : RegNum) (u : BitVec 11) : fieldRA (word3R op ra rb rc u) = ra := by
  apply BitVec.eq_of_toNat_eq
  have hra := ra.isLt
  have hrb := rb.isLt
  have hrc := rc.isLt
  have hu := u.isLt
  simp only [fieldRA, toNat_field, word3R, BitVec.toNat_ofNat]
  omega

@[simp] theorem fieldRB_word3R (op : Nat) (ra rb rc : RegNum) (u : BitVec 11) : fieldRB (word3R op ra rb rc u) = rb := by
  apply BitVec.eq_of_toNat_eq
  have hra := ra.isLt
  have hrb := rb.isLt
  have hrc := rc.isLt
  have hu := u.isLt
  simp only [fieldRB, toNat_field, word3R, BitVec.toNat_ofNat]
  omega

@[simp] theorem fieldRC_word3R (op : Nat) (ra rb rc : RegNum) (u : BitVec 11) : fieldRC (word3R op ra rb rc u) = rc := by
  apply BitVec.eq_of_toNat_eq
  have hra := ra.isLt
  have hrb := rb.isLt
  have hrc := rc.isLt
  have hu := u.isLt
  simp only [fieldRC, toNat_field, word3R, BitVec.toNat_ofNat]
  omega

@[simp] theorem fieldOp_word2RI (op : BitVec 6) (ra rb : RegNum) (i : Half) : fieldOp (word2RI op.toNat ra rb i) = op := by
  apply BitVec.eq_of_toNat_eq
  have hop := op.isLt
  have hra := ra.isLt
  have hrb := rb.isLt
  have hi := i.isLt
  simp only [fieldOp, toNat_field, word2RI, BitVec.toNat_ofNat]
  omega

@[simp] theorem fieldRA_word2RI (op : Nat) (ra rb : RegNum) (i : Half) : fieldRA (word2RI op ra rb i) = ra := by
  apply BitVec.eq_of_toNat_eq
  have hra := ra.isLt
  have hrb := rb.isLt
  have hi := i.isLt
  simp only [fieldRA, toNat_field, word2RI, BitVec.toNat_ofNat]
  omega

@[simp] theorem fieldRB_word2RI (op : Nat) (ra rb : RegNum) (i : Half) : fieldRB (word2RI op ra rb i) = rb := by
  apply BitVec.eq_of_toNat_eq
  have hra := ra.isLt
  have hrb := rb.isLt
  have hi := i.isLt
  simp only [fieldRB, toNat_field, word2RI, BitVec.toNat_ofNat]
  omega

@[simp] theorem fieldI_word2RI (op : Nat) (ra rb : RegNum) (i : Half) : fieldI (word2RI op ra rb i) = i := by
  apply BitVec.eq_of_toNat_eq
  have hra := ra.isLt
  have hrb := rb.isLt
  have hi := i.isLt
  simp only [fieldI, toNat_field, word2RI, BitVec.toNat_ofNat]
  omega

@[simp] theorem fieldOp_word2R (op : BitVec 6) (ra rb : RegNum) (u : Half) : fieldOp (word2R op.toNat ra rb u) = op := by
  apply BitVec.eq_of_toNat_eq
  have hop := op.isLt
  have hra := ra.isLt
  have hrb := rb.isLt
  have hu := u.isLt
  simp only [fieldOp, toNat_field, word2R, BitVec.toNat_ofNat]
  omega

@[simp] theorem fieldRA_word2R (op : Nat) (ra rb : RegNum) (u : Half) : fieldRA (word2R op ra rb u) = ra := by
  apply BitVec.eq_of_toNat_eq
  have hra := ra.isLt
  have hrb := rb.isLt
  have hu := u.isLt
  simp only [fieldRA, toNat_field, word2R, BitVec.toNat_ofNat]
  omega

@[simp] theorem fieldRB_word2R (op : Nat) (ra rb : RegNum) (u : Half) : fieldRB (word2R op ra rb u) = rb := by
  apply BitVec.eq_of_toNat_eq
  have hra := ra.isLt
  have hrb := rb.isLt
  have hu := u.isLt
  simp only [fieldRB, toNat_field, word2R, BitVec.toNat_ofNat]
  omega

@[simp] theorem fieldP_word2R (op : Nat) (ra rb : RegNum) (u : Half) : fieldP (word2R op ra rb u) = rb := by
  apply BitVec.eq_of_toNat_eq
  have hra := ra.isLt
  have hrb := rb.isLt
  have hu := u.isLt
  simp only [fieldP, toNat_field, word2R, BitVec.toNat_ofNat]
  omega

@[simp] theorem fieldOp_wordIA (op : BitVec 6) (ia : BitVec 26) : fieldOp (wordIA op.toNat ia) = op := by
  apply BitVec.eq_of_toNat_eq
  have hop := op.isLt
  have hia := ia.isLt
  simp only [fieldOp, toNat_field, wordIA, BitVec.toNat_ofNat]
  omega

@[simp] theorem fieldIA_wordIA (op : Nat) (ia : BitVec 26) : fieldIA (wordIA op ia) = ia := by
  apply BitVec.eq_of_toNat_eq
  have hia := ia.isLt
  simp only [fieldIA, toNat_field, wordIA, BitVec.toNat_ofNat]
  omega

@[simp] theorem fieldOp_word1RI (op : BitVec 6) (ra : RegNum) (ic : BitVec 21) : fieldOp (word1RI op.toNat ra ic) = op := by
  apply BitVec.eq_of_toNat_eq
  have hop := op.isLt
  have hra := ra.isLt
  have hic := ic.isLt
  simp only [fieldOp, toNat_field, word1RI, BitVec.toNat_ofNat]
  omega

@[simp] theorem fieldRA_word1RI (op : Nat) (ra : RegNum) (ic : BitVec 21) : fieldRA (word1RI op ra ic) = ra := by
  apply BitVec.eq_of_toNat_eq
  have hra := ra.isLt
  have hic := ic.isLt
  simp only [fieldRA, toNat_field, word1RI, BitVec.toNat_ofNat]
  omega

@[simp] theorem fieldIC_word1RI (op : Nat) (ra : RegNum) (ic : BitVec 21) : fieldIC (word1RI op ra ic) = ic := by
  apply BitVec.eq_of_toNat_eq
  have hra := ra.isLt
  have hic := ic.isLt
  simp only [fieldIC, toNat_field, word1RI, BitVec.toNat_ofNat]
  omega

@[simp] theorem fieldOp_word4RM (op : BitVec 6) (ra rb rc rd : RegNum) (u : BitVec 5) (dm : BitVec 1) :
    fieldOp (word4RM op.toNat ra rb rc rd u dm.toNat) = op := by
  apply BitVec.eq_of_toNat_eq
  have hop := op.isLt
  have hra := ra.isLt
  have hrb := rb.isLt
  have hrc := rc.isLt
  have hrd := rd.isLt
  have hu := u.isLt
  have hdm := dm.isLt
  simp only [fieldOp, toNat_field, word4RM, BitVec.toNat_ofNat]
  omega

@[simp] theorem fieldRA_word4RM (op : Nat) (ra rb rc rd : RegNum) (u : BitVec 5) (dm : BitVec 1) :
    fieldRA (word4RM op ra rb rc rd u dm.toNat) = ra := by
  apply BitVec.eq_of_toNat_eq
  have hra := ra.isLt
  have hrb := rb.isLt
  have hrc := rc.isLt
  have hrd := rd.isLt
  have hu := u.isLt
  have hdm := dm.isLt
  simp only [fieldRA, toNat_field, word4RM, BitVec.toNat_ofNat]
  omega

@[simp] theorem fieldRB_word4RM (op : Nat) (ra rb rc rd : RegNum) (u : BitVec 5) (dm : BitVec 1) :
    fieldRB (word4RM op ra rb rc rd u dm.toNat) = rb := by
  apply BitVec.eq_of_toNat_eq
  have hra := ra.isLt
  have hrb := rb.isLt
  have hrc := rc.isLt
  have hrd := rd.isLt
  have hu := u.isLt
  have hdm := dm.isLt
  simp only [fieldRB, toNat_field, word4RM, BitVec.toNat_ofNat]
  omega

@[simp] theorem fieldRC_word4RM (op : Nat) (ra rb rc rd : RegNum) (u : BitVec 5) (dm : BitVec 1) :
    fieldRC (word4RM op ra rb rc rd u dm.toNat) = rc := by
  apply BitVec.eq_of_toNat_eq
  have hra := ra.isLt
  have hrb := rb.isLt
  have hrc := rc.isLt
  have hrd := rd.isLt
  have hu := u.isLt
  have hdm := dm.isLt
  simp only [fieldRC, toNat_field, word4RM, BitVec.toNat_ofNat]
  omega

@[simp] theorem fieldRD_word4RM (op : Nat) (ra rb rc rd : RegNum) (u : BitVec 5) (dm : BitVec 1) :
    fieldRD (word4RM op ra rb rc rd u dm.toNat) = rd := by
  apply BitVec.eq_of_toNat_eq
  have hra := ra.isLt
  have hrb := rb.isLt
  have hrc := rc.isLt
  have hrd := rd.isLt
  have hu := u.isLt
  have hdm := dm.isLt
  simp only [fieldRD, toNat_field, word4RM, BitVec.toNat_ofNat]
  omega

@[simp] theorem fieldDM_word4RM (op : Nat) (ra rb rc rd : RegNum) (u : BitVec 5) (dm : BitVec 1) :
    fieldDM (word4RM op ra rb rc rd u dm.toNat) = dm := by
  apply BitVec.eq_of_toNat_eq
  have hra := ra.isLt
  have hrb := rb.isLt
  have hrc := rc.isLt
  have hrd := rd.isLt
  have hu := u.isLt
  have hdm := dm.isLt
  simp only [fieldDM, toNat_field, word4RM, BitVec.toNat_ofNat]
  omega

theorem pack3R_eq_word3R (op : BitVec 6) (ra rb rc : RegNum) : pack3R op ra rb rc = word3R op.toNat ra rb rc 0#11 := by
  apply BitVec.eq_of_toNat_eq
  have hop := op.isLt
  have hra := ra.isLt
  have hrb := rb.isLt
  have hrc := rc.isLt
  unfold pack3R word3R
  rw [toNat_append_add, toNat_append_add, toNat_append_add, toNat_append_add]
  simp only [BitVec.toNat_ofNat]
  omega

theorem pack2RI_eq_word2RI (op : BitVec 6) (ra rb : RegNum) (i : Half) : pack2RI op ra rb i = word2RI op.toNat ra rb i := by
  apply BitVec.eq_of_toNat_eq
  have hop := op.isLt
  have hra := ra.isLt
  have hrb := rb.isLt
  have hi := i.isLt
  unfold pack2RI word2RI
  rw [toNat_append_add, toNat_append_add, toNat_append_add]
  simp only [BitVec.toNat_ofNat]
  omega

theorem pack4RM_eq_word4RM (op : BitVec 6) (ra rb rc rd : RegNum) (dm : BitVec 1) : pack4RM op ra rb rc rd dm = word4RM op.toNat ra rb rc rd 0#5 dm.toNat := by
  apply BitVec.eq_of_toNat_eq
  have hop := op.isLt
  have hra := ra.isLt
  have hrb := rb.isLt
  have hrc := rc.isLt
  have hrd := rd.isLt
  have hdm := dm.isLt
  unfold pack4RM word4RM
  rw [toNat_append_add, toNat_append_add, toNat_append_add, toNat_append_add, toNat_append_add, toNat_append_add]
  simp only [BitVec.toNat_ofNat]
  omega

theorem pack1RP_eq_word2R (op : BitVec 6) (ra : RegNum) (p : PortNum) : pack1RP op ra p = word2R op.toNat ra p 0#16 := by
  apply BitVec.eq_of_toNat_eq
  have hop := op.isLt
  have hra := ra.isLt
  have hp := p.isLt
  unfold pack1RP word2R
  rw [toNat_append_add, toNat_append_add, toNat_append_add]
  simp only [BitVec.toNat_ofNat]
  omega

theorem pack1R_eq_word2R (op : BitVec 6) (rb : RegNum) : pack1R op rb = word2R op.toNat 0#5 rb 0#16 := by
  apply BitVec.eq_of_toNat_eq
  have hop := op.isLt
  have hrb := rb.isLt
  rw [pack1R_eq, word2R]
  rw [toNat_append_add, toNat_append_add, toNat_append_add]
  simp only [BitVec.toNat_ofNat]
  omega

theorem packIA_eq_wordIA (op : BitVec 6) (ia : BitVec 26) : packIA op ia = wordIA op.toNat ia := by
  apply BitVec.eq_of_toNat_eq
  have hop := op.isLt
  have hia := ia.isLt
  unfold packIA wordIA
  rw [toNat_append_add]
  simp only [BitVec.toNat_ofNat]
  omega

theorem pack2R_eq_word2R (op : BitVec 6) (ra rb : RegNum) : pack2R op ra rb = word2R op.toNat ra rb 0#16 := by
  apply BitVec.eq_of_toNat_eq
  have hop := op.isLt
  have hra := ra.isLt
  have hrb := rb.isLt
  unfold pack2R word2R
  rw [toNat_append_add, toNat_append_add, toNat_append_add]
  simp only [BitVec.toNat_ofNat]
  omega

theorem pack1RI_eq_word1RI (op : BitVec 6) (ra : RegNum) (ic : BitVec 21) : pack1RI op ra ic = word1RI op.toNat ra ic := by
  apply BitVec.eq_of_toNat_eq
  have hop := op.isLt
  have hra := ra.isLt
  have hic := ic.isLt
  unfold pack1RI word1RI
  rw [toNat_append_add, toNat_append_add]
  simp only [BitVec.toNat_ofNat]
  omega

end Sys2Proof.Machine
end

