-- ==== Sys2Proof/Tests/Slice0.lean ====
section
/-! SUPPORT. The model's own tests: ill-formed terms that WellFormed refuses, a word of every row written out from the
spec's encoding, single steps on small states with results from the spec's examples, and a witness for the hypotheses of
every statement. -/

namespace Sys2Proof.Machine.Tests

/-- Reset with some registers set. -/
def regs (l : List (RegNum × Word)) : State := l.foldl (fun s p => s.setReg p.1 p.2) State.reset

/-- A state with some bytes stored. -/
def bytes (s : State) (l : List (Word × Byte)) : State := l.foldl (fun s p => s.pokeByte p.1 p.2) s

/-- What a register holds after an instruction that completes. -/
def regAfter (i : Instr) (s : State) (r : RegNum) : Option Word :=
  match exec i s with
  | .next t => some (t.reg r)
  | _ => none

/-- What a byte of memory holds after an instruction that completes. -/
def byteAfter (i : Instr) (s : State) (a : Word) : Option Byte :=
  match exec i s with
  | .next t => some (t.peekByte a)
  | _ => none

/-- What a function of the next state gives after a step. -/
def afterStep {α : Type} (s : State) (f : State → α) : Option α :=
  match step s with
  | .next t => some (f t)
  | _ => none

/-- The fault of a step. -/
def faultOf (s : State) : Option Fault :=
  match step s with
  | .fault f => some f
  | _ => none

/-! ### WellFormed refuses each invalid opcode (`30_encoding.md` R91) -/

theorem test_illformed_06 : ¬ (Instr.invalid06 0#26).WellFormed := by decide
theorem test_illformed_07 : ¬ (Instr.invalid07 0#26).WellFormed := by decide
theorem test_illformed_38 : ¬ (Instr.invalid38 0#26).WellFormed := by decide
theorem test_illformed_39 : ¬ (Instr.invalid39 0#26).WellFormed := by decide
theorem test_illformed_3A : ¬ (Instr.invalid3A 0#26).WellFormed := by decide
theorem test_illformed_3B : ¬ (Instr.invalid3B 0#26).WellFormed := by decide
theorem test_illformed_3C : ¬ (Instr.invalid3C 0#26).WellFormed := by decide
theorem test_illformed_3D : ¬ (Instr.invalid3D 0#26).WellFormed := by decide
theorem test_illformed_3E : ¬ (Instr.invalid3E 0#26).WellFormed := by decide
theorem test_illformed_3F : ¬ (Instr.invalid3F 0#26).WellFormed := by decide
theorem test_wellformed_or : (Instr.or 0#5 0#5 0#5).WellFormed := by decide

/-! ### Decoding: a word of every row, written out from the examples of the spec's rules and `30_encoding.md` R88 -/

theorem test_decode_logical :
    decodeWord 0x00611000#32 = .or 3#5 1#5 2#5 ∧
    decodeWord 0x04618001#32 = .ori 3#5 1#5 0x8001#16 ∧
    decodeWord 0x08611000#32 = .and 3#5 1#5 2#5 ∧
    decodeWord 0x0C61FF00#32 = .andi 3#5 1#5 0xFF00#16 ∧
    decodeWord 0x10611000#32 = .xor 3#5 1#5 2#5 ∧
    decodeWord 0x1461FFFF#32 = .xori 3#5 1#5 0xFFFF#16 := by decide

theorem test_decode_invalid_low :
    decodeWord 0x1BFFFFFF#32 = .invalid06 0x3FFFFFF#26 ∧
    decodeWord 0x1C000001#32 = .invalid07 1#26 := by decide

theorem test_decode_arithmetic :
    decodeWord 0x20611000#32 = .add 3#5 1#5 2#5 ∧
    decodeWord 0x2461FFFF#32 = .addi 3#5 1#5 0xFFFF#16 ∧
    decodeWord 0x28611000#32 = .sub 3#5 1#5 2#5 ∧
    decodeWord 0x2C610001#32 = .subi 3#5 1#5 1#16 ∧
    decodeWord 0x30611000#32 = .mult 3#5 1#5 2#5 ∧
    decodeWord 0x3461FFFE#32 = .multi 3#5 1#5 0xFFFE#16 := by decide

theorem test_decode_division :
    decodeWord 0x38611101#32 = .div 3#5 1#5 2#5 4#5 ∧
    decodeWord 0x38611100#32 = .divu 3#5 1#5 2#5 4#5 ∧
    decodeWord 0x3C610007#32 = .divi 3#5 1#5 7#16 := by decide

theorem test_decode_shift :
    decodeWord 0x40611000#32 = .srav 3#5 1#5 2#5 ∧
    decodeWord 0x44610004#32 = .sra 3#5 1#5 4#16 ∧
    decodeWord 0x48611000#32 = .srlv 3#5 1#5 2#5 ∧
    decodeWord 0x4C610004#32 = .srl 3#5 1#5 4#16 ∧
    decodeWord 0x50611000#32 = .sllv 3#5 1#5 2#5 ∧
    decodeWord 0x54610008#32 = .sll 3#5 1#5 8#16 ∧
    decodeWord 0x58611000#32 = .sllvDup 3#5 1#5 2#5 ∧
    decodeWord 0x5C610008#32 = .sllDup 3#5 1#5 8#16 := by decide

theorem test_decode_relational :
    decodeWord 0x60611000#32 = .eq 3#5 1#5 2#5 ∧
    decodeWord 0x6461FFFF#32 = .eqi 3#5 1#5 0xFFFF#16 ∧
    decodeWord 0x68611000#32 = .eqDup 3#5 1#5 2#5 ∧
    decodeWord 0x6C61FFFF#32 = .equi 3#5 1#5 0xFFFF#16 ∧
    decodeWord 0x70611000#32 = .lt 3#5 1#5 2#5 ∧
    decodeWord 0x7461FFFF#32 = .lti 3#5 1#5 0xFFFF#16 ∧
    decodeWord 0x78611000#32 = .ltu 3#5 1#5 2#5 ∧
    decodeWord 0x7C61FFFF#32 = .ltui 3#5 1#5 0xFFFF#16 := by decide

theorem test_decode_load_store :
    decodeWord 0x80610002#32 = .lbu 3#5 1#5 2#16 ∧
    decodeWord 0x84610002#32 = .lb 3#5 1#5 2#16 ∧
    decodeWord 0x88610002#32 = .lhu 3#5 1#5 2#16 ∧
    decodeWord 0x8C610002#32 = .lh 3#5 1#5 2#16 ∧
    decodeWord 0x9061FFFC#32 = .lw 3#5 1#5 0xFFFC#16 ∧
    decodeWord 0x94610001#32 = .sb 3#5 1#5 1#16 ∧
    decodeWord 0x98610002#32 = .sh 3#5 1#5 2#16 ∧
    decodeWord 0x9F9B0000#32 = .sw 28#5 27#5 0#16 := by decide

theorem test_decode_port :
    decodeWord 0xA0650000#32 = .inpbu 3#5 5#5 ∧
    decodeWord 0xA4650000#32 = .inpb 3#5 5#5 ∧
    decodeWord 0xA8650000#32 = .inphu 3#5 5#5 ∧
    decodeWord 0xAC650000#32 = .inph 3#5 5#5 ∧
    decodeWord 0xB0650000#32 = .inp 3#5 5#5 ∧
    decodeWord 0xB4650000#32 = .outpb 3#5 5#5 ∧
    decodeWord 0xB8650000#32 = .outph 3#5 5#5 ∧
    decodeWord 0xBC7F0000#32 = .outp 3#5 31#5 := by decide

theorem test_decode_branch :
    decodeWord 0xC01D0000#32 = .jr 29#5 ∧
    decodeWord 0xC4000040#32 = .ja 0x40#26 ∧
    decodeWord 0xC8000003#32 = .j 3#26 ∧
    decodeWord 0xCC220000#32 = .bz 1#5 2#5 ∧
    decodeWord 0xD03FFFFD#32 = .bzi 1#5 0x1FFFFD#21 ∧
    decodeWord 0xD4220000#32 = .bnz 1#5 2#5 ∧
    decodeWord 0xD8200005#32 = .bnzi 1#5 5#21 ∧
    decodeWord 0xDC000000#32 = .nop := by decide

theorem test_decode_invalid_high :
    decodeWord 0xE0000001#32 = .invalid38 1#26 ∧
    decodeWord 0xE4000002#32 = .invalid39 2#26 ∧
    decodeWord 0xE8000003#32 = .invalid3A 3#26 ∧
    decodeWord 0xEC000004#32 = .invalid3B 4#26 ∧
    decodeWord 0xF0000005#32 = .invalid3C 5#26 ∧
    decodeWord 0xF4000006#32 = .invalid3D 6#26 ∧
    decodeWord 0xF8000007#32 = .invalid3E 7#26 ∧
    decodeWord 0xFFFFFFFF#32 = .invalid3F 0x3FFFFFF#26 := by decide

/-- JR's register is in R_B, bits 25 to 21 and 15 to 0 being unused (R86, decision D1). -/
theorem test_decode_jr_unused : decodeWord 0xC3E5FFFF#32 = .jr 5#5 := by decide

/-- DIV's bits 5 to 1 and NOP's low bits are unused (R83, R84). -/
theorem test_decode_unused : decodeWord 0x3861113F#32 = .div 3#5 1#5 2#5 4#5 ∧ decodeWord 0xDFFFFFFF#32 = .nop := by
  decide

/-- In memory the word's lowest byte comes first (`20_memory.md` R52). -/
theorem test_decode_bytes : decodeBytes [0x00#8, 0x10#8, 0x61#8, 0x20#8] = .ok (.add 3#5 1#5 2#5) := by decide

theorem test_decode_bytes_short : decodeBytes [0x00#8, 0x10#8, 0x61#8] = .error (.notOneWord 3) := by decide

theorem test_decodeTableWord : decodeTableWord 32 0x38611101 = some (.div 3#5 1#5 2#5 4#5) := by decide

/-- The words of the CALL at 0x100 to a label at 0x200 (`47_assembler_and_conventions.md` R262 (e)). -/
theorem test_encode_call : (expandCALL 0x39#26).map encode =
    [0x9F9B0000#32, 0x279B0000#32, 0x2F7B0004#32, 0x9FBB0000#32, 0x2F7B0004#32, 0x27BF0004#32, 0xC8000039#32,
     0x2F7C0004#32, 0x93BB0000#32, 0x277B0004#32, 0x939B0000#32] := by decide

/-- The words of LA into register 4 of 0x12345678 (`47_assembler_and_conventions.md` R261). -/
theorem test_encode_la : (expandLA 4#5 0x12345678#32).map encode =
    [0x24800012#32, 0x54840008#32, 0x24840034#32, 0x54840008#32, 0x24840056#32, 0x54840008#32, 0x24840078#32] := by
  decide

/-! ### Single instructions, with the operands and results of the examples and corner cases of the spec's rules -/

theorem test_or : regAfter (.or 3#5 1#5 2#5) (regs [(1#5, 0x0F0F0000#32), (2#5, 0x00FF00FF#32)]) 3#5 = some 0x0FFF00FF#32 := by decide
theorem test_or_zero_destination : regAfter (.or 0#5 1#5 1#5) (regs [(1#5, 0x00000007#32)]) 0#5 = some 0x00000000#32 := by decide
theorem test_ori : regAfter (.ori 3#5 1#5 0x8001#16) (regs [(1#5, 0x12340000#32)]) 3#5 = some 0x12348001#32 := by decide
theorem test_and : regAfter (.and 3#5 1#5 2#5) (regs [(1#5, 0x0F0F0000#32), (2#5, 0x00FF00FF#32)]) 3#5 = some 0x000F0000#32 := by decide
theorem test_andi : regAfter (.andi 3#5 1#5 0xFF00#16) (regs [(1#5, 0xFFFFABCD#32)]) 3#5 = some 0x0000AB00#32 := by decide
theorem test_xor : regAfter (.xor 3#5 1#5 2#5) (regs [(1#5, 0x0F0F0000#32), (2#5, 0x00FF00FF#32)]) 3#5 = some 0x0FF000FF#32 := by decide
theorem test_xori : regAfter (.xori 3#5 1#5 0xFFFF#16) (regs [(1#5, 0x12345678#32)]) 3#5 = some 0x1234A987#32 := by decide
theorem test_add : regAfter (.add 3#5 1#5 2#5) (regs [(1#5, 0xFFFFFFFF#32), (2#5, 0x00000002#32)]) 3#5 = some 0x00000001#32 := by decide
theorem test_add_carry : regAfter (.add 3#5 1#5 2#5) (regs [(1#5, 0xFFFFFFFF#32), (2#5, 0x00000002#32)]) 30#5 = some 0x00000001#32 := by decide
theorem test_addi : regAfter (.addi 3#5 1#5 0xFFFF#16) (regs [(1#5, 0x00000005#32)]) 3#5 = some 0x00000004#32 := by decide
theorem test_addi_carry_of_zero : regAfter (.addi 3#5 1#5 0xFFFF#16) (regs [(30#5, 0xFFFFFFFF#32)]) 30#5 = some 0xFFFFFFFE#32 := by decide
theorem test_sub : regAfter (.sub 3#5 1#5 2#5) (regs [(1#5, 0x00000003#32), (2#5, 0x00000005#32)]) 3#5 = some 0xFFFFFFFE#32 := by decide
theorem test_sub_borrow : regAfter (.sub 0#5 1#5 2#5) (regs [(1#5, 0x00000003#32), (2#5, 0x00000005#32)]) 30#5 = some 0x00000001#32 := by decide
theorem test_subi : regAfter (.subi 3#5 1#5 1#16) (regs [(1#5, 0x00000000#32)]) 3#5 = some 0xFFFFFFFF#32 := by decide
theorem test_subi_no_signed_overflow : regAfter (.subi 30#5 1#5 1#16) (regs [(1#5, 0x80000000#32)]) 30#5 = some 0x7FFFFFFE#32 := by decide
theorem test_mult : regAfter (.mult 3#5 1#5 2#5) (regs [(1#5, 0xFFFFFFFF#32), (2#5, 0x00000002#32)]) 3#5 = some 0xFFFFFFFE#32 := by decide
theorem test_multi : regAfter (.multi 3#5 1#5 0xFFFE#16) (regs [(1#5, 0x00000003#32)]) 3#5 = some 0xFFFFFFFA#32 := by decide
theorem test_div_quotient : regAfter (.div 3#5 1#5 2#5 4#5) (regs [(1#5, 0xFFFFFFF9#32), (2#5, 0x00000002#32)]) 3#5 = some 0xFFFFFFFD#32 := by decide
theorem test_div_remainder : regAfter (.div 3#5 1#5 2#5 3#5) (regs [(1#5, 0xFFFFFFF9#32), (2#5, 0x00000002#32)]) 3#5 = some 0xFFFFFFFF#32 := by decide
theorem test_divu_quotient : regAfter (.divu 3#5 1#5 2#5 4#5) (regs [(1#5, 0xFFFFFFF9#32), (2#5, 0x00000002#32)]) 3#5 = some 0x7FFFFFFC#32 := by decide
theorem test_divu_remainder : regAfter (.divu 1#5 1#5 2#5 4#5) (regs [(1#5, 0xFFFFFFF9#32), (2#5, 0x00000002#32)]) 4#5 = some 0x00000001#32 := by decide
theorem test_divi : regAfter (.divi 3#5 1#5 7#16) (regs [(1#5, 0x00000064#32)]) 3#5 = some 0x0000000E#32 := by decide
theorem test_divi_negative : regAfter (.divi 3#5 1#5 0xFFFD#16) (regs [(1#5, 0x00000064#32)]) 3#5 = some 0xFFFFFFDF#32 := by decide
/-- The immediate 0 stops, with destination register 0 too (R141, decision D11). -/
theorem test_divi_zero : exec (.divi 0#5 1#5 0#16) (regs [(1#5, 0x00000064#32)]) = .fault .divideByZero := rfl

theorem test_srav : regAfter (.srav 3#5 1#5 2#5) (regs [(1#5, 0x80000010#32), (2#5, 0x00000004#32)]) 3#5 = some 0xF8000001#32 := by decide
theorem test_srav_31 : regAfter (.srav 3#5 1#5 2#5) (regs [(1#5, 0x80000010#32), (2#5, 0x0000001F#32)]) 3#5 = some 0xFFFFFFFF#32 := by decide
theorem test_sra : regAfter (.sra 3#5 1#5 4#16) (regs [(1#5, 0x7FFFFF00#32)]) 3#5 = some 0x07FFFFF0#32 := by decide
theorem test_srlv : regAfter (.srlv 3#5 1#5 2#5) (regs [(1#5, 0x80000010#32), (2#5, 0x00000004#32)]) 3#5 = some 0x08000001#32 := by decide
theorem test_srl : regAfter (.srl 3#5 1#5 4#16) (regs [(1#5, 0xFFFFFF00#32)]) 3#5 = some 0x0FFFFFF0#32 := by decide
theorem test_sllv : regAfter (.sllv 3#5 1#5 2#5) (regs [(1#5, 0x80000011#32), (2#5, 0x00000004#32)]) 3#5 = some 0x00000110#32 := by decide
theorem test_sll : regAfter (.sll 3#5 1#5 8#16) (regs [(1#5, 0x00123456#32)]) 3#5 = some 0x12345600#32 := by decide
theorem test_sllvDup : regAfter (.sllvDup 3#5 1#5 2#5) (regs [(1#5, 0x80000011#32), (2#5, 0x00000004#32)]) 3#5 = some 0x00000110#32 := by decide
theorem test_sllDup : regAfter (.sllDup 3#5 1#5 8#16) (regs [(1#5, 0x00123456#32)]) 3#5 = some 0x12345600#32 := by decide
theorem test_eq : regAfter (.eq 3#5 1#5 2#5) (regs [(1#5, 0xDEADBEEF#32), (2#5, 0xDEADBEEF#32)]) 3#5 = some 0x00000001#32 := by decide
theorem test_eq_not : regAfter (.eq 3#5 1#5 2#5) (regs [(1#5, 0xDEADBEEF#32), (2#5, 0xDEADBEEE#32), (3#5, 0x00000009#32)]) 3#5 = some 0x00000000#32 := by decide
theorem test_eqDup : regAfter (.eqDup 3#5 1#5 2#5) (regs [(1#5, 0xDEADBEEF#32), (2#5, 0xDEADBEEF#32)]) 3#5 = some 0x00000001#32 := by decide
theorem test_eqi : regAfter (.eqi 3#5 1#5 0xFFFF#16) (regs [(1#5, 0xFFFFFFFF#32)]) 3#5 = some 0x00000001#32 := by decide
theorem test_eqi_not : regAfter (.eqi 3#5 1#5 0xFFFF#16) (regs [(1#5, 0x0000FFFF#32), (3#5, 0x00000009#32)]) 3#5 = some 0x00000000#32 := by decide
theorem test_equi : regAfter (.equi 3#5 1#5 0xFFFF#16) (regs [(1#5, 0x0000FFFF#32)]) 3#5 = some 0x00000001#32 := by decide
theorem test_lt : regAfter (.lt 3#5 1#5 2#5) (regs [(1#5, 0xFFFFFFFF#32), (2#5, 0x00000001#32)]) 3#5 = some 0x00000001#32 := by decide
theorem test_lti : regAfter (.lti 3#5 1#5 0xFFFF#16) (regs [(1#5, 0xFFFFFFFE#32)]) 3#5 = some 0x00000001#32 := by decide
theorem test_lti_not : regAfter (.lti 3#5 1#5 0xFFFF#16) (regs [(3#5, 0x00000009#32)]) 3#5 = some 0x00000000#32 := by decide
theorem test_ltu : regAfter (.ltu 3#5 1#5 2#5) (regs [(1#5, 0xFFFFFFFF#32), (2#5, 0x00000001#32), (3#5, 0x00000009#32)]) 3#5 = some 0x00000000#32 := by decide
theorem test_ltu_nonzero : regAfter (.ltu 3#5 0#5 2#5) (regs [(2#5, 0x00000001#32)]) 3#5 = some 0x00000001#32 := by decide
theorem test_ltui : regAfter (.ltui 3#5 1#5 0xFFFF#16) (regs [(1#5, 0x0000FFFE#32)]) 3#5 = some 0x00000001#32 := by decide
theorem test_ltui_not : regAfter (.ltui 3#5 1#5 0xFFFF#16) (regs [(1#5, 0xFFFFFFFF#32), (3#5, 0x00000009#32)]) 3#5 = some 0x00000000#32 := by decide
theorem test_xori_pc_reads_next : regAfter (.xori 29#5 31#5 0#16) (regs [(31#5, 0x00000104#32)]) 29#5 = some 0x00000104#32 := by decide
theorem test_ori_to_pc_jumps : regAfter (.ori 31#5 0#5 0x200#16) (regs []) 31#5 = some 0x00000200#32 := by decide
theorem test_jr : regAfter (.jr 29#5) (regs [(29#5, 0x00000120#32)]) 31#5 = some 0x00000120#32 := by decide
theorem test_jr_zero : regAfter (.jr 0#5) (regs [(31#5, 0x00000104#32)]) 31#5 = some 0x00000000#32 := by decide
theorem test_ja : regAfter (.ja 0x40#26) (regs [(31#5, 0x00000104#32)]) 31#5 = some 0x00000100#32 := by decide
theorem test_ja_top : regAfter (.ja 0x3FFFFFF#26) (regs [(31#5, 0x00000104#32)]) 31#5 = some 0x0FFFFFFC#32 := by decide
theorem test_j : regAfter (.j 3#26) (regs [(31#5, 0x00000104#32)]) 31#5 = some 0x00000110#32 := by decide
theorem test_j_self : regAfter (.j 0x3FFFFFF#26) (regs [(31#5, 0x00000104#32)]) 31#5 = some 0x00000100#32 := by decide
theorem test_bz : regAfter (.bz 1#5 2#5) (regs [(1#5, 0x00000000#32), (2#5, 0x00000200#32), (31#5, 0x00000104#32)]) 31#5 = some 0x00000200#32 := by decide
theorem test_bz_not : regAfter (.bz 1#5 2#5) (regs [(1#5, 0x00000007#32), (2#5, 0x00000200#32), (31#5, 0x00000104#32)]) 31#5 = some 0x00000104#32 := by decide
theorem test_bzi : regAfter (.bzi 1#5 0x1FFFFD#21) (regs [(31#5, 0x00000104#32)]) 31#5 = some 0x000000F8#32 := by decide
theorem test_bzi_not : regAfter (.bzi 1#5 0x1FFFFD#21) (regs [(1#5, 0x00000001#32), (31#5, 0x00000104#32)]) 31#5 = some 0x00000104#32 := by decide
theorem test_bnz : regAfter (.bnz 1#5 2#5) (regs [(1#5, 0x80000000#32), (2#5, 0x00000200#32), (31#5, 0x00000104#32)]) 31#5 = some 0x00000200#32 := by decide
theorem test_bnz_not : regAfter (.bnz 1#5 2#5) (regs [(2#5, 0x00000200#32), (31#5, 0x00000104#32)]) 31#5 = some 0x00000104#32 := by decide
theorem test_bnzi : regAfter (.bnzi 1#5 5#21) (regs [(1#5, 0x00000002#32), (31#5, 0x00000104#32)]) 31#5 = some 0x00000118#32 := by decide
theorem test_bnzi_not : regAfter (.bnzi 1#5 5#21) (regs [(31#5, 0x00000104#32)]) 31#5 = some 0x00000104#32 := by decide
theorem test_nop : regAfter (.nop) (regs [(31#5, 0x00000104#32)]) 31#5 = some 0x00000104#32 := by decide

/-- The memory of the load examples. -/
def loads : State :=
  bytes (regs [(1#5, 0x1000#32)]) [(0x1000#32, 0x78#8), (0x1001#32, 0x56#8), (0x1002#32, 0x34#8), (0x1003#32, 0x82#8)]

theorem test_lbu : regAfter (.lbu 3#5 1#5 3#16) loads 3#5 = some 0x00000082#32 := by decide
theorem test_lb : regAfter (.lb 3#5 1#5 3#16) loads 3#5 = some 0xFFFFFF82#32 := by decide
theorem test_lhu : regAfter (.lhu 3#5 1#5 2#16) loads 3#5 = some 0x00008234#32 := by decide
theorem test_lh : regAfter (.lh 3#5 1#5 2#16) loads 3#5 = some 0xFFFF8234#32 := by decide
theorem test_lw : regAfter (.lw 1#5 1#5 0#16) loads 1#5 = some 0x82345678#32 := by decide

/-- LW at 0xFFFFFFFE reads on at address 0 (`44_load_store.md` R175, decision D18). -/
theorem test_lw_wraps : regAfter (.lw 3#5 0#5 0xFFFE#16)
    (bytes State.reset [(0xFFFFFFFE#32, 1#8), (0xFFFFFFFF#32, 2#8), (0#32, 3#8), (1#32, 4#8)]) 3#5 =
      some 0x04030201#32 := by decide

theorem test_sb : byteAfter (.sb 3#5 1#5 1#16) (regs [(1#5, 0x1000#32), (3#5, 0x12345678#32)]) 0x1001#32 =
    some 0x78#8 := by decide
theorem test_sb_next_byte : byteAfter (.sb 3#5 1#5 1#16) (regs [(1#5, 0x1000#32), (3#5, 0x12345678#32)]) 0x1002#32 =
    some 0x00#8 := by decide
theorem test_sh : byteAfter (.sh 3#5 1#5 2#16) (regs [(1#5, 0x1000#32), (3#5, 0x12345678#32)]) 0x1003#32 =
    some 0x56#8 := by decide

/-- SW stores bits 23 to 16 and 31 to 24 at the third and fourth byte (`90_conflicts.md` C2). -/
theorem test_sw : byteAfter (.sw 3#5 1#5 0#16) (regs [(1#5, 0x1000#32), (3#5, 0x12345678#32)]) 0x1002#32 =
    some 0x34#8 := by decide
theorem test_sw_top : byteAfter (.sw 3#5 1#5 0#16) (regs [(1#5, 0x1000#32), (3#5, 0x12345678#32)]) 0x1003#32 =
    some 0x12#8 := by decide

/-- The port of the input examples answers 0x123480F1. -/
def port : State := { State.reset with portIn := [.value 0x123480F1#32] }

/-- A read that never completes is stuck, with destination register 0 too (R190, decision D26). -/
theorem test_inp_never :
    exec (.inp 0#5 5#5) { port with portIn := [.never, .value 1#32] } = .fault (.portReadNeverCompletes 5#5) := rfl

theorem test_inpbu : regAfter (.inpbu 3#5 5#5) port 3#5 = some 0x000000F1#32 := by decide
theorem test_inpb : regAfter (.inpb 3#5 5#5) port 3#5 = some 0xFFFFFFF1#32 := by decide
theorem test_inphu : regAfter (.inphu 3#5 5#5) port 3#5 = some 0x000080F1#32 := by decide
theorem test_inph : regAfter (.inph 3#5 5#5) port 3#5 = some 0xFFFF80F1#32 := by decide
theorem test_inp : regAfter (.inp 3#5 5#5) port 3#5 = some 0x123480F1#32 := by decide

/-- The output trace after an instruction that completes. -/
def outputAfter (i : Instr) (s : State) : List (PortNum × Word) :=
  match exec i s with
  | .next t => t.output
  | _ => []

theorem test_outpb : outputAfter (.outpb 3#5 5#5) (regs [(3#5, 0x12345678#32)]) = [(5#5, 0x78#32)] := by decide
theorem test_outph : outputAfter (.outph 3#5 5#5) (regs [(3#5, 0x12345678#32)]) = [(5#5, 0x5678#32)] := by decide
theorem test_outp : outputAfter (.outp 3#5 31#5) (regs [(3#5, 0x12345678#32)]) = [(31#5, 0x12345678#32)] := by decide

/-! ### Steps -/

theorem test_reset_first_step : afterStep State.reset State.pc = some 4#32 := by decide
theorem test_withFetchWord : afterStep (State.reset.withFetchWord 32 0x2401FFFF) (fun t => t.reg 0#5) = some 0#32 := by
  decide
theorem test_withFetchWord_addi : afterStep (State.reset.withFetchWord 32 0x24600005) (fun t => t.reg 3#5) =
    some 5#32 := by decide
theorem test_invalid_stops : faultOf (State.reset.withFetchWord 32 0xFFFFFFFF) =
    some (.illegalInstruction 0xFFFFFFFF#32) := by decide

/-- An implementation with two interrupts, vectors at 0x40 + 4n: interrupt 1 has a zero vector, interrupt 2 the handler
at 0x200. -/
def irq : State :=
  bytes { State.reset with platform := { Platform.reset with ivBase := 0x40#32, nInt := 2 } } [(0x49#32, 0x02#8)]

theorem test_interrupt_entry : afterStep { irq with pc := 0x100#32, irqIn := [[2]] } (fun t => (t.pc, t.r29, t.inService)) =
    some (0x204#32, 0x100#32, true) := by decide
theorem test_interrupt_zero_vector :
    afterStep { irq with pc := 0x100#32, irqIn := [[2, 1]] } (fun t => (t.pc, t.inService, t.pending)) =
      some (0x104#32, false, [2]) := by decide
theorem test_interrupt_locked :
    afterStep { irq with pc := 0x100#32, pending := [2], inService := true } (fun t => (t.pc, t.pending)) =
      some (0x104#32, [2]) := by decide
theorem test_interrupt_unknown_number : afterStep { irq with irqIn := [[0, 3]] } State.pending = some [] := by decide

/-! ### The assembler (`47_assembler_and_conventions.md`) -/

theorem test_assemble_byte : assemble ".byte 120,86,52,18".toList = .ok [0x12345678#32] := by decide
theorem test_assemble_asciiz : assemble ".asciiz \"Hi\\n\"".toList = .ok [0x000A6948#32] := by decide

/-- Escapes as Python reads them: octal, hexadecimal, and an octal run ended by the digit 8 (R253; log 36, PRESUMED). -/
theorem test_assemble_escapes : assemble ".asciiz \"\\0\\101\\x42\\18\"".toList = .ok [0x01424100#32, 0x38#32] := by decide
/-- A raw, a triple-quoted and a plain literal side by side, the last with an escape Python leaves alone and a name in
braces (R253; log 36, PRESUMED: in Python the string is the characters `\na"bu\qA`). -/
theorem test_assemble_literals :
    parseString ("r'\\n' '''a\"b''' 'u\\q\\N".toList ++ [Char.ofNat 123] ++ "latin capital letter a".toList ++
      [Char.ofNat 125, '\'']) = .ok ([0x5C, 0x6E, 0x61, 0x22, 0x62, 0x75, 0x5C, 0x71, 0x41].map (BitVec.ofNat 8)) := by
  decide

/-- Any line may have labels, a comment too (R242): both labels have the address of the J. -/
theorem test_assemble_labelled_comment :
    assemble "#J x:\nfoo:# a: J\nbar: #\n\tJ foo\n\tJ bar".toList = .ok [0xCBFFFFFF#32, 0xCBFFFFFE#32] := by decide

/-- Without a label a comment's hash symbol is the line's first character (R241; log 34). -/
theorem test_assemble_indented_hash : assemble " #x".toList = .error .unknownName := by decide

theorem test_assemble_text : assemble ".text 5\nend: J end".toList = .ok [0#32, 0#32, 0xCBFFFFFF#32] := by decide
theorem test_output_line : outputLine 0x80000001#32 = "10000000000000000000000000000001".toList := by decide

/-! ### Witnesses: concrete states that meet the hypotheses of each statement together, clause by clause -/

/-- A word stored at the program counter of a state, and its first bytes there. -/
def at_ (s : State) (w : Word) : State := s.pokeWord s.pc w

/-- An implementation with memory at addresses 0 to 5 only. -/
def six : State := { State.reset with platform := { Platform.reset with populated := [{ base := 0, size := 6 }] } }

/-- One with memory at 0 to 5, interrupt 1 pending, and its vector word at 4, which runs out of memory. -/
def sixIrq : State :=
  { State.reset with
    platform := { populated := [{ base := 0, size := 6 }], ivBase := 0#32, nInt := 1 }, pending := [1] }

theorem witness_StepKeepsTheInvariant : State.reset.Inv ∧ ∃ t, step State.reset = .next t :=
  ⟨⟨rfl, by decide, by decide⟩, _, rfl⟩

theorem witness_UnusedBitsAreIgnoredOnDecodeAndZeroOnEncode :
    0x006117FF#32 &&& usedBits (decodeWord 0x00611000#32) = 0x00611000#32 &&& usedBits (decodeWord 0x00611000#32) := by
  decide

theorem witness_StepRunsTheDecodedInstruction_quiet :
    NoService State.reset ∧ State.reset.pc.extractLsb' 0 2 = 0#2 ∧ Populated State.reset State.reset.pc 4 ∧
      decodeBytes [State.reset.peekByte State.reset.pc, State.reset.peekByte (State.reset.pc + 1#32),
        State.reset.peekByte (State.reset.pc + 2#32), State.reset.peekByte (State.reset.pc + 3#32)] =
          .ok (.or 0#5 0#5 0#5) :=
  ⟨.inr rfl, by decide, by unfold Populated; decide, by decide⟩

/-- With the lock on, at the last word of the address space. -/
def lockedTop : State := at_ { irq with pc := 0xFFFFFFFC#32, pending := [2], inService := true } 0xC01D0000#32

theorem witness_StepRunsTheDecodedInstruction_locked :
    NoService lockedTop ∧ lockedTop.pc.extractLsb' 0 2 = 0#2 ∧ Populated lockedTop lockedTop.pc 4 ∧
      decodeBytes [lockedTop.peekByte lockedTop.pc, lockedTop.peekByte (lockedTop.pc + 1#32),
        lockedTop.peekByte (lockedTop.pc + 2#32), lockedTop.peekByte (lockedTop.pc + 3#32)] = .ok (.jr 29#5) :=
  ⟨.inl rfl, by decide, by unfold Populated; decide, by decide⟩

theorem witness_MisalignedFetchStops :
    ({ State.reset with pc := 3#32 } : State).checkInterrupts = .next { State.reset with pc := 3#32 } ∧
      (3#32).extractLsb' 0 2 ≠ 0#2 := ⟨rfl, by decide⟩

theorem witness_AccessToAbsentMemoryStops_fetch :
    ({ six with pc := 4#32 } : State).checkInterrupts = .next { six with pc := 4#32 } ∧
      (4#32).extractLsb' 0 2 = 0#2 ∧ FirstAbsent { six with pc := 4#32 } 4#32 4 6#32 :=
  ⟨rfl, by decide, 2, by decide, by decide, by decide, by unfold Populated; decide⟩

theorem witness_AccessToAbsentMemoryStops_vector :
    Services sixIrq 1 ∧ FirstAbsent sixIrq (sixIrq.vectorAddr 1) 4 6#32 :=
  ⟨⟨rfl, by decide, by decide⟩, 2, by decide, by decide, by decide, by unfold Populated; decide⟩

theorem witness_AccessToAbsentMemoryStops_byte : FirstAbsent six (six.effAddr 0#5 6#16) 1 6#32 :=
  ⟨0, by decide, by decide, by decide, by unfold Populated; decide⟩

theorem witness_AccessToAbsentMemoryStops_half : FirstAbsent six (six.effAddr 0#5 5#16) 2 6#32 :=
  ⟨1, by decide, by decide, by decide, by unfold Populated; decide⟩

theorem witness_AccessToAbsentMemoryStops_word : FirstAbsent six (six.effAddr 0#5 3#16) 4 6#32 :=
  ⟨3, by decide, by decide, by decide, by unfold Populated; decide⟩

theorem witness_AddAndSubtractImmediate : 0xFFFF8000#32 = BitVec.ofInt 32 (0x8000#16).toInt := by decide

theorem witness_DivisionByANonzeroRegister :
    (regs [(1#5, 0x80000000#32), (2#5, 1#32)]).reg 2#5 ≠ 0#32 ∧
      ¬((regs [(1#5, 0x80000000#32), (2#5, 1#32)]).reg 1#5 = 0x80000000#32 ∧
        (regs [(1#5, 0x80000000#32), (2#5, 1#32)]).reg 2#5 = 0xFFFFFFFF#32) := by decide

theorem witness_DivisionByAZeroRegisterWritesOnlyTheStatusRegister : State.reset.reg 2#5 = 0#32 := by decide

theorem witness_SignedDivisionOverflowWritesOnlyItsDestinations :
    (regs [(1#5, 0x80000000#32), (2#5, 0xFFFFFFFF#32)]).reg 1#5 = 0x80000000#32 ∧
      (regs [(1#5, 0x80000000#32), (2#5, 0xFFFFFFFF#32)]).reg 2#5 = 0xFFFFFFFF#32 := by decide

theorem witness_DivideImmediateWhereSettled_odd :
    (0xFFFF#16).toNat % 2 = 1 ∧
      ¬((regs [(1#5, 0x80000001#32)]).reg 1#5 = 0x80000000#32 ∧ 0xFFFF#16 = 0xFFFF#16) := by decide

theorem witness_DivideImmediateWhereSettled_even :
    (0x7FFE#16).toNat % 2 = 0 ∧ 0x7FFE#16 ≠ 0#16 ∧ 0 ≤ ((regs [(1#5, 0x7FFFFFFF#32)]).reg 1#5).toInt ∧
      0 ≤ (0x7FFE#16).toInt := by decide

theorem witness_DivideImmediateWhereOpen_dividend :
    (2#16).toNat % 2 = 0 ∧ 2#16 ≠ 0#16 ∧
      (((regs [(1#5, 0xFFFFFFFF#32)]).reg 1#5).toInt < 0 ∨ (2#16).toInt < 0) := by decide

theorem witness_DivideImmediateWhereOpen_immediate :
    (0x8000#16).toNat % 2 = 0 ∧ 0x8000#16 ≠ 0#16 ∧ ((State.reset.reg 1#5).toInt < 0 ∨ (0x8000#16).toInt < 0) := by
  decide

theorem witness_RightShifts : ((regs [(2#5, 31#32)]).reg 2#5).toNat ≤ 31 ∧ (31#16).toNat ≤ 31 ∧ (0#16).toNat ≤ 31 := by
  decide

theorem witness_LeftShifts : ((regs [(2#5, 31#32)]).reg 2#5).toNat ≤ 31 ∧ (31#16).toNat ≤ 31 ∧ (0#16).toNat ≤ 31 := by
  decide

/-- An address whose word runs over the top of the address space. -/
def top : State := regs [(1#5, 0xFFFFFFFF#32)]

theorem witness_LoadsFromPopulatedMemory :
    0xFFFFFFFE#32 = top.reg 1#5 + BitVec.ofInt 32 (0xFFFF#16).toInt ∧ Populated top 0xFFFFFFFE#32 1 ∧
      Populated top 0xFFFFFFFE#32 2 ∧ Populated top 0xFFFFFFFE#32 4 :=
  ⟨by decide, by unfold Populated; decide, by unfold Populated; decide, by unfold Populated; decide⟩

theorem witness_StoresToPopulatedMemory :
    0xFFFFFFFE#32 = top.effAddr 1#5 0xFFFF#16 ∧ 0xFFFFFFFF#32 = top.reg 1#5 ∧ Populated top 0xFFFFFFFE#32 1 ∧
      Populated top 0xFFFFFFFE#32 2 ∧ Populated top 0xFFFFFFFE#32 4 :=
  ⟨by decide, by decide, by unfold Populated; decide, by unfold Populated; decide, by unfold Populated; decide⟩

theorem witness_NarrowLoadsSeeAWordStore :
    0xFFFFFFFF#32 = top.reg 1#5 ∧ 0#32 = top.reg 2#5 ∧ 1#5 ≠ 0#5 ∧
      ∃ t, exec (.sw 2#5 1#5 0#16) top = .next t := ⟨by decide, by decide, by decide, _, rfl⟩

theorem witness_AStoreIsSeenByTheNextFetch :
    ∃ t, exec (.sw 1#5 0#5 4#16) (regs [(31#5, 4#32)]) = .next t ∧
      (regs [(31#5, 4#32)]).effAddr 0#5 4#16 = (regs [(31#5, 4#32)]).pc ∧
      (regs [(31#5, 4#32)]).pc.extractLsb' 0 2 = 0#2 ∧ NoService t := ⟨_, rfl, by decide, by decide, .inr rfl⟩

/-- A step that stores the byte 1 at address 0x100: SB of register 1. -/
def storing : State := at_ (regs [(1#5, 1#32)]) 0x94200100#32

theorem witness_MemoryChangesOnlyWhereAStorePutsAByte :
    ∃ t, step storing = .next t ∧ t.peekByte 0x100#32 ≠ storing.peekByte 0x100#32 := ⟨_, rfl, by decide⟩

theorem witness_PortInputs :
    WillAnswer port ∧ WillAnswer State.reset ∧ ¬WillAnswer { port with portIn := [.never, .value 1#32] } := by
  unfold WillAnswer
  decide

theorem witness_OnlyPortInstructionsReachAPort :
    ∃ t u w, storing.checkInterrupts = .next u ∧ u.fetch = .ok w ∧ step storing = .next t ∧
      isPortAccess (decodeWord w) = false := ⟨_, _, _, rfl, rfl, rfl, by decide⟩

theorem witness_TheProgramCounterAdvancesByFour :
    ∃ t u w, storing.checkInterrupts = .next u ∧ u.fetch = .ok w ∧ step storing = .next t ∧
      isJump (decodeWord w) = false ∧ 31#5 ∉ destinations (decodeWord w) :=
  ⟨_, _, _, rfl, rfl, rfl, by decide, by decide⟩

theorem witness_RegistersChangeOnlyAsNamedDestinations :
    (∃ t, exec (.add 28#5 1#5 2#5) State.reset = .next t) ∧ 29#5 ∉ destinations (.add 28#5 1#5 2#5) ∧ 29#5 ≠ 30#5 ∧
      29#5 ≠ 31#5 := ⟨⟨_, rfl⟩, by decide, by decide, by decide⟩

theorem witness_WhatChangesTheStatusRegister_kept :
    (∃ t, exec (.mult 29#5 1#5 2#5) State.reset = .next t) ∧ 30#5 ∉ destinations (.mult 29#5 1#5 2#5) ∧
      writesCarry (.mult 29#5 1#5 2#5) = false ∧ isDivision (.mult 29#5 1#5 2#5) = false :=
  ⟨⟨_, rfl⟩, by decide, by decide, by decide⟩

theorem witness_WhatChangesTheStatusRegister_carry :
    (∃ t, exec (.sub 31#5 1#5 2#5) State.reset = .next t) ∧ 30#5 ∉ destinations (.sub 31#5 1#5 2#5) ∧
      writesCarry (.sub 31#5 1#5 2#5) = true := ⟨⟨_, rfl⟩, by decide, by decide⟩

theorem witness_NothingIsRefusedAndFewThingsFault :
    (∃ f, exec (.invalid3F 0#26) six = .fault f) ∧ (∃ f, exec (.lb 1#5 0#5 6#16) six = .fault f) ∧
      (∃ f, exec (.sb 1#5 0#5 6#16) six = .fault f) ∧ (∃ f, exec (.divi 1#5 2#5 0#16) six = .fault f) ∧
      ∃ f, exec (.inpb 1#5 31#5) { port with portIn := [.never] } = .fault f :=
  ⟨⟨_, rfl⟩, ⟨_, rfl⟩, ⟨_, rfl⟩, ⟨_, rfl⟩, _, rfl⟩

theorem witness_TheParametersNeverChange : ∃ t, step storing = .next t := ⟨_, rfl⟩

/-- The implementation with two interrupts; the environment sends 2 and then, at the same check, 2 again, 0 and 3. -/
def arriving : State := { irq with pc := 0x100#32, irqIn := [[2, 2, 0, 3]] }

theorem witness_ArrivalsAddInterruptNumbers : arriving.Inv := ⟨by decide, by decide, by decide⟩

theorem witness_InterruptEntry :
    Services arriving 2 ∧ Populated arriving (arriving.vectorAddr 2) 4 ∧
      0x200#32 = arriving.peekWord (arriving.vectorAddr 2) ∧ 0x200#32 ≠ 0#32 ∧ (0x200#32).extractLsb' 0 2 = 0#2 ∧
      Populated arriving 0x200#32 4 :=
  ⟨⟨rfl, by decide, by decide⟩, by unfold Populated; decide, by decide, by decide, by decide,
    by unfold Populated; decide⟩

theorem witness_AZeroVectorIsServicedWithoutAction :
    Services { arriving with pending := [1] } 1 ∧ Populated { arriving with pending := [1] } 0x44#32 4 ∧
      State.vectorAddr { arriving with pending := [1] } 1 = 0x44#32 ∧
      State.peekWord { arriving with pending := [1] } 0x44#32 = 0#32 ∧ (0x100#32).extractLsb' 0 2 = 0#2 ∧
      Populated { arriving with pending := [1] } 0x100#32 4 :=
  ⟨⟨rfl, by decide, by decide⟩, by unfold Populated; decide, by decide, by decide, by decide,
    by unfold Populated; decide⟩

theorem witness_TheLockHoldsUntilJumpRegister29 :
    lockedTop.inService = true ∧ lockedTop.receive.fetch = .ok 0xC01D0000#32 ∧ ∃ t, step lockedTop = .next t :=
  ⟨rfl, by rfl, _, rfl⟩

theorem witness_TheLockHoldsUntilJumpRegister29_held :
    ({ storing with inService := true } : State).inService = true ∧
      State.fetch (State.receive { storing with inService := true }) = .ok 0x94200100#32 ∧
      (∃ t, step { storing with inService := true } = .next t) ∧
      29#5 ∉ destinations (decodeWord 0x94200100#32) := ⟨rfl, by rfl, ⟨_, rfl⟩, by decide⟩

theorem witness_InstructionsAndTheInterruptState :
    (∃ t, exec (.jr 29#5) State.reset = .next t) ∧ ∃ t, exec (.bz 0#5 29#5) State.reset = .next t :=
  ⟨⟨_, rfl⟩, ⟨_, rfl⟩⟩

/-- A label at the far end of each jump's reach: JA's last word, J's and BZI's last word forward. -/
def far (t : Nat) : LabelEnv := [("x".toList, t)]

theorem witness_LabelOperandsReachTheirLabels_ja :
    (far 0xFFFFFFC).lookup "x".toList = some 0xFFFFFFC ∧ 0x100 % 4 = 0 ∧ 0xFFFFFFC % 4 = 0 ∧
      (regs [(31#5, 0x104#32)]).pc = BitVec.ofNat 32 (0x100 + 4) ∧ 0xFFFFFFC < 2 ^ 28 := by decide

theorem witness_LabelOperandsReachTheirLabels_j :
    (far 0x8000000).lookup "x".toList = some 0x8000000 ∧ 0 % 4 = 0 ∧ 0x8000000 % 4 = 0 ∧
      (regs [(31#5, 4#32)]).pc = BitVec.ofNat 32 (0 + 4) ∧ -2 ^ 27 ≤ (0x8000000 : Int) - (0 + 4) ∧
      (0x8000000 : Int) - (0 + 4) < 2 ^ 27 := by decide

theorem witness_LabelOperandsReachTheirLabels_branch :
    (far 4).lookup "x".toList = some 4 ∧ 0x400000 % 4 = 0 ∧ 4 % 4 = 0 ∧
      (regs [(31#5, 0x400004#32)]).pc = BitVec.ofNat 32 (0x400000 + 4) ∧ -2 ^ 22 ≤ (4 : Int) - (0x400000 + 4) ∧
      (4 : Int) - (0x400000 + 4) < 2 ^ 22 ∧ (regs [(31#5, 0x400004#32)]).reg 1#5 = 0#32 ∧
      (regs [(1#5, 7#32), (31#5, 0x400004#32)]).reg 1#5 ≠ 0#32 := by decide

theorem witness_WhatTheAssemblerEmits :
    expand [] 0 "RET".toList [] = .ok [.jr 29#5] ∧ Instr.jr 29#5 ∈ [Instr.jr 29#5] := by decide

theorem witness_TheLoaderPlacesTheImage : 4 * [0x24600005#32, 0xCBFFFFFF#32].length ≤ 2 ^ 32 := by decide

theorem witness_LoadAddressLoadsTheAddress :
    29#5 ≠ 30#5 ∧ 29#5 ≠ 31#5 ∧ 0#5 ≠ 30#5 ∧ 0#5 ≠ 31#5 ∧ (far 8).lookup "x".toList = some 8 := by decide

/-- A caller's stack pointer, frame pointer and return address. -/
def caller : State := regs [(27#5, 0x1000#32), (28#5, 0x2000#32), (29#5, 0x300#32)]

/-- The state in which the subroutine comes back: the frame as CALL left it. -/
def callee : State :=
  ((regs [(28#5, 0x1000#32)]).pokeWord 0x1000#32 0x2000#32).pokeWord 0xFFC#32 0x300#32

theorem witness_CallBuildsAndRemovesItsFrame :
    0x1000#32 = caller.reg 27#5 ∧ Populated caller 0x1000#32 4 ∧ Populated caller (0x1000#32 - 4#32) 4 ∧
      callee.platform = caller.platform ∧ callee.reg 28#5 = 0x1000#32 ∧
      callee.peekWord 0x1000#32 = caller.reg 28#5 ∧ callee.peekWord (0x1000#32 - 4#32) = caller.reg 29#5 :=
  ⟨by decide, by unfold Populated; decide, by unfold Populated; decide, rfl, by decide, by decide, by decide⟩

theorem witness_CallBuildsAndRemovesItsFrame_forward :
    (far (28 + 2 ^ 27 - 4)).lookup "x".toList = some (28 + 2 ^ 27 - 4) ∧ 0 % 4 = 0 ∧ (28 + 2 ^ 27 - 4) % 4 = 0 ∧
      -2 ^ 27 ≤ ((28 + 2 ^ 27 - 4 : Nat) : Int) - ((0 : Nat) + 28) ∧
      ((28 + 2 ^ 27 - 4 : Nat) : Int) - ((0 : Nat) + 28) < 2 ^ 27 ∧ caller.pc = BitVec.ofNat 32 0 := by decide

theorem witness_CallBuildsAndRemovesItsFrame_backward :
    (far 0).lookup "x".toList = some 0 ∧ (2 ^ 27 - 28) % 4 = 0 ∧ 0 % 4 = 0 ∧
      -2 ^ 27 ≤ ((0 : Nat) : Int) - ((2 ^ 27 - 28 : Nat) + 28) ∧ ((0 : Nat) : Int) - ((2 ^ 27 - 28 : Nat) + 28) < 2 ^ 27 ∧
      State.pc { caller with pc := 0x07FFFFE4#32 } = BitVec.ofNat 32 (2 ^ 27 - 28) := by decide

theorem witness_ByteDirectivePlacesItsBytesInOrder :
    0x40 % 4 = 0 ∧ 0x40 + [0, 255].length ≤ 2 ^ 32 ∧ (∀ v ∈ [(0 : Int), 255], 0 ≤ v ∧ v ≤ 255) ∧
      1 < [(0 : Int), 255].length := by decide

theorem witness_PushAndPop :
    0x1000#32 = caller.reg 27#5 ∧ Populated caller 0x1000#32 4 ∧ ∃ u, execList (pushSequence 27#5) caller = .next u :=
  ⟨by decide, by unfold Populated; decide, _, rfl⟩

theorem witness_TheEndOfARunStays :
    (at_ { irq with pc := 0x100#32, irqIn := [[0, 3]] } 0xCBFFFFFF#32).atEndOfRun = true := by decide

end Sys2Proof.Machine.Tests
end

section
/-! Proofs of the statements about the state (`10_state.md`): what an instruction leaves alone, what every step keeps. Every
proof over all instructions is a case split over `Effect`, the shared operations that make a next state. -/

namespace Sys2Proof.Machine

/-! ### Register writes of the double-writing operations -/

/-- A quotient and a remainder leave every register but the two they go to. -/
theorem reg_setQuotRem_ne (s : State) (ra rd x : RegNum) (q r : Word) (ha : x ≠ ra) (hd : x ≠ rd) :
    (s.setQuotRem ra rd q r).reg x = s.reg x := by
  obtain ⟨-, -, hreg, -⟩ := writesTwo_setQuotRem s ra rd q r
  exact hreg x ha hd

/-- An add or subtract leaves every register but its destination and the status register. -/
theorem reg_setSum_ne (s : State) (ra x : RegNum) (r : BitVec 33) (ha : x ≠ ra) (h30 : x ≠ 30#5) :
    (s.setSum ra r).reg x = s.reg x := by
  obtain ⟨-, -, -, hreg, -⟩ := writesSum_setSum s ra r
  exact hreg x ha h30

/-- An add or subtract into another register than 30 leaves bits 31 to 1 of the status register (`10_state.md` R25). -/
theorem setSum_status_upper (s : State) (ra : RegNum) (r : BitVec 33) (h : ra ≠ 30#5) :
    (s.setSum ra r).status.extractLsb' 1 31 = s.status.extractLsb' 1 31 := by
  obtain ⟨-, -, hupper, -⟩ := writesSum_setSum s ra r
  rwa [if_neg h] at hupper

/-! ### What an instruction leaves alone -/

/-- No instruction changes the implementation's parameters (`10_state.md` R38). -/
theorem Effect.platform_eq {i : Instr} {s t : State} (h : Effect i s t) : t.platform = s.platform := by
  cases h with
  | input ra p v w u hr => rw [setReg_platform, portRead_platform hr]
  | setReg | drawReg | setSum | setQuotRem | drawQuotRem | divByZero => simp
  | output | storeByte | storeHalf | storeWord | jump | endLock | stay => rfl

/-- No instruction makes an interrupt pending or services one: that is the interrupt check's part of the step. -/
theorem Effect.pending_eq {i : Instr} {s t : State} (h : Effect i s t) : t.pending = s.pending := by
  cases h with
  | input ra p v w u hr => rw [setReg_pending, portRead_pending hr]
  | setReg | drawReg | setSum | setQuotRem | drawQuotRem | divByZero => simp
  | output | storeByte | storeHalf | storeWord | jump | endLock | stay => rfl

/-- Every instruction keeps the canonical form of memory: only the three stores write it. -/
theorem Effect.mem_wf {i : Instr} {s t : State} (h : Effect i s t) (hs : s.mem.wf = true) : t.mem.wf = true := by
  cases h with
  | storeByte => exact pokeByte_wf _ _ _ hs
  | storeHalf => exact pokeHalf_wf _ _ _ hs
  | storeWord => exact pokeWord_wf _ _ _ hs
  | input ra p v w u hr => rwa [setReg_mem, portRead_mem hr]
  | setReg | drawReg | setSum | setQuotRem | drawQuotRem | divByZero => simpa using hs
  | output | jump | endLock | stay => exact hs

/-- What an instruction can change outside the destinations it names: the status register, if it writes Carry or
divides, and the program counter, if it jumps. Any other register reads the same (`10_state.md` R24, R28, `30_encoding.md`
R97). -/
theorem Effect.reg_eq {i : Instr} {s t : State} (h : Effect i s t) {r : RegNum} (hr : r ∉ destinations i)
    (h30 : r = 30#5 → writesCarry i = false ∧ isDivision i = false) (h31 : r = 31#5 → isJump i = false) :
    t.reg r = s.reg r := by
  cases h with
  | setReg ra v hd =>
    rw [hd, List.mem_singleton] at hr
    exact reg_setReg_ne s ra r v hr
  | drawReg ra v hd =>
    rw [hd, List.mem_singleton] at hr
    exact reg_setReg_ne s.draw ra r v hr
  | setSum ra x hd hj hc =>
    rw [hd, List.mem_singleton] at hr
    exact reg_setSum_ne s ra r x hr fun e => by simp [h30 e] at hc
  | setQuotRem ra rd q x hd =>
    rw [hd, List.mem_pair, not_or] at hr
    exact reg_setQuotRem_ne s ra rd r q x hr.1 hr.2
  | drawQuotRem ra rd q x hd =>
    rw [hd, List.mem_pair, not_or] at hr
    exact reg_setQuotRem_ne s.draw ra rd r q x hr.1 hr.2
  | divByZero a hv =>
    obtain ⟨hreg, -⟩ := divByZero_frame s a
    exact hreg r fun e => by simp [h30 e] at hv
  | input ra p v w u hp hd =>
    rw [hd, List.mem_singleton] at hr
    rw [reg_setReg_ne u ra r w hr, portRead_reg hp]
  | jump a hi hj =>
    rw [reg_jump, if_neg fun e => by simp [h31 e] at hj]
  | endLock a hi =>
    subst hi
    rw [reg_endInterrupt, reg_jump, if_neg fun e => nomatch h31 e]
  | output | storeByte | storeHalf | storeWord | stay => rfl

/-- The four instructions that write Carry do it in one way: a 33-bit result into their destination and Carry. -/
theorem Effect.setSum_of_writesCarry {i : Instr} {s t : State} (h : Effect i s t) (hc : writesCarry i = true) :
    ∃ ra r, destinations i = [ra] ∧ t = s.setSum ra r := by
  cases h with
  | setSum ra r hd => exact ⟨ra, r, hd, rfl⟩
  | storeByte ra rb k hi | storeHalf ra rb k hi | storeWord ra rb k hi | endLock a hi => subst hi; cases hc
  | setReg | drawReg | setQuotRem | drawQuotRem | divByZero | input | output | jump | stay => simp_all

/-! ### The invariant, one part of the step at a time -/

/-- The invariant speaks of memory's form, of what is pending and of the parameters alone. -/
theorem State.Inv.of_eq {s t : State} (hs : s.Inv) (hm : t.mem.wf = true) (hp : t.pending = s.pending)
    (hf : t.platform = s.platform) : t.Inv where
  memory := hm
  rising := hp ▸ hs.rising
  numbers := by rw [hp, hf]; exact hs.numbers

/-- An instruction keeps the invariant. -/
theorem Effect.inv {i : Instr} {s t : State} (h : Effect i s t) (hs : s.Inv) : t.Inv :=
  hs.of_eq (h.mem_wf hs.memory) h.pending_eq h.platform_eq

/-- Arrivals keep the invariant: only interrupt numbers are let in, each into its place (`60_exceptions.md` R271,
R272). -/
theorem receive_inv {s : State} (hs : s.Inv) : s.receive.Inv := by
  rcases receive_cases s with ⟨-, h⟩ | ⟨ns, rest, -, h⟩ <;> rw [h]
  · exact hs
  · refine ⟨hs.memory, receiveNumbers_rising _ ns _ hs.rising, fun n hn => ?_⟩
    rcases (mem_receiveNumbers _ n ns _).mp hn with hold | ⟨-, hrange⟩
    · exact hs.numbers n hold
    · exact hrange

/-- A set of interrupt numbers stays one when a number is taken out of it. -/
theorem filterPending_inv {s : State} (hs : s.Inv) (p : Nat → Bool) :
    State.Inv { s with pending := s.pending.filter p } where
  memory := hs.memory
  rising := hs.rising.filter p
  numbers n hn := hs.numbers n (List.mem_of_mem_filter hn)

/-- Servicing an interrupt, with a zero vector or by entering its handler, keeps the invariant (`60_exceptions.md` R273,
R278). -/
theorem service_inv {s t : State} {n : Nat} (hs : s.Inv) (h : s.service n = .next t) : t.Inv := by
  have hdrop := filterPending_inv hs fun k => k != n
  rcases service_cases s n with ⟨b, -, h'⟩ | ⟨-, -, h'⟩ | ⟨-, -, h'⟩ <;> rw [h'] at h <;> cases h
  · exact hdrop
  · exact hdrop.of_eq hdrop.memory rfl rfl

/-- The interrupt check keeps the invariant. -/
theorem checkInterrupts_inv {s t : State} (hs : s.Inv) (h : s.checkInterrupts = .next t) : t.Inv := by
  rcases checkInterrupts_cases s with ⟨-, h'⟩ | ⟨-, n, -, -, h'⟩ <;> rw [h'] at h
  · cases h
    exact receive_inv hs
  · exact service_inv (receive_inv hs) h

/-- The fetch's advance of the program counter keeps the invariant. -/
theorem advance_inv {s : State} (hs : s.Inv) : s.advance.Inv := hs.of_eq hs.memory rfl rfl

/-! ### The parameters, over the interrupt check -/

@[simp] theorem receive_platform (s : State) : s.receive.platform = s.platform := by rw [receive_eq]

theorem service_platform {s t : State} {n : Nat} (h : s.service n = .next t) : t.platform = s.platform := by
  rcases service_cases s n with ⟨b, -, h'⟩ | ⟨-, -, h'⟩ | ⟨-, -, h'⟩ <;> rw [h'] at h <;> cases h <;> rfl

theorem checkInterrupts_platform {s t : State} (h : s.checkInterrupts = .next t) : t.platform = s.platform := by
  rcases checkInterrupts_cases s with ⟨-, h'⟩ | ⟨-, n, -, -, h'⟩ <;> rw [h'] at h
  · cases h
    exact receive_platform s
  · rw [service_platform h, receive_platform]

/-! ### A step that services no interrupt -/

@[simp] theorem receive_pc (s : State) : s.receive.pc = s.pc := by rw [receive_eq]

@[simp] theorem receive_mem (s : State) : s.receive.mem = s.mem := by rw [receive_eq]

/-- With the lock on, or with nothing pending, the interrupt check is the arrivals alone (`60_exceptions.md` R272). -/
theorem checkInterrupts_of_noService {s : State} (h : NoService s) : s.checkInterrupts = .next s.receive := by
  rcases checkInterrupts_cases s with ⟨-, h'⟩ | ⟨hoff, n, hn, -⟩
  · exact h'
  · rcases h with hon | hnone
    · exact absurd (hon.symm.trans hoff) (by decide)
    · exact absurd (hnone ▸ hn) List.not_mem_nil

/-- An aligned fetch from populated memory answers the word there (`10_state.md` R29). -/
theorem fetch_of_populated {s : State} (ha : s.pc.extractLsb' 0 2 = 0#2) (hp : Populated s s.pc 4) :
    s.fetch = .ok (s.peekWord s.pc) := by
  rw [populated_iff] at hp
  rcases fetch_cases s with ⟨hne, -⟩ | ⟨-, b, hb, -⟩ | ⟨-, -, h⟩
  · exact absurd ha hne
  · exact nomatch hp.symm.trans hb
  · exact h

/-- Arrivals change nothing that the fetch looks at. -/
theorem receive_fetch (s : State) : s.receive.fetch = s.fetch := by
  simp only [State.fetch, receive_pc, firstAbsent_congr s s.receive s.pc 4 (receive_platform s),
    peekWord_congr s s.receive s.pc (receive_mem s)]

/-- Decoding the four bytes from an address is decoding the word there (`20_memory.md` R52). -/
theorem decodeBytes_peekByte (s : State) (a : Word) :
    decodeBytes [s.peekByte a, s.peekByte (a + 1#32), s.peekByte (a + 2#32), s.peekByte (a + 3#32)] =
      .ok (decodeWord (s.peekWord a)) := rfl

/-! ### The statements -/

/-- Settles O3: the check, the advance and the instruction each keep the invariant. -/
theorem stepKeepsTheInvariant : Obligations.StepKeepsTheInvariant := by
  intro s u hs h
  obtain ⟨t, w, hcheck, -, hexec⟩ := step_next s u h
  exact (exec_effect _ _ _ hexec).inv (advance_inv (checkInterrupts_inv hs hcheck))

/-- Settles O40: such an instruction leaves register 31 where the fetch's advance has put it. -/
theorem theProgramCounterAdvancesByFour : Obligations.TheProgramCounterAdvancesByFour := by
  intro s t u w hcheck hfetch hstep hj h31
  rw [step_eq s u w hcheck hfetch] at hstep
  have hreg : t.reg 31#5 = u.advance.reg 31#5 := (exec_effect _ _ _ hstep).reg_eq h31 (fun e => nomatch e) fun _ => hj
  rw [reg_31, reg_31, advance_pc] at hreg
  rw [hreg]
  exact BitVec.toNat_add u.pc 4#32

/-- Settles O42: of the registers that are no named destination only 30 and 31 can change. -/
theorem registersChangeOnlyAsNamedDestinations : Obligations.RegistersChangeOnlyAsNamedDestinations := by
  intro i s t r h hr h30 h31
  exact (exec_effect i s t h).reg_eq hr (absurd · h30) (absurd · h31)

/-- Settles O43: without Carry and division register 30 is left alone; Carry comes with a 33-bit result. -/
theorem whatChangesTheStatusRegister : Obligations.WhatChangesTheStatusRegister := by
  intro i s t h h30
  have heff := exec_effect i s t h
  constructor
  · intro hc hv
    exact heff.reg_eq h30 (fun _ => ⟨hc, hv⟩) fun e => nomatch e
  · intro hc
    obtain ⟨ra, r, hd, rfl⟩ := heff.setSum_of_writesCarry hc
    rw [hd, List.mem_singleton] at h30
    exact setSum_status_upper s ra r (Ne.symm h30)

/-- Settles O45: neither the check, nor the advance, nor an instruction changes them. -/
theorem theParametersNeverChange : Obligations.TheParametersNeverChange := by
  intro s u h
  obtain ⟨t, w, hcheck, -, hexec⟩ := step_next s u h
  calc u.platform = t.advance.platform := (exec_effect _ _ _ hexec).platform_eq
    _ = t.platform := advance_platform t
    _ = s.platform := checkInterrupts_platform hcheck

/-- Settles O1. -/
theorem resetLeavesTheStatedValues : Obligations.ResetLeavesTheStatedValues :=
  ⟨reg_zero State.reset, rfl, rfl, rfl, rfl⟩

/-- Settles O2: nothing is listed and nothing is pending. -/
theorem resetMeetsTheInvariant : Obligations.ResetMeetsTheInvariant where
  memory := reset_mem_wf
  rising := List.Pairwise.nil
  numbers _ hn := absurd hn List.not_mem_nil

/-- Settles O7. -/
theorem stepRunsTheDecodedInstruction : Obligations.StepRunsTheDecodedInstruction := by
  intro s i hquiet haligned hpop hdecode
  rw [decodeBytes_peekByte, Except.ok.injEq] at hdecode
  have hfetch : s.receive.fetch = .ok (s.peekWord s.pc) := by rw [receive_fetch, fetch_of_populated haligned hpop]
  have hstep := step_eq s s.receive _ (checkInterrupts_of_noService hquiet) hfetch
  refine ⟨hdecode ▸ hstep, ?_⟩
  rw [State.advance, receive_pc]

/-- Settles O41. -/
theorem registerZeroIsConstant : Obligations.RegisterZeroIsConstant :=
  fun s v => ⟨reg_zero s, setReg_zero s v⟩

end Sys2Proof.Machine
end

section
/-! Proofs of the statements about memory (`20_memory.md`): where a step stops for it, what a load sees after a store,
and what alone can change it or reach a port. -/

namespace Sys2Proof.Machine

/-! ### Where a step stops before its instruction executes -/

/-- A fault of the fetch is the step's fault, and no instruction executes (`10_state.md` R29). -/
theorem step_of_fetch_error {s u : State} {f : Fault} (hcheck : s.checkInterrupts = .next u)
    (hfetch : u.fetch = .error f) : step s = .fault f := by
  simp only [step, hcheck, hfetch]

/-- A fault of the interrupt check is the step's fault. -/
theorem step_of_check_fault {s : State} {f : Fault} (hcheck : s.checkInterrupts = .fault f) : step s = .fault f := by
  simp only [step, hcheck]

/-- A fetch from an address that is not a multiple of 4 faults, whether memory backs it or not (`20_memory.md` R56). -/
theorem fetch_of_misaligned {s : State} (h : s.pc.extractLsb' 0 2 ≠ 0#2) :
    s.fetch = .error (.misalignedFetch s.pc) := by
  rcases fetch_cases s with ⟨-, h'⟩ | ⟨h0, -⟩ | ⟨h0, -⟩
  · exact h'
  · exact absurd h0 h
  · exact absurd h0 h

/-- An aligned fetch that meets an absent byte faults with the first of them (`20_memory.md` R59). -/
theorem fetch_of_absent {s : State} {b : Word} (ha : s.pc.extractLsb' 0 2 = 0#2) (hb : FirstAbsent s s.pc 4 b) :
    s.fetch = .error (.unpopulatedAccess b) := by
  have hsome := firstAbsent_some s s.pc b 4 hb
  rcases fetch_cases s with ⟨hne, -⟩ | ⟨-, c, hc, h⟩ | ⟨-, hnone, -⟩
  · exact absurd ha hne
  · rw [h, Option.some.inj (hc.symm.trans hsome)]
  · exact nomatch hnone.symm.trans hsome

/-- With the lock off the interrupt check services the lowest pending number (`60_exceptions.md` R272, R279). -/
theorem checkInterrupts_of_services {s : State} {n : Nat} (h : Services s n) :
    s.checkInterrupts = s.receive.service n := by
  obtain ⟨hoff, hmem, hmin⟩ := h
  rcases checkInterrupts_cases s with ⟨hon | hnone, -⟩ | ⟨-, m, hm, hmmin, h'⟩
  · exact absurd (hon.symm.trans hoff) (by decide)
  · exact absurd (hnone ▸ hmem) List.not_mem_nil
  · rw [h', Nat.le_antisymm (hmmin n hmem) (hmin m hm)]

/-- Arrivals do not move the vector table. -/
theorem receive_vectorAddr (s : State) (n : Nat) : s.receive.vectorAddr n = s.vectorAddr n := by
  rw [State.vectorAddr, State.vectorAddr, receive_platform]

/-- An interrupt whose vector word meets an absent byte is not serviced: the check faults with the first of them
(`20_memory.md` R59). -/
theorem checkInterrupts_of_absent_vector {s : State} {n : Nat} {b : Word} (hs : Services s n)
    (hb : FirstAbsent s (s.vectorAddr n) 4 b) : s.checkInterrupts = .fault (.unpopulatedAccess b) := by
  have hsome : s.receive.firstAbsent (s.receive.vectorAddr n) 4 = some b := by
    rw [receive_vectorAddr, firstAbsent_congr s s.receive _ 4 (receive_platform s)]
    exact firstAbsent_some s _ b 4 hb
  rw [checkInterrupts_of_services hs]
  rcases service_cases s.receive n with ⟨c, hc, h⟩ | ⟨hnone, -⟩ | ⟨hnone, -⟩
  · rw [h, Option.some.inj (hc.symm.trans hsome)]
  · exact nomatch hnone.symm.trans hsome
  · exact nomatch hnone.symm.trans hsome

/-- A load that meets an absent byte faults with the first of them, whatever its destination (`20_memory.md` R59,
`10_state.md` R21). -/
theorem load_of_absent {s : State} {a b : Word} {n : Nat} (ra : RegNum) (v : Word) (h : FirstAbsent s a n b) :
    s.load ra a n v = .fault (.unpopulatedAccess b) := access_of_absent s a b n _ h

/-! ### The bytes of a stored word -/

/-- The addresses of consecutive bytes, each modulo 2^32 (`20_memory.md` R53). -/
theorem addr_add_add (a : Word) (j k : Nat) :
    a + BitVec.ofNat 32 j + BitVec.ofNat 32 k = a + BitVec.ofNat 32 (j + k) := by
  rw [BitVec.add_assoc, BitVec.ofNat_add]

/-- A run of bytes inside a populated one is populated. -/
theorem Populated.sub {s : State} {a : Word} {m : Nat} (h : Populated s a m) {j n : Nat} (hle : j + n ≤ m) :
    Populated s (a + BitVec.ofNat 32 j) n := by
  intro k hk
  rw [addr_add_add]
  exact h (j + k) (by omega)

/-- Which bytes are backed by memory is a parameter of the implementation. -/
theorem Populated.of_platform_eq {s t : State} {a : Word} {n : Nat} (h : Populated s a n)
    (hf : t.platform = s.platform) : Populated t a n := by
  rw [populated_iff] at h ⊢
  rw [firstAbsent_congr s t a n hf, h]

/-- A word's four bytes, least significant first, make the word (`20_memory.md` R52). -/
theorem wordOfBytes_byteOfWord (v : Word) :
    wordOfBytes (byteOfWord v 0) (byteOfWord v 1) (byteOfWord v 2) (byteOfWord v 3) = v := by
  apply BitVec.eq_of_toNat_eq
  have hv := v.isLt
  simp only [wordOfBytes, byteOfWord, toNat_append_add, toNat_field]
  omega

/-- Two neighbouring bytes of a word, the higher one in front, are its 16 bits there. -/
theorem byteOfWord_append_byteOfWord (v : Word) (k : Nat) :
    byteOfWord v (k + 1) ++ byteOfWord v k = v.extractLsb' (8 * k) 16 :=
  BitVec.extractLsb'_append_extractLsb'_eq_extractLsb' (by omega)

/-- The k-th byte from a stored word's address is the k-th byte of the word, round the top of memory too
(`20_memory.md` R54). -/
theorem peekByte_pokeWord_offset (s : State) (a v : Word) {k : Nat} (hk : k < 4) :
    (s.pokeWord a v).peekByte (a + BitVec.ofNat 32 k) = byteOfWord v k := by
  obtain ⟨hbytes, -⟩ := storesBytes_pokeWord s a v
  rw [hbytes k hk]
  interval_cases k <;> rfl

/-- A half-word inside a stored word is the word's 16 bits there (`20_memory.md` R58). -/
theorem peekHalf_pokeWord_offset (s : State) (a v : Word) {k : Nat} (hk : k + 1 < 4) :
    (s.pokeWord a v).peekHalf (a + BitVec.ofNat 32 k) = v.extractLsb' (8 * k) 16 := by
  rw [State.peekHalf, addr_add_add a k 1, peekByte_pokeWord_offset s a v hk,
    peekByte_pokeWord_offset s a v (Nat.lt_of_succ_lt hk), byteOfWord_append_byteOfWord]

/-- A word read where a word was stored is that word. -/
theorem peekWord_pokeWord_same (s : State) (a v : Word) : (s.pokeWord a v).peekWord a = v := by
  have h0 := peekByte_pokeWord_offset s a v (k := 0) (by decide)
  rw [BitVec.add_zero] at h0
  rw [State.peekWord, h0, peekByte_pokeWord_offset s a v (k := 1) (by decide),
    peekByte_pokeWord_offset s a v (k := 2) (by decide), peekByte_pokeWord_offset s a v (k := 3) (by decide),
    wordOfBytes_byteOfWord]

/-! ### Loads after a store -/

/-- A nonnegative offset is added as it stands. -/
theorem effAddr_ofNat (s : State) (rb : RegNum) {k : Nat} (hk : k < 2 ^ 15) :
    s.effAddr rb (BitVec.ofNat 16 k) = s.reg rb + BitVec.ofNat 32 k := by
  have hmsb : (BitVec.ofNat 16 k).msb = false := by
    rw [BitVec.msb_eq_false_iff_two_mul_lt, BitVec.toNat_ofNat]
    omega
  have hsext : sextI (BitVec.ofNat 16 k) = BitVec.ofNat 32 k := by
    rw [sextI, BitVec.signExtend_eq_setWidth_of_msb_false hmsb]
    apply BitVec.eq_of_toNat_eq
    simp only [BitVec.toNat_setWidth, BitVec.toNat_ofNat]
    omega
  rw [State.effAddr, hsext]

theorem effAddr_zero (s : State) (rb : RegNum) : s.effAddr rb 0#16 = s.reg rb := by
  rw [effAddr_ofNat s rb (by decide), BitVec.add_zero]

/-- A load from populated memory into another register than 0 puts its value there. -/
theorem load_of_populated {s : State} {rd : RegNum} {a : Word} {n : Nat} (v : Word) (h : Populated s a n)
    (hd : rd ≠ 0#5) : ∃ u, s.load rd a n v = .next u ∧ u.reg rd = v :=
  ⟨_, load_next s rd a n v ((populated_iff s a n).mp h), reg_setReg_same s rd v hd⟩

/-- LBU from populated memory (`44_load_store.md` R171). -/
theorem execLbu_of_populated {s : State} {rd rb : RegNum} {i : Half} {a : Word} (ha : s.effAddr rb i = a)
    (h : Populated s a 1) (hd : rd ≠ 0#5) :
    ∃ u, exec (.lbu rd rb i) s = .next u ∧ u.reg rd = zextByte (s.peekByte a) := by
  subst ha
  exact load_of_populated _ h hd

/-- LHU from populated memory (`44_load_store.md` R173). -/
theorem execLhu_of_populated {s : State} {rd rb : RegNum} {i : Half} {a : Word} (ha : s.effAddr rb i = a)
    (h : Populated s a 2) (hd : rd ≠ 0#5) :
    ∃ u, exec (.lhu rd rb i) s = .next u ∧ u.reg rd = zextHalf (s.peekHalf a) := by
  subst ha
  exact load_of_populated _ h hd

/-- LW from populated memory (`44_load_store.md` R175). -/
theorem execLw_of_populated {s : State} {rd rb : RegNum} {i : Half} {a : Word} (ha : s.effAddr rb i = a)
    (h : Populated s a 4) (hd : rd ≠ 0#5) :
    ∃ u, exec (.lw rd rb i) s = .next u ∧ u.reg rd = s.peekWord a := by
  subst ha
  exact load_of_populated _ h hd

/-- SW that completes found its four bytes populated and stored the register there (`44_load_store.md` R178). -/
theorem execSw_next {s t : State} {ra rb : RegNum} {i : Half} (h : exec (.sw ra rb i) s = .next t) :
    Populated s (s.effAddr rb i) 4 ∧ t = s.pokeWord (s.effAddr rb i) (s.reg ra) := by
  obtain ⟨hpop, hnext⟩ := access_next s t _ 4 _ h
  injection hnext with hnext
  exact ⟨(populated_iff _ _ _).mpr hpop, hnext.symm⟩

/-- The zero-extended k-th byte of a word, as a number. -/
theorem zextByte_byteOfWord (v : Word) (k : Nat) :
    zextByte (byteOfWord v k) = BitVec.ofNat 32 (v.toNat / 2 ^ (8 * k) % 2 ^ 8) := by
  rw [zextByte, byteOfWord, ← toNat_field, BitVec.ofNat_toNat]

/-- The zero-extended 16 bits of a word from bit j up, as a number. -/
theorem zextHalf_extract (v : Word) (j : Nat) :
    zextHalf (v.extractLsb' j 16) = BitVec.ofNat 32 (v.toNat / 2 ^ j % 2 ^ 16) := by
  rw [zextHalf, ← toNat_field, BitVec.ofNat_toNat]

/-! ### What alone changes memory -/

/-- A byte that a store of bytes has changed is one of those it wrote. -/
theorem StoresBytes.mem_range {s t : State} {a b : Word} {bs : List Byte} (h : StoresBytes s t a bs)
    (hb : t.peekByte b ≠ s.peekByte b) : ∃ k < bs.length, b = a + BitVec.ofNat 32 k := by
  obtain ⟨-, hframe, -⟩ := h
  by_contra hout
  push Not at hout
  exact hb (hframe b hout)

/-- Of all instructions the three stores alone change a byte of memory, and only inside the range they store to
(`20_memory.md` R54, R57, `30_encoding.md` R97). -/
theorem Effect.store_of_peekByte_ne {i : Instr} {s t : State} (h : Effect i s t) {b : Word}
    (hb : t.peekByte b ≠ s.peekByte b) :
    (∃ ra rb k, i = .sb ra rb k ∧ b = s.effAddr rb k) ∨
      (∃ ra rb k, i = .sh ra rb k ∧ ∃ j < 2, b = s.effAddr rb k + BitVec.ofNat 32 j) ∨
      (∃ ra rb k, i = .sw ra rb k ∧ ∃ j < 4, b = s.effAddr rb k + BitVec.ofNat 32 j) := by
  have hmem : t.mem ≠ s.mem := fun e => hb (by rw [State.peekByte, State.peekByte, e])
  cases h with
  | storeByte ra rb k hi =>
    obtain ⟨j, hj, hbj⟩ := (storesBytes_pokeByte s _ _).mem_range hb
    obtain rfl : j = 0 := Nat.lt_one_iff.mp hj
    exact .inl ⟨ra, rb, k, hi, by rw [hbj, BitVec.add_zero]⟩
  | storeHalf ra rb k hi => exact .inr (.inl ⟨ra, rb, k, hi, (storesBytes_pokeHalf s _ _).mem_range hb⟩)
  | storeWord ra rb k hi => exact .inr (.inr ⟨ra, rb, k, hi, (storesBytes_pokeWord s _ _).mem_range hb⟩)
  | input ra p v w u hr => exact absurd ((setReg_mem u ra w).trans (portRead_mem hr)) hmem
  | setReg | drawReg | setSum | setQuotRem | drawQuotRem | divByZero => exact absurd (by simp) hmem
  | output | jump | endLock | stay => exact absurd rfl hmem

theorem service_mem {s t : State} {n : Nat} (h : s.service n = .next t) : t.mem = s.mem := by
  rcases service_cases s n with ⟨b, -, h'⟩ | ⟨-, -, h'⟩ | ⟨-, -, h'⟩ <;> rw [h'] at h <;> cases h <;> rfl

/-- The interrupt check writes no memory (`60_exceptions.md` R275). -/
theorem checkInterrupts_mem {s t : State} (h : s.checkInterrupts = .next t) : t.mem = s.mem := by
  rcases checkInterrupts_cases s with ⟨-, h'⟩ | ⟨-, n, -, -, h'⟩ <;> rw [h'] at h
  · cases h
    exact receive_mem s
  · rw [service_mem h, receive_mem]

/-! ### What alone reaches a port -/

theorem SamePorts.trans {s t u : State} (hst : SamePorts s t) (htu : SamePorts t u) : SamePorts s u :=
  ⟨htu.1.trans hst.1, htu.2.trans hst.2⟩

/-- The output trace is part of the port accesses (`45_port_io.md` R191). -/
theorem SamePorts.output_eq {s t : State} (h : SamePorts s t) : t.output = s.output := by
  obtain ⟨hlog, -⟩ := h
  rw [State.output, State.output, hlog]

/-- An instruction that is no port input or output reaches no port (`45_port_io.md` R192). -/
theorem Effect.samePorts {i : Instr} {s t : State} (h : Effect i s t) (hp : isPortAccess i = false) :
    SamePorts s t := by
  cases h with
  | input ra p v w u hr hd hport => exact absurd (hport.symm.trans hp) (by decide)
  | output p v hport => exact absurd (hport.symm.trans hp) (by decide)
  | setReg | drawReg | setSum | setQuotRem | drawQuotRem | divByZero | storeByte | storeHalf | storeWord | jump |
    endLock | stay => exact ⟨by simp, by simp⟩

theorem receive_samePorts (s : State) : SamePorts s s.receive := by
  rw [receive_eq]
  exact ⟨rfl, rfl⟩

theorem service_samePorts {s t : State} {n : Nat} (h : s.service n = .next t) : SamePorts s t := by
  rcases service_cases s n with ⟨b, -, h'⟩ | ⟨-, -, h'⟩ | ⟨-, -, h'⟩ <;> rw [h'] at h <;>
    cases h <;> exact ⟨rfl, rfl⟩

/-- The interrupt check reaches no port. -/
theorem checkInterrupts_samePorts {s t : State} (h : s.checkInterrupts = .next t) : SamePorts s t := by
  rcases checkInterrupts_cases s with ⟨-, h'⟩ | ⟨-, n, -, -, h'⟩ <;> rw [h'] at h
  · cases h
    exact receive_samePorts s
  · exact (receive_samePorts s).trans (service_samePorts h)

/-! ### The statements -/

/-- Settles O10: the fetch and the vector read stop the step, a load and a store the instruction. -/
theorem accessToAbsentMemoryStops : Obligations.AccessToAbsentMemoryStops := by
  refine ⟨?_, ?_, ?_⟩
  · intro s u b hcheck haligned hb
    exact step_of_fetch_error hcheck (fetch_of_absent haligned hb)
  · intro s n b hs hb
    exact step_of_check_fault (checkInterrupts_of_absent_vector hs hb)
  · intro s ra rb i b
    refine ⟨fun h => ?_, fun h => ?_, fun h => ?_⟩
    · exact ⟨load_of_absent ra _ h, load_of_absent ra _ h, access_of_absent s _ b 1 _ h⟩
    · exact ⟨load_of_absent ra _ h, load_of_absent ra _ h, access_of_absent s _ b 2 _ h⟩
    · exact ⟨load_of_absent ra _ h, access_of_absent s _ b 4 _ h⟩

/-- Settles O29: each load reads a run of the four bytes SW has written, at an offset from the same base register. -/
theorem narrowLoadsSeeAWordStore : Obligations.NarrowLoadsSeeAWordStore := by
  intro s t ra rb rd a v ha hv hd hsw
  obtain ⟨hpop, ht⟩ := execSw_next hsw
  rw [effAddr_zero, ← ha] at hpop ht
  rw [← hv] at ht
  have hreg : t.reg rb = a := by rw [ht, reg_pokeWord, ha]
  have hpop' : Populated t a 4 := hpop.of_platform_eq (by rw [ht, pokeWord_platform])
  refine ⟨fun k hk => ?_, fun k hk => ?_, ?_⟩
  · have hbyte : t.peekByte (a + BitVec.ofNat 32 k) = byteOfWord v k := by
      rw [ht, peekByte_pokeWord_offset s a v hk]
    rw [← zextByte_byteOfWord, ← hbyte]
    exact execLbu_of_populated (by rw [effAddr_ofNat t rb (by omega), hreg]) (hpop'.sub (by omega)) hd
  · have hhalf : t.peekHalf (a + BitVec.ofNat 32 (2 * k)) = v.extractLsb' (16 * k) 16 := by
      rw [ht, peekHalf_pokeWord_offset s a v (by omega), ← Nat.mul_assoc]
    rw [← zextHalf_extract, ← hhalf]
    exact execLhu_of_populated (by rw [effAddr_ofNat t rb (by omega), hreg]) (hpop'.sub (by omega)) hd
  · have hword : t.peekWord a = v := by rw [ht, peekWord_pokeWord_same]
    rw [← hword]
    exact execLw_of_populated (by rw [effAddr_zero, hreg]) hpop' hd

/-- Settles O30: the word stored at the program counter is the word the next step fetches. -/
theorem aStoreIsSeenByTheNextFetch : Obligations.AStoreIsSeenByTheNextFetch := by
  intro s t ra rb i hsw haddr haligned hquiet
  obtain ⟨hpop, ht⟩ := execSw_next hsw
  rw [haddr] at hpop ht
  have hpc : t.pc = s.pc := by rw [ht, pokeWord_pc]
  have hpop' : Populated t t.pc 4 := hpc ▸ hpop.of_platform_eq (by rw [ht, pokeWord_platform])
  have hword : t.peekWord t.pc = s.reg ra := by rw [hpc, ht, peekWord_pokeWord_same]
  have hfetch : t.receive.fetch = .ok (s.reg ra) := by
    rw [receive_fetch, fetch_of_populated (hpc ▸ haligned) hpop', hword]
  exact step_eq _ _ _ (checkInterrupts_of_noService hquiet) hfetch

/-- Settles O31: neither the check nor the advance writes memory, and of the instructions only a store does. -/
theorem memoryChangesOnlyWhereAStorePutsAByte : Obligations.MemoryChangesOnlyWhereAStorePutsAByte := by
  intro s t b hstep hb
  obtain ⟨u, w, hcheck, hfetch, hexec⟩ := step_next s t hstep
  have hu : u.advance.peekByte b = s.peekByte b := by
    rw [State.peekByte, State.peekByte, advance_mem, checkInterrupts_mem hcheck]
  exact ⟨u, w, hcheck, hfetch, (exec_effect _ _ _ hexec).store_of_peekByte_ne (hu ▸ hb)⟩

/-- Settles O34: neither the check, nor the advance, nor such an instruction reaches a port. -/
theorem onlyPortInstructionsReachAPort : Obligations.OnlyPortInstructionsReachAPort := by
  intro s t u w hcheck hfetch hstep hport
  rw [step_eq s u w hcheck hfetch] at hstep
  have hsame : SamePorts s t :=
    (checkInterrupts_samePorts hcheck).trans ((exec_effect _ _ _ hstep).samePorts hport)
  exact ⟨hsame, hsame.output_eq⟩

/-- Settles O9. -/
theorem misalignedFetchStops : Obligations.MisalignedFetchStops :=
  fun _ _ hcheck hpc => step_of_fetch_error hcheck (fetch_of_misaligned hpc)

end Sys2Proof.Machine
end

section
/-! Proofs of the statements about the encoding (`30_encoding.md`): a word decodes to an instruction if and only if its used
bits are the instruction's own word, and the statements are read off that. -/

namespace Sys2Proof.Machine

/-! ### Decoding an encoded instruction -/

/-- The opcode field of an instruction's word is its row's, over all rows (`30_encoding.md` R80, R88). -/
theorem fieldOp_encode (i : Instr) : fieldOp (encode i) = i.opcode := by
  cases i with
  | or | and | xor | add | sub | mult | srav | srlv | sllv | sllvDup | eq | eqDup | lt | ltu => exact fieldOp_pack3R ..
  | ori | andi | xori | addi | subi | multi | divi | sra | srl | sll | sllDup | eqi | equi | lti | ltui | lbu | lb | lhu
  | lh | lw | sb | sh | sw => exact fieldOp_pack2RI ..
  | div | divu => exact fieldOp_pack4RM ..
  | inpbu | inpb | inphu | inph | inp | outpb | outph | outp => exact fieldOp_pack1RP ..
  | jr => exact fieldOp_pack1R ..
  | bz | bnz => exact fieldOp_pack2R ..
  | bzi | bnzi => exact fieldOp_pack1RI ..
  | ja | j | nop | invalid06 | invalid07 | invalid38 | invalid39 | invalid3A | invalid3B | invalid3C | invalid3D
  | invalid3E | invalid3F => exact fieldOp_packIA ..

/-- Decoding the word of an instruction gives the instruction: its opcode selects its row, and the fields of the row's
format read the operands back (`30_encoding.md` R83, R95). -/
theorem decodeWord_encode (i : Instr) : decodeWord (encode i) = i := by
  rw [decodeWord, fieldOp_encode]
  cases i with
  | or | and | xor | add | sub | mult | srav | srlv | sllv | sllvDup | eq | eqDup | lt | ltu =>
    exact congr (congrArg₂ _ (fieldRA_pack3R ..) (fieldRB_pack3R ..)) (fieldRC_pack3R ..)
  | ori | andi | xori | addi | subi | multi | divi | sra | srl | sll | sllDup | eqi | equi | lti | ltui | lbu | lb | lhu
  | lh | lw | sb | sh | sw => exact congr (congrArg₂ _ (fieldRA_pack2RI ..) (fieldRB_pack2RI ..)) (fieldI_pack2RI ..)
  | div | divu => simp [Instr.opcode, encode]
  | inpbu | inpb | inphu | inph | inp | outpb | outph | outp => exact congrArg₂ _ (fieldRA_pack1RP ..) (fieldP_pack1RP ..)
  | jr => exact congrArg _ (fieldRB_pack1R ..)
  | bz | bnz => exact congrArg₂ _ (fieldRA_pack2R ..) (fieldRB_pack2R ..)
  | bzi | bnzi => exact congrArg₂ _ (fieldRA_pack1RI ..) (fieldIC_pack1RI ..)
  | ja | j | invalid06 | invalid07 | invalid38 | invalid39 | invalid3A | invalid3B | invalid3C | invalid3D
  | invalid3E | invalid3F => exact congrArg _ (fieldIA_packIA ..)
  | nop => rfl

/-- Two instructions with one word are one instruction. -/
theorem encode_injective : Function.Injective encode := Function.LeftInverse.injective decodeWord_encode

/-- A word's bytes in memory order decode as the word (`20_memory.md` R52). -/
theorem decodeBytes_bytesOfWord (w : Word) : decodeBytes (bytesOfWord w) = .ok (decodeWord w) := by
  rw [bytesOfWord, decodeBytes, wordOfBytes_byteOfWord]

/-! ### A word with its unused bits cleared, format by format (`30_encoding.md` R83, R84) -/

/-- A mask over a run of bits acts on its two parts. -/
theorem extract_and_append {m n : Nat} (w : Word) (k : Nat) (a : BitVec m) (b : BitVec n) :
    w.extractLsb' k (m + n) &&& (a ++ b) = (w.extractLsb' (k + n) m &&& a) ++ (w.extractLsb' k n &&& b) := by
  rw [← BitVec.and_append, BitVec.extractLsb'_append_extractLsb'_eq_extractLsb' rfl]

/-- A word as the run of all its bits, to be cut by `extract_and_append`. -/
theorem and_eq_extract_and (w m : Word) : w &&& m = w.extractLsb' 0 32 &&& m := by rw [BitVec.extractLsb'_eq_self]

section
open BitVec (allOnes)
variable {w : Word} {op : BitVec 6} (hop : fieldOp w = op)
include hop

theorem pack3R_fields : pack3R op (fieldRA w) (fieldRB w) (fieldRC w) = w &&& 0xFFFFF800#32 := by
  subst hop
  rw [and_eq_extract_and]
  change _ = w.extractLsb' 0 (6 + 5 + 5 + 5 + 11) &&& (allOnes 6 ++ allOnes 5 ++ allOnes 5 ++ allOnes 5 ++ 0#11)
  simp only [extract_and_append, BitVec.and_allOnes, BitVec.and_zero]
  rfl

theorem pack2RI_fields : pack2RI op (fieldRA w) (fieldRB w) (fieldI w) = w &&& 0xFFFFFFFF#32 := by
  subst hop
  rw [and_eq_extract_and]
  change _ = w.extractLsb' 0 (6 + 5 + 5 + 16) &&& (allOnes 6 ++ allOnes 5 ++ allOnes 5 ++ allOnes 16)
  simp only [extract_and_append, BitVec.and_allOnes]
  rfl

theorem pack4RM_fields :
    pack4RM op (fieldRA w) (fieldRB w) (fieldRC w) (fieldRD w) (fieldDM w) = w &&& 0xFFFFFFC1#32 := by
  subst hop
  rw [and_eq_extract_and]
  change _ = w.extractLsb' 0 (6 + 5 + 5 + 5 + 5 + 5 + 1) &&&
    (allOnes 6 ++ allOnes 5 ++ allOnes 5 ++ allOnes 5 ++ allOnes 5 ++ 0#5 ++ allOnes 1)
  simp only [extract_and_append, BitVec.and_allOnes, BitVec.and_zero]
  rfl

theorem pack1R_fields : pack1R op (fieldJR w) = w &&& 0xFC1F0000#32 := by
  subst hop
  rw [and_eq_extract_and]
  change _ = w.extractLsb' 0 (6 + 5 + 5 + 16) &&& (allOnes 6 ++ 0#5 ++ allOnes 5 ++ 0#16)
  simp only [extract_and_append, BitVec.and_allOnes, BitVec.and_zero]
  rfl

theorem packIA_fields : packIA op (fieldIA w) = w &&& 0xFFFFFFFF#32 := by
  subst hop
  rw [and_eq_extract_and]
  change _ = w.extractLsb' 0 (6 + 26) &&& (allOnes 6 ++ allOnes 26)
  simp only [extract_and_append, BitVec.and_allOnes]
  rfl

theorem packIA_zero : packIA op 0#26 = w &&& 0xFC000000#32 := by
  subst hop
  rw [and_eq_extract_and]
  change _ = w.extractLsb' 0 (6 + 26) &&& (allOnes 6 ++ 0#26)
  simp only [extract_and_append, BitVec.and_allOnes, BitVec.and_zero]
  rfl

theorem pack2R_fields : pack2R op (fieldRA w) (fieldRB w) = w &&& 0xFFFF0000#32 := by
  subst hop
  rw [and_eq_extract_and]
  change _ = w.extractLsb' 0 (6 + 5 + 5 + 16) &&& (allOnes 6 ++ allOnes 5 ++ allOnes 5 ++ 0#16)
  simp only [extract_and_append, BitVec.and_allOnes, BitVec.and_zero]
  rfl

theorem pack1RI_fields : pack1RI op (fieldRA w) (fieldIC w) = w &&& 0xFFFFFFFF#32 := by
  subst hop
  rw [and_eq_extract_and]
  change _ = w.extractLsb' 0 (6 + 5 + 21) &&& (allOnes 6 ++ allOnes 5 ++ allOnes 21)
  simp only [extract_and_append, BitVec.and_allOnes]
  rfl

/-- Format 1R+P packs the port where format 2R packs R_B. -/
theorem pack1RP_fields : pack1RP op (fieldRA w) (fieldP w) = w &&& 0xFFFF0000#32 := pack2R_fields hop

end

/-! ### What a word decodes to -/

/-- Encoding the instruction a word decodes to clears the bits that the row's format does not use (`30_encoding.md` R84). -/
theorem encode_decodeWord (w : Word) : encode (decodeWord w) = w &&& usedBits (decodeWord w) := by
  rw [decodeWord]
  match h : (fieldOp w).toNat, (fieldOp w).isLt with
  | 0x00, _ | 0x02, _ | 0x04, _ | 0x08, _ | 0x0A, _ | 0x0C, _ | 0x10, _ | 0x12, _ | 0x14, _ | 0x16, _ | 0x18, _ | 0x1A, _
  | 0x1C, _ | 0x1E, _ => exact pack3R_fields (BitVec.eq_of_toNat_eq h)
  | 0x01, _ | 0x03, _ | 0x05, _ | 0x09, _ | 0x0B, _ | 0x0D, _ | 0x0F, _ | 0x11, _ | 0x13, _ | 0x15, _ | 0x17, _ | 0x19, _
  | 0x1B, _ | 0x1D, _ | 0x1F, _ | 0x20, _ | 0x21, _ | 0x22, _ | 0x23, _ | 0x24, _ | 0x25, _ | 0x26, _ | 0x27, _ =>
    exact pack2RI_fields (BitVec.eq_of_toNat_eq h)
  | 0x0E, _ =>
    have hpack := pack4RM_fields (BitVec.eq_of_toNat_eq h : fieldOp w = 0x0E#6)
    rcases BitVec.eq_zero_or_eq_one (fieldDM w) with hdm | hdm <;> rw [hdm] at hpack ⊢ <;> exact hpack
  | 0x28, _ | 0x29, _ | 0x2A, _ | 0x2B, _ | 0x2C, _ | 0x2D, _ | 0x2E, _ | 0x2F, _ =>
    exact pack1RP_fields (BitVec.eq_of_toNat_eq h)
  | 0x30, _ => exact pack1R_fields (BitVec.eq_of_toNat_eq h)
  | 0x33, _ | 0x35, _ => exact pack2R_fields (BitVec.eq_of_toNat_eq h)
  | 0x34, _ | 0x36, _ => exact pack1RI_fields (BitVec.eq_of_toNat_eq h)
  | 0x37, _ => exact packIA_zero (BitVec.eq_of_toNat_eq h)
  | 0x06, _ | 0x07, _ | 0x31, _ | 0x32, _ | 0x38, _ | 0x39, _ | 0x3A, _ | 0x3B, _ | 0x3C, _ | 0x3D, _ | 0x3E, _
  | 0x3F, _ => exact packIA_fields (BitVec.eq_of_toNat_eq h)
  | n + 0x40, hlt => omega

/-- Every format uses the six bits of the opcode (`30_encoding.md` R80). -/
theorem fieldOp_usedBits (i : Instr) : fieldOp (usedBits i) = BitVec.allOnes 6 := by
  cases i <;> simp [usedBits, fieldOp]

/-- Clearing unused bits keeps the opcode. -/
theorem fieldOp_and_usedBits (w : Word) (i : Instr) : fieldOp (w &&& usedBits i) = fieldOp w := by
  have hmask := fieldOp_usedBits i
  rw [fieldOp] at hmask
  rw [fieldOp, fieldOp, BitVec.extractLsb'_and, hmask, BitVec.and_allOnes]

/-- The opcode alone decides which bits are used: DIV and DIVU, which share one, use the same bits. -/
theorem usedBits_decodeWord {w : Word} {i : Instr} (hop : fieldOp w = i.opcode) :
    usedBits (decodeWord w) = usedBits i := by
  rw [decodeWord, hop]
  cases i with
  | div | divu => rcases BitVec.eq_zero_or_eq_one (fieldDM w) with hdm | hdm <;> rw [hdm] <;> rfl
  | _ => rfl

/-- A word decodes to an instruction if and only if its used bits are the instruction's own word. -/
theorem decodeWord_eq_iff (w : Word) (i : Instr) : decodeWord w = i ↔ w &&& usedBits i = encode i := by
  constructor
  · rintro rfl
    exact (encode_decodeWord w).symm
  · intro h
    have hop : fieldOp w = i.opcode := by rw [← fieldOp_encode, ← h, fieldOp_and_usedBits]
    apply encode_injective
    rw [encode_decodeWord, usedBits_decodeWord hop, h]

/-! ### Words as the spec writes them (`30_encoding.md` R83) -/

/-- A word of format 3R decodes by its used fields alone, whatever its bits 10 to 0 hold. -/
theorem decodeWord_word3R {i : Instr} {op : BitVec 6} {ra rb rc : RegNum} (unused : BitVec 11)
    (he : encode i = pack3R op ra rb rc) (hu : usedBits i = 0xFFFFF800#32) :
    decodeWord (word3R op.toNat ra rb rc unused) = i := by
  rw [decodeWord_eq_iff, hu, ← pack3R_fields rfl, he]
  simp

/-- A word of format 2R+I is the packing of its fields. -/
theorem decodeWord_word2RI {i : Instr} {op : BitVec 6} {ra rb : RegNum} {imm : Half}
    (he : encode i = pack2RI op ra rb imm) : decodeWord (word2RI op.toNat ra rb imm) = i := by
  rw [← pack2RI_eq_word2RI, ← he, decodeWord_encode]

/-- A word of format IA, or of an opcode whose 26 low bits are kept, is the packing of its fields. -/
theorem decodeWord_wordIA {i : Instr} {op : BitVec 6} {ia : BitVec 26} (he : encode i = packIA op ia) :
    decodeWord (wordIA op.toNat ia) = i := by
  rw [← packIA_eq_wordIA, ← he, decodeWord_encode]

/-- An invalid opcode's word decodes to its row, and executing it stops with the whole word (`30_encoding.md` R91). -/
theorem invalidOpcode_stops {i : Instr} {op : BitVec 6} {low : BitVec 26} {s : State} (he : encode i = packIA op low)
    (hx : exec i s = illegal (packIA op low) s) :
    decodeWord (wordIA op.toNat low) = i ∧ exec i s = .fault (.illegalInstruction (wordIA op.toNat low)) :=
  ⟨decodeWord_wordIA he, by rw [hx, illegal, packIA_eq_wordIA]⟩

/-! ### Assembling a machine instruction -/

/-- A mnemonic of the table, no pseudo-instruction, assembles to the one instruction its form builds
(`47_assembler_and_conventions.md` R246). -/
theorem assembles_of_build {name : String} {ops : List Operand} {i : Instr} (f : AsmForm)
    (hpseudo : name.toList ∉ ["LA".toList, "CALL".toList, "RET".toList]) (hf : asmTable.lookup name.toList = some f)
    (hb : ∀ env a, f.build env a ops = .ok i) : Assembles name ops i := by
  intro env a
  simp only [List.mem_cons, List.not_mem_nil, or_false, not_or] at hpseudo
  obtain ⟨hla, hcall, hret⟩ := hpseudo
  unfold expand
  rw [if_neg hla, if_neg hcall, if_neg hret, hf]
  exact congrArg (Except.map fun i => [i]) (hb env a)

/-- An unsigned immediate is its own field (`47_assembler_and_conventions.md` R249). -/
theorem immField_toNat (i : Half) : immField i.toNat = .ok i := by
  have hi := i.isLt
  rw [immField, if_pos (by omega), BitVec.ofInt_natCast, BitVec.ofNat_toNat, BitVec.setWidth_eq]

/-! ### The statements -/

/-- Settles O4: the opcode selects the row, the fields give the operands, and the four bytes make the word. -/
theorem decodingAnEncodedInstructionGivesItBack : Obligations.DecodingAnEncodedInstructionGivesItBack := by
  intro i
  rw [decodeBytes_bytesOfWord, decodeWord_encode]
  exact ⟨rfl, rfl⟩

/-- Settles O5: a word decodes by its used bits, which are the word its instruction encodes to. -/
theorem unusedBitsAreIgnoredOnDecodeAndZeroOnEncode : Obligations.UnusedBitsAreIgnoredOnDecodeAndZeroOnEncode := by
  intro w v
  refine ⟨encode_decodeWord w, fun h => ?_⟩
  rw [decodeWord_eq_iff, h, encode_decodeWord]

/-- Settles O25: both opcodes' words decode, whatever their unused bits, and the two rows have one meaning; the table of
mnemonics holds the primary row alone. -/
theorem duplicateOpcodesExecuteAsThePrimaryOnes : Obligations.DuplicateOpcodesExecuteAsThePrimaryOnes := by
  intro s ra rb rc unused i
  have hsllv (u : BitVec 11) : decodeWord (word3R 0x14 ra rb rc u) = .sllv ra rb rc :=
    decodeWord_word3R (op := 0x14#6) u rfl rfl
  have hsllvDup : decodeWord (word3R 0x16 ra rb rc unused) = .sllvDup ra rb rc :=
    decodeWord_word3R (op := 0x16#6) unused rfl rfl
  have hsll : decodeWord (word2RI 0x15 ra rb i) = .sll ra rb i := decodeWord_word2RI (op := 0x15#6) rfl
  have hsllDup : decodeWord (word2RI 0x17 ra rb i) = .sllDup ra rb i := decodeWord_word2RI (op := 0x17#6) rfl
  have heq (u : BitVec 11) : decodeWord (word3R 0x18 ra rb rc u) = .eq ra rb rc :=
    decodeWord_word3R (op := 0x18#6) u rfl rfl
  have heqDup : decodeWord (word3R 0x1A ra rb rc unused) = .eqDup ra rb rc :=
    decodeWord_word3R (op := 0x1A#6) unused rfl rfl
  rw [hsllv, hsllv, hsllvDup, hsll, hsllDup, heq, heq, heqDup]
  refine ⟨rfl, rfl, rfl, ?_, ?_, ?_⟩
  · exact assembles_of_build (.r3 .sllv) (by decide) rfl fun _ _ => rfl
  · refine assembles_of_build (.r2i .sll) (by decide) rfl fun _ _ => ?_
    rw [AsmForm.build, immField_toNat]
    rfl
  · exact assembles_of_build (.r3 .eq) (by decide) rfl fun _ _ => rfl

/-- Settles O6: closed words, decoded. -/
theorem wordsOfTheSpecDecodeRight : Obligations.WordsOfTheSpecDecodeRight := by
  unfold Obligations.WordsOfTheSpecDecodeRight
  decide

/-- Settles O8: each of the ten rows keeps its whole word and its meaning is `illegal` of that word. -/
theorem invalidOpcodesStopWithIllegalInstruction : Obligations.InvalidOpcodesStopWithIllegalInstruction := fun _ _ =>
  ⟨invalidOpcode_stops (op := 0x06#6) rfl rfl, invalidOpcode_stops (op := 0x07#6) rfl rfl,
    invalidOpcode_stops (op := 0x38#6) rfl rfl, invalidOpcode_stops (op := 0x39#6) rfl rfl,
    invalidOpcode_stops (op := 0x3A#6) rfl rfl, invalidOpcode_stops (op := 0x3B#6) rfl rfl,
    invalidOpcode_stops (op := 0x3C#6) rfl rfl, invalidOpcode_stops (op := 0x3D#6) rfl rfl,
    invalidOpcode_stops (op := 0x3E#6) rfl rfl, invalidOpcode_stops (op := 0x3F#6) rfl rfl, by decide, by decide⟩

end Sys2Proof.Machine
end

section
/-! Proofs of the statements about the logical instructions (`40_logical.md`): each is a row of format 3R or 2R+I, given by
its packing, its unused bits and its entry in the assembler's table, whose meaning is one register write. -/

namespace Sys2Proof.Machine

/-! ### A row of the opcode table in its form (`30_encoding.md` R83, `47_assembler_and_conventions.md` R246) -/

/-- An immediate the assembler accepts is stored as the low 16 bits of its two's complement
(`47_assembler_and_conventions.md` R249, decision D37). -/
theorem immField_of_range {v : Int} (hlo : -32768 ≤ v) (hhi : v ≤ 65535) : immField v = .ok (BitVec.ofInt 16 v) :=
  if_pos ⟨hlo, hhi⟩

/-- A row packed in format 3R, with bits 10 to 0 unused and an entry `RA,RB,RC` in the assembler's table, has that
form. -/
theorem form3R_of_row {op : BitVec 6} {name : String} {mk : RegNum → RegNum → RegNum → Instr}
    (he : ∀ ra rb rc, encode (mk ra rb rc) = pack3R op ra rb rc)
    (hu : ∀ ra rb rc, usedBits (mk ra rb rc) = 0xFFFFF800#32)
    (hpseudo : name.toList ∉ ["LA".toList, "CALL".toList, "RET".toList])
    (hf : asmTable.lookup name.toList = some (.r3 mk)) : Form3R op.toNat name mk := by
  intro ra rb rc
  refine ⟨fun unused => ?decodes, ?encodes, ?assembles⟩
  case decodes => exact decodeWord_word3R unused (he ra rb rc) (hu ra rb rc)
  case encodes => rw [he, pack3R_eq_word3R]
  case assembles => exact assembles_of_build (.r3 mk) hpseudo hf fun _ _ => rfl

/-- A row packed in format 2R+I, with an entry `RA,RB,I` in the assembler's table, has that form. -/
theorem form2RI_of_row {op : BitVec 6} {name : String} {mk : RegNum → RegNum → Half → Instr}
    (he : ∀ ra rb i, encode (mk ra rb i) = pack2RI op ra rb i)
    (hpseudo : name.toList ∉ ["LA".toList, "CALL".toList, "RET".toList])
    (hf : asmTable.lookup name.toList = some (.r2i mk)) : Form2RI op.toNat name mk := by
  intro ra rb
  refine ⟨fun i => ⟨?decodes, ?encodes⟩, fun v hlo hhi => ?assembles⟩
  case decodes => exact decodeWord_word2RI (he ra rb i)
  case encodes => rw [he, pack2RI_eq_word2RI]
  case assembles =>
    refine assembles_of_build (.r2i mk) hpseudo hf fun _ _ => ?_
    rw [AsmForm.build, immField_of_range hlo hhi]
    rfl

/-! ### An instruction whose meaning is one register write -/

/-- An instruction that does no more than `x[RA] <- v` completes, with the frame of that write. -/
theorem completes_of_setReg {i : Instr} {s : State} {ra : RegNum} {v : Word} (hx : exec i s = .next (s.setReg ra v)) :
    ∃ t, exec i s = .next t ∧ WritesReg s t ra v :=
  ⟨s.setReg ra v, hx, writesReg_setReg s ra v⟩

/-- A zero-extended immediate has the immediate's own value (`30_encoding.md` R85). -/
theorem ofNat_toNat_eq_zextI (i : Half) : BitVec.ofNat 32 i.toNat = zextI i := BitVec.ofNat_toNat 32 i

/-! ### The statements -/

/-- Settles O11: three rows of format 3R, each one write of the bitwise result to R_A. -/
theorem logicalRegisterInstructions : Obligations.LogicalRegisterInstructions := by
  refine ⟨?or, ?and, ?xor, fun s ra rb rc => ⟨?execOr, ?execAnd, ?execXor⟩⟩
  case or => exact form3R_of_row (op := 0x00#6) (fun _ _ _ => rfl) (fun _ _ _ => rfl) (by decide) rfl
  case and => exact form3R_of_row (op := 0x02#6) (fun _ _ _ => rfl) (fun _ _ _ => rfl) (by decide) rfl
  case xor => exact form3R_of_row (op := 0x04#6) (fun _ _ _ => rfl) (fun _ _ _ => rfl) (by decide) rfl
  case execOr | execAnd | execXor => exact completes_of_setReg rfl

/-- Settles O12: three rows of format 2R+I, each one write of the bitwise result with the zero-extended immediate to
R_A. -/
theorem logicalImmediateInstructions : Obligations.LogicalImmediateInstructions := by
  refine ⟨?ori, ?andi, ?xori, fun s ra rb i => ?exec⟩
  case ori => exact form2RI_of_row (op := 0x01#6) (fun _ _ _ => rfl) (by decide) rfl
  case andi => exact form2RI_of_row (op := 0x03#6) (fun _ _ _ => rfl) (by decide) rfl
  case xori => exact form2RI_of_row (op := 0x05#6) (fun _ _ _ => rfl) (by decide) rfl
  case exec =>
    rw [ofNat_toNat_eq_zextI]
    exact ⟨completes_of_setReg rfl, completes_of_setReg rfl, completes_of_setReg rfl⟩

end Sys2Proof.Machine
end

section
/-! Proofs of the statements about arithmetic (`41_arithmetic.md`): every result word is the number the spec writes for
it, and every branch of a meaning is one shared operation whose frame `Sys2Proof/Laws/Frames.lean` gives. -/

namespace Sys2Proof.Machine

/-! ### Result words as numbers -/

/-- A sign-extended immediate has the immediate's own signed value (`30_encoding.md` R85). -/
@[simp] theorem sextI_toInt (i : Half) : (sextI i).toInt = i.toInt := BitVec.toInt_signExtend_of_le (by decide)

theorem ofInt_toInt_eq_sextI (i : Half) : BitVec.ofInt 32 i.toInt = sextI i := by
  rw [← sextI_toInt, BitVec.ofInt_toInt]

/-- An immediate that is not negative is sign-extended to its own number. -/
theorem sextI_toNat_of_nonneg {i : Half} (h : 0 ≤ i.toInt) : (sextI i).toNat = i.toNat := by
  have hmsb : i.msb = false := by rw [BitVec.msb_eq_toInt, decide_eq_false (not_lt.mpr h)]
  rw [sextI, BitVec.signExtend_eq_setWidth_of_msb_false hmsb, BitVec.toNat_setWidth_of_le (by decide)]

theorem sextI_injective : Function.Injective sextI := fun i j h =>
  BitVec.eq_of_toInt_eq (by rw [← sextI_toInt, h, sextI_toInt])

/-- The low 32 bits of a difference of unsigned numbers. -/
theorem ofInt_toNat_sub (a b : Word) : BitVec.ofInt 32 (a.toNat - b.toNat : Int) = a - b := by
  apply BitVec.eq_of_toNat_eq
  simp only [BitVec.toNat_ofInt, BitVec.toNat_sub]
  omega

/-- The signed quotient, rounded toward zero, modulo 2^32 (`41_arithmetic.md` R142, decision D12). -/
theorem ofInt_tdiv_eq_sdiv (a b : Word) : BitVec.ofInt 32 (a.toInt.tdiv b.toInt) = a.sdiv b := by
  apply BitVec.eq_of_toInt_eq
  rw [BitVec.toInt_sdiv, BitVec.toInt_ofInt]

/-- The signed remainder, with the sign of the dividend (`41_arithmetic.md` R142, decision D12). -/
theorem ofInt_tmod_eq_srem (a b : Word) : BitVec.ofInt 32 (a.toInt.tmod b.toInt) = a.srem b := by
  rw [← BitVec.toInt_srem, BitVec.ofInt_toInt]

/-- An immediate is odd exactly when its bit 0 is set (`41_arithmetic.md` R141). -/
theorem getLsbD_zero_eq_decide_odd (i : Half) : i.getLsbD 0 = decide (i.toNat % 2 = 1) := Nat.testBit_zero _

theorem sdivOverflows_iff (a b : Word) : sdivOverflows a b = true ↔ a = 0x80000000#32 ∧ b = 0xFFFFFFFF#32 := by
  rw [sdivOverflows, Bool.and_eq_true, beq_iff_eq, beq_iff_eq]

/-- The one immediate that is -1 as a divisor. -/
theorem sdivOverflows_sextI_iff (a : Word) (i : Half) :
    sdivOverflows a (sextI i) = true ↔ a = 0x80000000#32 ∧ i = 0xFFFF#16 := by
  rw [sdivOverflows_iff, show 0xFFFFFFFF#32 = sextI 0xFFFF#16 from rfl, sextI_injective.eq_iff]

/-! ### Words of format 4R+M (`30_encoding.md` R83, R84) -/

/-- A word of format 4R+M decodes by its used fields alone, whatever its bits 5 to 1 hold. -/
theorem decodeWord_word4RM {i : Instr} {op : BitVec 6} {ra rb rc rd : RegNum} {dm : BitVec 1} (unused : BitVec 5)
    (he : encode i = pack4RM op ra rb rc rd dm) (hu : usedBits i = 0xFFFFFFC1#32) :
    decodeWord (word4RM op.toNat ra rb rc rd unused dm.toNat) = i := by
  rw [decodeWord_eq_iff, hu, ← pack4RM_fields rfl, he]
  simp

/-! ### Instructions whose meaning is one add, subtract or double write -/

/-- An instruction that adds `a` and `b` into RA completes with the low word of the sum and its carry out
(`41_arithmetic.md` R131, R132). -/
theorem completes_of_sum33 {i : Instr} {s : State} {ra : RegNum} {a b : Word}
    (hx : exec i s = .next (s.setSum ra (sum33 a b))) :
    ∃ t, exec i s = .next t ∧
      WritesSum s t ra (BitVec.ofNat 32 (a.toNat + b.toNat)) (decide (2 ^ 32 ≤ a.toNat + b.toNat)) := by
  have hw := writesSum_setSum s ra (sum33 a b)
  rw [sum33_low, sum33_bit32] at hw
  exact ⟨_, hx, hw⟩

/-- An instruction that subtracts `b` from `a` into RA completes with the low word of the difference and its borrow
(`41_arithmetic.md` R133, R134). -/
theorem completes_of_diff33 {i : Instr} {s : State} {ra : RegNum} {a b : Word}
    (hx : exec i s = .next (s.setSum ra (diff33 a b))) :
    ∃ t, exec i s = .next t ∧
      WritesSum s t ra (BitVec.ofInt 32 (a.toNat - b.toNat : Int)) (decide (a.toNat < b.toNat)) := by
  have hw := writesSum_setSum s ra (diff33 a b)
  rw [diff33_low, diff33_bit32, ← ofInt_toNat_sub] at hw
  exact ⟨_, hx, hw⟩

/-- An instruction that does no more than `x[RA] <- q`, then `x[RD] <- r`, completes with the frame of these writes. -/
theorem completes_of_setQuotRem {i : Instr} {s : State} {ra rd : RegNum} {q r : Word}
    (hx : exec i s = .next (s.setQuotRem ra rd q r)) : ∃ t, exec i s = .next t ∧ WritesTwo s t ra q rd r :=
  ⟨_, hx, writesTwo_setQuotRem s ra rd q r⟩

/-- An instruction that does no more than write a drawn value to RA completes with the frame of that write. -/
theorem completes_of_draw_setReg {i : Instr} {s : State} {ra : RegNum} {v : Word}
    (hx : exec i s = .next (s.draw.setReg ra v)) : ∃ t q, exec i s = .next t ∧ WritesReg s t ra q :=
  ⟨_, v, hx, writesReg_draw_setReg s ra v⟩

/-- A division by zero completes, with register 30 alone changed (`41_arithmetic.md` R143). -/
theorem completes_of_divByZero {i : Instr} {s : State} {a : Word} (hx : exec i s = .next (s.divByZero a)) :
    ∃ t, exec i s = .next t ∧ (∀ r, r ≠ 30#5 → t.reg r = s.reg r) ∧ SameElse s t :=
  ⟨_, hx, divByZero_frame s a⟩

/-! ### The branches of the divisions (`41_arithmetic.md` R140 to R143) -/

section
variable {s : State} {ra rb rc rd : RegNum} {i : Half}

theorem exec_div_of_zero (h : s.reg rc = 0#32) : exec (.div ra rb rc rd) s = .next (s.divByZero (s.reg rb)) :=
  if_pos h

theorem exec_div_of_overflow (hb : s.reg rb = 0x80000000#32) (hc : s.reg rc = 0xFFFFFFFF#32) :
    exec (.div ra rb rc rd) s =
      .next (s.draw.setQuotRem ra rd (Config.sdivOverflowQuot s.draws) (Config.sdivOverflowRem s.draws)) := by
  have hne : s.reg rc ≠ 0#32 := by rw [hc]; decide
  exact (if_neg hne).trans (if_pos ((sdivOverflows_iff _ _).mpr ⟨hb, hc⟩))

theorem exec_div_of_settled (h : s.reg rc ≠ 0#32) (hov : ¬(s.reg rb = 0x80000000#32 ∧ s.reg rc = 0xFFFFFFFF#32)) :
    exec (.div ra rb rc rd) s =
      .next (s.setQuotRem ra rd ((s.reg rb).sdiv (s.reg rc)) ((s.reg rb).srem (s.reg rc))) :=
  (if_neg h).trans (if_neg ((sdivOverflows_iff _ _).not.mpr hov))

theorem exec_divu_of_zero (h : s.reg rc = 0#32) : exec (.divu ra rb rc rd) s = .next (s.divByZero (s.reg rb)) :=
  if_pos h

theorem exec_divu_of_ne_zero (h : s.reg rc ≠ 0#32) :
    exec (.divu ra rb rc rd) s = .next (s.setQuotRem ra rd (s.reg rb / s.reg rc) (s.reg rb % s.reg rc)) :=
  if_neg h

theorem exec_divi_zero : exec (.divi ra rb 0#16) s = .fault .divideByZero := rfl

/-- An odd immediate is not 0, and DIVI divides signed by it (`41_arithmetic.md` R141). -/
theorem exec_divi_of_odd (h : i.toNat % 2 = 1) :
    exec (.divi ra rb i) s =
      if sdivOverflows (s.reg rb) (sextI i) then .next (s.draw.setReg ra (Config.sdivOverflowQuot s.draws))
      else .next (s.setReg ra ((s.reg rb).sdiv (sextI i))) := by
  have hne : i ≠ 0#16 := by rintro rfl; cases h
  have hodd : i.getLsbD 0 = true := by rw [getLsbD_zero_eq_decide_odd, decide_eq_true h]
  exact (if_neg hne).trans (if_pos hodd)

/-- With an even immediate that is not 0 the signs of the operands decide what DIVI writes (`41_arithmetic.md` R141). -/
theorem exec_divi_of_even (h : i.toNat % 2 = 0) (hne : i ≠ 0#16) :
    exec (.divi ra rb i) s =
      if (s.reg rb).msb || i.msb then .next (s.draw.setReg ra (Config.diviEvenMode s.draws (s.reg rb) i))
      else .next (s.setReg ra (s.reg rb / sextI i)) := by
  have heven : ¬i.getLsbD 0 = true := by rw [getLsbD_zero_eq_decide_odd, decide_eq_true_iff]; omega
  exact (if_neg hne).trans (if_neg heven)

theorem exec_divi_of_odd_overflow (h : i.toNat % 2 = 1) (hov : s.reg rb = 0x80000000#32 ∧ i = 0xFFFF#16) :
    exec (.divi ra rb i) s = .next (s.draw.setReg ra (Config.sdivOverflowQuot s.draws)) := by
  rw [exec_divi_of_odd h, if_pos ((sdivOverflows_sextI_iff _ _).mpr hov)]

theorem exec_divi_of_odd_settled (h : i.toNat % 2 = 1) (hov : ¬(s.reg rb = 0x80000000#32 ∧ i = 0xFFFF#16)) :
    exec (.divi ra rb i) s = .next (s.setReg ra ((s.reg rb).sdiv (sextI i))) := by
  rw [exec_divi_of_odd h, if_neg ((sdivOverflows_sextI_iff _ _).not.mpr hov)]

theorem exec_divi_of_even_negative (h : i.toNat % 2 = 0) (hne : i ≠ 0#16)
    (hneg : (s.reg rb).toInt < 0 ∨ i.toInt < 0) :
    exec (.divi ra rb i) s = .next (s.draw.setReg ra (Config.diviEvenMode s.draws (s.reg rb) i)) := by
  rw [exec_divi_of_even h hne, if_pos]
  rwa [Bool.or_eq_true, BitVec.msb_eq_toInt, BitVec.msb_eq_toInt, decide_eq_true_iff, decide_eq_true_iff]

theorem exec_divi_of_even_nonneg (h : i.toNat % 2 = 0) (hne : i ≠ 0#16) (hb : 0 ≤ (s.reg rb).toInt)
    (hi : 0 ≤ i.toInt) : exec (.divi ra rb i) s = .next (s.setReg ra (s.reg rb / sextI i)) := by
  rw [exec_divi_of_even h hne, if_neg]
  rw [Bool.or_eq_true, BitVec.msb_eq_toInt, BitVec.msb_eq_toInt, decide_eq_true_iff, decide_eq_true_iff]
  omega

end

/-! ### The statements -/

/-- Settles O13: two rows of format 3R, each one 33-bit result into R_A and Carry. -/
theorem addAndSubtractRegisters : Obligations.AddAndSubtractRegisters := by
  refine ⟨?add, ?sub, fun s ra rb rc => ⟨?execAdd, ?execSub⟩⟩
  case add => exact form3R_of_row (op := 0x08#6) (fun _ _ _ => rfl) (fun _ _ _ => rfl) (by decide) rfl
  case sub => exact form3R_of_row (op := 0x0A#6) (fun _ _ _ => rfl) (fun _ _ _ => rfl) (by decide) rfl
  case execAdd => exact completes_of_sum33 rfl
  case execSub => exact completes_of_diff33 rfl

/-- Settles O14: two rows of format 2R+I, the second operand the sign-extended immediate. -/
theorem addAndSubtractImmediate : Obligations.AddAndSubtractImmediate := by
  refine ⟨?addi, ?subi, fun s ra rb i b hb => ?exec⟩
  case addi => exact form2RI_of_row (op := 0x09#6) (fun _ _ _ => rfl) (by decide) rfl
  case subi => exact form2RI_of_row (op := 0x0B#6) (fun _ _ _ => rfl) (by decide) rfl
  case exec =>
    obtain rfl : b = sextI i := hb.trans (ofInt_toInt_eq_sextI i)
    exact ⟨completes_of_sum33 rfl, completes_of_diff33 rfl⟩

/-- Settles O15: one write of the product, which modulo 2^32 is the same of signed and of unsigned numbers. -/
theorem multiplyKeepsTheLowWord : Obligations.MultiplyKeepsTheLowWord := by
  refine ⟨?mult, ?multi, fun s ra rb rc i => ⟨?execMult, ?execMulti⟩⟩
  case mult => exact form3R_of_row (op := 0x0C#6) (fun _ _ _ => rfl) (fun _ _ _ => rfl) (by decide) rfl
  case multi => exact form2RI_of_row (op := 0x0D#6) (fun _ _ _ => rfl) (by decide) rfl
  case execMult =>
    rw [BitVec.ofNat_mul, BitVec.ofNat_toNat, BitVec.ofNat_toNat, BitVec.setWidth_eq, BitVec.setWidth_eq]
    exact completes_of_setReg rfl
  case execMulti =>
    rw [BitVec.ofInt_mul, BitVec.ofInt_toInt, ofInt_toInt_eq_sextI]
    exact completes_of_setReg rfl

/-- Settles O16: the row's two words, told apart by DM, and the branch of each meaning that writes both results. -/
theorem divisionByANonzeroRegister : Obligations.DivisionByANonzeroRegister := by
  refine ⟨fun ra rb rc rd unused => ⟨?decodesDiv, ?decodesDivu, ?encodesDiv, ?encodesDivu⟩,
    fun ra rb rc => ⟨?assemblesDiv, ?assemblesDivu⟩, fun s ra rb rc rd hc => ⟨fun hov => ?execDiv, ?execDivu⟩⟩
  case decodesDiv => exact decodeWord_word4RM (op := 0x0E#6) (dm := 1#1) unused rfl rfl
  case decodesDivu => exact decodeWord_word4RM (op := 0x0E#6) (dm := 0#1) unused rfl rfl
  case encodesDiv => exact pack4RM_eq_word4RM 0x0E#6 ra rb rc rd 1#1
  case encodesDivu => exact pack4RM_eq_word4RM 0x0E#6 ra rb rc rd 0#1
  case assemblesDiv =>
    exact assembles_of_build (.r3 fun a b c => .div a b c 0#5) (by decide) rfl fun _ _ => rfl
  case assemblesDivu =>
    exact assembles_of_build (.r3 fun a b c => .divu a b c 0#5) (by decide) rfl fun _ _ => rfl
  case execDiv =>
    rw [ofInt_tdiv_eq_sdiv, ofInt_tmod_eq_srem]
    exact completes_of_setQuotRem (exec_div_of_settled hc hov)
  case execDivu =>
    rw [← BitVec.udiv_def, ← BitVec.umod_def]
    exact completes_of_setQuotRem (exec_divu_of_ne_zero hc)

/-- Settles O17: both meanings take the branch that writes no destination. -/
theorem divisionByAZeroRegisterWritesOnlyTheStatusRegister :
    Obligations.DivisionByAZeroRegisterWritesOnlyTheStatusRegister := fun _ _ _ _ _ hc =>
  ⟨completes_of_divByZero (exec_div_of_zero hc), completes_of_divByZero (exec_divu_of_zero hc)⟩

/-- Settles O18: both meanings draw their results and go on; the immediate 0xFFFF is odd and is -1. -/
theorem signedDivisionOverflowWritesOnlyItsDestinations :
    Obligations.SignedDivisionOverflowWritesOnlyItsDestinations := by
  intro s ra rb rc rd hb
  refine ⟨fun hc => ?div, ?divi⟩
  case div => exact ⟨_, _, _, exec_div_of_overflow hb hc, writesTwo_draw_setQuotRem s ra rd _ _⟩
  case divi => exact completes_of_draw_setReg (exec_divi_of_odd_overflow rfl ⟨hb, rfl⟩)

/-- Settles O19: an odd immediate takes the signed branch; an even one with no negative operand the other, where signed
and unsigned quotient are one. -/
theorem divideImmediateWhereSettled : Obligations.DivideImmediateWhereSettled := by
  refine ⟨?divi, fun s ra rb i => ⟨fun hodd hov => ?odd, fun heven hne hb hi => ?even⟩⟩
  case divi => exact form2RI_of_row (op := 0x0F#6) (fun _ _ _ => rfl) (by decide) rfl
  case odd =>
    rw [← sextI_toInt, ofInt_tdiv_eq_sdiv]
    exact completes_of_setReg (exec_divi_of_odd_settled hodd hov)
  case even =>
    rw [← sextI_toNat_of_nonneg hi, ← BitVec.udiv_def]
    exact completes_of_setReg (exec_divi_of_even_nonneg heven hne hb hi)

/-- Settles O20: the branch that draws the quotient, and the one that stops before any register is read. -/
theorem divideImmediateWhereOpen : Obligations.DivideImmediateWhereOpen := fun _ _ _ _ =>
  ⟨fun heven hne hneg => completes_of_draw_setReg (exec_divi_of_even_negative heven hne hneg), exec_divi_zero⟩

end Sys2Proof.Machine
end

section
/-! Proofs of the statements about the shifts (`42_shift.md`): each meaning is the one shared operation `State.shift`, whose
result `shiftBy` is a quotient by a power of 2 to the right and a product with one to the left. -/

namespace Sys2Proof.Machine

/-! ### The shifted value as a number -/

/-- The arithmetic right shift divides the signed value, rounding down (`42_shift.md` R151, R152). -/
theorem shiftBy_sra (v : Word) (n : Nat) : shiftBy .sra v n = BitVec.ofInt 32 (v.toInt / 2 ^ n) := by
  rw [shiftBy, BitVec.sshiftRight, Int.shiftRight_eq_div_pow, Nat.cast_pow, Nat.cast_ofNat]

/-- The logical right shift divides the unsigned value (`42_shift.md` R153, R154). -/
theorem shiftBy_srl (v : Word) (n : Nat) : shiftBy .srl v n = BitVec.ofNat 32 (v.toNat / 2 ^ n) := by
  rw [← Nat.shiftRight_eq_div_pow, ← BitVec.toNat_ushiftRight, BitVec.ofNat_toNat, BitVec.setWidth_eq, shiftBy]

/-- The left shift keeps the low 32 bits of the product (`42_shift.md` R155, R156). -/
theorem shiftBy_sll (v : Word) (n : Nat) : shiftBy .sll v n = BitVec.ofNat 32 (v.toNat * 2 ^ n) :=
  congrArg (BitVec.ofNat 32) (Nat.shiftLeft_eq v.toNat n)

/-- A zero-extended immediate is the immediate's own number, as a shift amount too (`30_encoding.md` R85). -/
theorem zextI_toNat (i : Half) : (zextI i).toNat = i.toNat := BitVec.toNat_setWidth_of_le (by decide)

/-! ### Instructions whose meaning is one shift -/

section
variable {i : Instr} {s : State} {ra : RegNum} {op : ShiftOp} {v : Word}

/-- An instruction that does no more than shift `v` by the word `n` into RA completes with the frame of one register
write; the value is settled for an amount from 0 to 31 (`42_shift.md` R150, decision D15). -/
theorem completes_of_shift {n : Word} (hx : exec i s = s.shift ra op v n) :
    ∃ t x, exec i s = .next t ∧ WritesReg s t ra x ∧ (n.toNat ≤ 31 → x = shiftBy op v n.toNat) :=
  hx ▸ shift_writesReg s ra op v n

/-- The same for an instruction whose amount is its zero-extended immediate. -/
theorem completes_of_shift_zextI {k : Half} (hx : exec i s = s.shift ra op v (zextI k)) :
    ∃ t x, exec i s = .next t ∧ WritesReg s t ra x ∧ (k.toNat ≤ 31 → x = shiftBy op v k.toNat) :=
  zextI_toNat k ▸ completes_of_shift hx

end

/-! ### The statements -/

/-- Settles O21: four rows, two of format 3R and two of format 2R+I, each one shift whose value is a quotient. -/
theorem rightShifts : Obligations.RightShifts := by
  refine ⟨?srav, ?sra, ?srlv, ?srl, fun s ra rb rc i => ⟨?execSrav, ?execSra, ?execSrlv, ?execSrl⟩⟩
  case srav => exact form3R_of_row (op := 0x10#6) (fun _ _ _ => rfl) (fun _ _ _ => rfl) (by decide) rfl
  case sra => exact form2RI_of_row (op := 0x11#6) (fun _ _ _ => rfl) (by decide) rfl
  case srlv => exact form3R_of_row (op := 0x12#6) (fun _ _ _ => rfl) (fun _ _ _ => rfl) (by decide) rfl
  case srl => exact form2RI_of_row (op := 0x13#6) (fun _ _ _ => rfl) (by decide) rfl
  case execSrav =>
    rw [← shiftBy_sra]
    exact completes_of_shift rfl
  case execSra =>
    rw [← shiftBy_sra]
    exact completes_of_shift_zextI rfl
  case execSrlv =>
    rw [← shiftBy_srl]
    exact completes_of_shift rfl
  case execSrl =>
    rw [← shiftBy_srl]
    exact completes_of_shift_zextI rfl

/-- Settles O22: a row of format 3R and one of format 2R+I, each one shift whose value is a product; the duplicate
opcodes' rows have the same two meanings. -/
theorem leftShifts : Obligations.LeftShifts := by
  refine ⟨?sllv, ?sll, fun s ra rb rc i => ?exec⟩
  case sllv => exact form3R_of_row (op := 0x14#6) (fun _ _ _ => rfl) (fun _ _ _ => rfl) (by decide) rfl
  case sll => exact form2RI_of_row (op := 0x15#6) (fun _ _ _ => rfl) (by decide) rfl
  case exec =>
    rw [← shiftBy_sll, ← shiftBy_sll]
    exact ⟨completes_of_shift rfl, completes_of_shift_zextI rfl, completes_of_shift rfl, completes_of_shift_zextI rfl⟩

end Sys2Proof.Machine
end

section
/-! Proofs of the statements about the relational instructions (`43_relational.md`): each meaning writes the truth value of
one test on words, and each test on words says one comparison of the numbers the words stand for. -/

namespace Sys2Proof.Machine

/-! ### Tests on words as comparisons of numbers -/

/-- Equality of words, read as unsigned numbers (`43_relational.md` R161, R163). -/
theorem beq_iff_toNat_eq (a b : Word) : (a == b) = true ↔ a.toNat = b.toNat := beq_iff_eq.trans BitVec.toNat_inj.symm

/-- Equality with a sign-extended immediate, read as signed numbers (`43_relational.md` R162). -/
theorem beq_sextI_iff (a : Word) (i : Half) : (a == sextI i) = true ↔ a.toInt = i.toInt := by
  rw [beq_iff_eq, ← BitVec.toInt_inj, sextI_toInt]

/-- Equality with a zero-extended immediate (`43_relational.md` R163). -/
theorem beq_zextI_iff (a : Word) (i : Half) : (a == zextI i) = true ↔ a.toNat = i.toNat := by
  rw [beq_iff_toNat_eq, zextI_toNat]

/-- The signed order against a sign-extended immediate (`43_relational.md` R165). -/
theorem slt_sextI_iff (a : Word) (i : Half) : a.slt (sextI i) = true ↔ a.toInt < i.toInt := by
  rw [BitVec.slt_iff_toInt_lt, sextI_toInt]

/-- The unsigned order against a zero-extended immediate (`43_relational.md` R167). -/
theorem ult_zextI_iff (a : Word) (i : Half) : a.ult (zextI i) = true ↔ a.toNat < i.toNat := by
  rw [BitVec.ult_iff_toNat_lt, zextI_toNat]

/-! ### Instructions whose meaning is one test -/

/-- The truth value of a test is 1 where the proposition it decides holds, else 0 (`43_relational.md` R160). -/
theorem truth_eq_ite {b : Bool} {P : Prop} [Decidable P] (hb : b = true ↔ P) :
    truth b = if P then 1#32 else 0#32 :=
  if_congr hb rfl rfl

/-- An instruction that does no more than write the truth value of a test to RA completes, with the frame of that
write. -/
theorem completes_of_truth {i : Instr} {s : State} {ra : RegNum} {b : Bool} {P : Prop} [Decidable P]
    (hx : exec i s = .next (s.setReg ra (truth b))) (hb : b = true ↔ P) :
    ∃ t, exec i s = .next t ∧ WritesReg s t ra (if P then 1#32 else 0#32) :=
  truth_eq_ite hb ▸ completes_of_setReg hx

/-! ### The statements -/

/-- Settles O23: a row of format 3R and two of format 2R+I, each one write of an equality's truth value; the duplicate
opcode's row has the meaning of the first. -/
theorem equalityTests : Obligations.EqualityTests := by
  refine ⟨?eq, ?eqi, ?equi, ?eqDup, fun s ra rb rc i => ⟨?execEq, ?execEqDup, ?execEqi, ?execEqui⟩⟩
  case eq => exact form3R_of_row (op := 0x18#6) (fun _ _ _ => rfl) (fun _ _ _ => rfl) (by decide) rfl
  case eqi => exact form2RI_of_row (op := 0x19#6) (fun _ _ _ => rfl) (by decide) rfl
  case equi => exact form2RI_of_row (op := 0x1B#6) (fun _ _ _ => rfl) (by decide) rfl
  case eqDup => exact fun _ _ _ unused => decodeWord_word3R (op := 0x1A#6) unused rfl rfl
  case execEq | execEqDup => exact completes_of_truth rfl (beq_iff_toNat_eq _ _)
  case execEqi => exact completes_of_truth rfl (beq_sextI_iff _ i)
  case execEqui => exact completes_of_truth rfl (beq_zextI_iff _ i)

/-- Settles O24: two rows of format 3R and two of format 2R+I, each one write of an order's truth value, signed for the
first two and unsigned for the others. -/
theorem lessThanTests : Obligations.LessThanTests := by
  refine ⟨?lt, ?lti, ?ltu, ?ltui, fun s ra rb rc i => ⟨?execLt, ?execLti, ?execLtu, ?execLtui⟩⟩
  case lt => exact form3R_of_row (op := 0x1C#6) (fun _ _ _ => rfl) (fun _ _ _ => rfl) (by decide) rfl
  case lti => exact form2RI_of_row (op := 0x1D#6) (fun _ _ _ => rfl) (by decide) rfl
  case ltu => exact form3R_of_row (op := 0x1E#6) (fun _ _ _ => rfl) (fun _ _ _ => rfl) (by decide) rfl
  case ltui => exact form2RI_of_row (op := 0x1F#6) (fun _ _ _ => rfl) (by decide) rfl
  case execLt => exact completes_of_truth rfl BitVec.slt_iff_toInt_lt
  case execLti => exact completes_of_truth rfl (slt_sextI_iff _ i)
  case execLtu => exact completes_of_truth rfl BitVec.ult_iff_toNat_lt
  case execLtui => exact completes_of_truth rfl (ult_zextI_iff _ i)

end Sys2Proof.Machine
end

section
/-! Proofs of the statements about the loads and stores (`44_load_store.md`): each meaning is one access to the bytes at the
effective address, and the value it moves is the number the spec writes for it. -/

namespace Sys2Proof.Machine

/-! ### The effective address as a number -/

/-- The effective address, with the offset written as a signed number (`44_load_store.md` R170). -/
theorem effAddr_eq_add_ofInt (s : State) (rb : RegNum) (i : Half) :
    s.effAddr rb i = s.reg rb + BitVec.ofInt 32 i.toInt := by
  rw [ofInt_toInt_eq_sextI, State.effAddr]

/-- Adding a signed number to a word adds it to the word's unsigned value, modulo 2^32. -/
theorem toNat_add_ofInt (a : Word) (x : Int) : ((a + BitVec.ofInt 32 x).toNat : Int) = (a.toNat + x) % 2 ^ 32 := by
  rw [BitVec.toNat_add, BitVec.toNat_ofInt]
  omega

/-! ### A row of a load or store in its form (`47_assembler_and_conventions.md` R246, R247) -/

/-- A row packed in format 2R+I, with an entry `RA,RB[,I]` in the assembler's table, has the form of a load or store. -/
theorem formMem_of_row {op : BitVec 6} {name : String} {mk : RegNum → RegNum → Half → Instr}
    (he : ∀ ra rb i, encode (mk ra rb i) = pack2RI op ra rb i)
    (hpseudo : name.toList ∉ ["LA".toList, "CALL".toList, "RET".toList])
    (hf : asmTable.lookup name.toList = some (.mem mk)) : FormMem op.toNat name mk := by
  refine ⟨fun ra rb => ⟨fun i => ⟨?decodes, ?encodes⟩, fun v hlo hhi => ?assembles⟩, fun ra rb => ?offsetLeftOut⟩
  case decodes => exact decodeWord_word2RI (he ra rb i)
  case encodes => rw [he, pack2RI_eq_word2RI]
  case assembles =>
    refine assembles_of_build (.mem mk) hpseudo hf fun _ _ => ?_
    rw [AsmForm.build, immField_of_range hlo hhi]
    rfl
  case offsetLeftOut => exact assembles_of_build (.mem mk) hpseudo hf fun _ _ => rfl

/-! ### Loaded values as numbers (`20_memory.md` R53) -/

/-- A zero-extended byte as a number (`44_load_store.md` R171). -/
theorem zextByte_eq_ofNat (b : Byte) : zextByte b = BitVec.ofNat 32 b.toNat := (BitVec.ofNat_toNat 32 b).symm

/-- A sign-extended byte as a number (`44_load_store.md` R172). -/
theorem sextByte_eq_ofInt (b : Byte) : sextByte b = BitVec.ofInt 32 b.toInt := rfl

/-- A zero-extended half-word as the number its two bytes make, least significant first (`44_load_store.md` R173). -/
theorem zextHalf_peekHalf (s : State) (a : Word) :
    zextHalf (s.peekHalf a) =
      BitVec.ofNat 32 ((s.peekByte a).toNat + 2 ^ 8 * (s.peekByte (a + 1#32)).toNat) := by
  rw [zextHalf, ← BitVec.ofNat_toNat, State.peekHalf, toNat_append_add, Nat.add_comm, Nat.mul_comm]

/-- A sign-extended half-word as the number its two bytes make, the sign being that of the byte at the higher address
(`44_load_store.md` R174). -/
theorem sextHalf_peekHalf (s : State) (a : Word) :
    sextHalf (s.peekHalf a) =
      BitVec.ofInt 32 ((s.peekByte a).toNat + 2 ^ 8 * (s.peekByte (a + 1#32)).toInt) := by
  rw [sextHalf, BitVec.signExtend, State.peekHalf, BitVec.toInt_append, if_neg (by decide), Int.add_comm]

/-- A word as the number its four bytes make, least significant first (`44_load_store.md` R175). -/
theorem peekWord_eq_ofNat (s : State) (a : Word) :
    s.peekWord a = BitVec.ofNat 32 ((s.peekByte a).toNat + 2 ^ 8 * (s.peekByte (a + 1#32)).toNat +
      2 ^ 16 * (s.peekByte (a + 2#32)).toNat + 2 ^ 24 * (s.peekByte (a + 3#32)).toNat) := by
  have hnum : (s.peekWord a).toNat = (s.peekByte a).toNat + 2 ^ 8 * (s.peekByte (a + 1#32)).toNat +
      2 ^ 16 * (s.peekByte (a + 2#32)).toNat + 2 ^ 24 * (s.peekByte (a + 3#32)).toNat := by
    simp only [State.peekWord, wordOfBytes, toNat_append_add]
    omega
  rw [← hnum, BitVec.ofNat_toNat, BitVec.setWidth_eq]

/-! ### Stored bytes as numbers (`20_memory.md` R54) -/

/-- Byte k of a word as a number. -/
theorem byteOfWord_eq_ofNat (v : Word) (k : Nat) : byteOfWord v k = BitVec.ofNat 8 (v.toNat / 2 ^ (8 * k)) := by
  rw [byteOfWord, BitVec.extractLsb', Nat.shiftRight_eq_div_pow]

/-- A word's low byte as a number. -/
theorem byteOfWord_zero_eq_ofNat (v : Word) : byteOfWord v 0 = BitVec.ofNat 8 v.toNat := by
  rw [byteOfWord_eq_ofNat, Nat.mul_zero, Nat.pow_zero, Nat.div_one]

/-- The two bytes of a word's low half-word are the word's bytes 0 and 1. -/
theorem extract_lowHalf (v : Word) {k : Nat} (hk : k < 2) : (lowHalf v).extractLsb' (8 * k) 8 = byteOfWord v k := by
  rw [lowHalf, ← BitVec.setWidth_eq_extractLsb' (by decide), BitVec.extractLsb'_setWidth_of_le (by omega), byteOfWord]

/-! ### Instructions whose meaning is one access -/

/-- An instruction that does no more than load from populated bytes completes, with the frame of one register write. -/
theorem completes_of_load {i : Instr} {s : State} {ra : RegNum} {a : Word} {n : Nat} {v : Word}
    (hx : exec i s = s.load ra a n v) (hp : Populated s a n) : ∃ t, exec i s = .next t ∧ WritesReg s t ra v :=
  completes_of_setReg (hx.trans (load_next s ra a n v ((populated_iff s a n).mp hp)))

/-- An instruction that does no more than put bytes into populated memory completes, with the frame of that store. -/
theorem completes_of_store {i : Instr} {s t : State} {a : Word} {n : Nat} {bs : List Byte}
    (hx : exec i s = s.access a n (.next t)) (hp : Populated s a n) (hstored : StoresBytes s t a bs) :
    ∃ t, exec i s = .next t ∧ StoresBytes s t a bs :=
  ⟨t, hx.trans (access_of_populated s a n _ hp), hstored⟩

/-- Storing a word's low byte stores its byte 0 (`44_load_store.md` R176). -/
theorem storesBytes_lowByte (s : State) (a v : Word) : StoresBytes s (s.pokeByte a (lowByte v)) a [byteOfWord v 0] :=
  storesBytes_pokeByte s a (lowByte v)

/-- Storing a word's low half-word stores its bytes 0 and 1 (`44_load_store.md` R177). -/
theorem storesBytes_lowHalf (s : State) (a v : Word) :
    StoresBytes s (s.pokeHalf a (lowHalf v)) a [byteOfWord v 0, byteOfWord v 1] := by
  rw [← extract_lowHalf v (k := 0) (by decide), ← extract_lowHalf v (k := 1) (by decide)]
  exact storesBytes_pokeHalf s a (lowHalf v)

/-! ### The statements -/

/-- Settles O26: the offset is added as a signed number and the sum wraps. -/
theorem effectiveAddressIsBasePlusSignedOffset : Obligations.EffectiveAddressIsBasePlusSignedOffset := by
  intro s rb i
  rw [effAddr_eq_add_ofInt, toNat_add_ofInt]

/-- Settles O27: five rows of the loads' form, each one load from the effective address; the widened value is the number
the loaded bytes make. -/
theorem loadsFromPopulatedMemory : Obligations.LoadsFromPopulatedMemory := by
  refine ⟨?lbu, ?lb, ?lhu, ?lh, ?lw, fun s ra rb i a ha => ?exec⟩
  case lbu => exact formMem_of_row (op := 0x20#6) (fun _ _ _ => rfl) (by decide) rfl
  case lb => exact formMem_of_row (op := 0x21#6) (fun _ _ _ => rfl) (by decide) rfl
  case lhu => exact formMem_of_row (op := 0x22#6) (fun _ _ _ => rfl) (by decide) rfl
  case lh => exact formMem_of_row (op := 0x23#6) (fun _ _ _ => rfl) (by decide) rfl
  case lw => exact formMem_of_row (op := 0x24#6) (fun _ _ _ => rfl) (by decide) rfl
  case exec =>
    rw [← effAddr_eq_add_ofInt] at ha
    subst ha
    rw [← zextByte_eq_ofNat, ← sextByte_eq_ofInt, ← zextHalf_peekHalf, ← sextHalf_peekHalf, ← peekWord_eq_ofNat]
    exact ⟨fun h => ⟨completes_of_load rfl h, completes_of_load rfl h⟩,
      fun h => ⟨completes_of_load rfl h, completes_of_load rfl h⟩, fun h => completes_of_load rfl h⟩

/-- Settles O28: three rows of the stores' form, each one store at the effective address of the register's low bytes. -/
theorem storesToPopulatedMemory : Obligations.StoresToPopulatedMemory := by
  refine ⟨?sb, ?sh, ?sw, fun s ra rb i a v ha hv => ?exec⟩
  case sb => exact formMem_of_row (op := 0x25#6) (fun _ _ _ => rfl) (by decide) rfl
  case sh => exact formMem_of_row (op := 0x26#6) (fun _ _ _ => rfl) (by decide) rfl
  case sw => exact formMem_of_row (op := 0x27#6) (fun _ _ _ => rfl) (by decide) rfl
  case exec =>
    have h1 : BitVec.ofNat 8 (v.toNat / 2 ^ 8) = byteOfWord v 1 := (byteOfWord_eq_ofNat v 1).symm
    have h2 : BitVec.ofNat 8 (v.toNat / 2 ^ 16) = byteOfWord v 2 := (byteOfWord_eq_ofNat v 2).symm
    have h3 : BitVec.ofNat 8 (v.toNat / 2 ^ 24) = byteOfWord v 3 := (byteOfWord_eq_ofNat v 3).symm
    rw [← byteOfWord_zero_eq_ofNat, h1, h2, h3]
    subst ha hv
    exact ⟨fun h => completes_of_store rfl h (storesBytes_lowByte s _ _),
      fun h => completes_of_store rfl h (storesBytes_lowHalf s _ _),
      fun h => completes_of_store rfl h (storesBytes_pokeWord s _ _)⟩

end Sys2Proof.Machine
end

section
/-! Proofs of the statements about the port instructions (`45_port_io.md`): each meaning is one shared port operation, whose
frame `Sys2Proof/Laws/Frames.lean` gives, with the number the spec writes for the part of the word that is moved. -/

namespace Sys2Proof.Machine

/-! ### A row of a port instruction in its form (`30_encoding.md` R83, `47_assembler_and_conventions.md` R246) -/

/-- A word of format 1R+P decodes by its used fields alone, whatever its bits 15 to 0 hold. -/
theorem decodeWord_word1RP {i : Instr} {op : BitVec 6} {ra : RegNum} {p : PortNum} (unused : Half)
    (he : encode i = pack1RP op ra p) (hu : usedBits i = 0xFFFF0000#32) :
    decodeWord (word2R op.toNat ra p unused) = i := by
  rw [decodeWord_eq_iff, hu, ← pack1RP_fields rfl, he]
  simp

/-- A row packed in format 1R+P, with bits 15 to 0 unused and an entry `RA,P` in the assembler's table, has the form of
a port instruction. -/
theorem formPort_of_row {op : BitVec 6} {name : String} {mk : RegNum → PortNum → Instr}
    (he : ∀ ra p, encode (mk ra p) = pack1RP op ra p) (hu : ∀ ra p, usedBits (mk ra p) = 0xFFFF0000#32)
    (hpseudo : name.toList ∉ ["LA".toList, "CALL".toList, "RET".toList])
    (hf : asmTable.lookup name.toList = some (.port mk)) : FormPort op.toNat name mk := by
  intro ra p
  refine ⟨fun unused => ?decodes, ?encodes, ?assembles⟩
  case decodes => exact decodeWord_word1RP unused (he ra p) (hu ra p)
  case encodes => rw [he, pack1RP_eq_word2R]
  case assembles => exact assembles_of_build (.port mk) hpseudo hf fun _ _ => rfl

/-! ### The part of a word that a narrow access moves, as a number -/

/-- INPBU's and OUTPB's widened byte (`45_port_io.md` R194, R199). -/
theorem zextByte_lowByte (v : Word) : zextByte (lowByte v) = BitVec.ofNat 32 (v.toNat % 2 ^ 8) := by
  rw [zextByte_eq_ofNat, lowByte, toNat_field, pow_zero, Nat.div_one]

/-- INPHU's and OUTPH's widened half-word (`45_port_io.md` R196, R200). -/
theorem zextHalf_lowHalf (v : Word) : zextHalf (lowHalf v) = BitVec.ofNat 32 (v.toNat % 2 ^ 16) := by
  rw [lowHalf, zextHalf_extract, pow_zero, Nat.div_one]

/-- The low bits of a word, read as a signed number. -/
theorem toInt_extract_low (v : Word) (n : Nat) : (v.extractLsb' 0 n).toInt = Int.bmod v.toNat (2 ^ n) := by
  rw [BitVec.toInt_extractLsb', Nat.shiftRight_zero]

/-- INPB's widened byte (`45_port_io.md` R195). -/
theorem sextByte_lowByte (v : Word) : sextByte (lowByte v) = BitVec.ofInt 32 (Int.bmod v.toNat (2 ^ 8)) := by
  rw [sextByte_eq_ofInt, lowByte, toInt_extract_low]

/-- INPH's widened half-word (`45_port_io.md` R197). -/
theorem sextHalf_lowHalf (v : Word) : sextHalf (lowHalf v) = BitVec.ofInt 32 (Int.bmod v.toNat (2 ^ 16)) := by
  rw [sextHalf, BitVec.signExtend, lowHalf, toInt_extract_low]

/-! ### Instructions whose meaning is one port access -/

/-- An instruction that does no more than write `f` of a port's answer to RA completes when the environment answers, with
the frame of that read and `f`'s value as the spec writes it (`45_port_io.md` R190, R193). -/
theorem completes_of_input {i : Instr} {s : State} {ra : RegNum} {p : PortNum} {f g : Word → Word}
    (hx : exec i s = s.input ra p f) (hfg : ∀ v, f v = g v) (hw : WillAnswer s) :
    ∃ t v, exec i s = .next t ∧ ReadsPort s t p v ra (g v) := by
  obtain ⟨t, v, hnext, hreads⟩ := input_readsPort s ra p f hw
  exact ⟨t, v, hx.trans hnext, hfg v ▸ hreads⟩

/-- Every port input is one read of its port, into RA (`45_port_io.md` R193). -/
theorem exec_eq_input {i : Instr} {ra : RegNum} {p : PortNum}
    (hi : i ∈ [Instr.inpbu ra p, .inpb ra p, .inphu ra p, .inph ra p, .inp ra p]) (s : State) :
    ∃ f, exec i s = s.input ra p f := by
  simp only [List.mem_cons, List.not_mem_nil, or_false] at hi
  rcases hi with rfl | rfl | rfl | rfl | rfl <;> exact ⟨_, rfl⟩

/-- An instruction that does no more than deliver a value to a port completes, with the frame of that delivery
(`45_port_io.md` R191). -/
theorem completes_of_portWrite {i : Instr} {s : State} {p : PortNum} {v : Word}
    (hx : exec i s = .next (s.portWrite p v)) : ∃ t, exec i s = .next t ∧ WritesPort s t p v :=
  ⟨s.portWrite p v, hx, portWrite_writesPort s p v⟩

/-! ### The statements -/

/-- Settles O32: five rows of the port form, each one read that completes with the environment's answer or is stuck. -/
theorem portInputs : Obligations.PortInputs := by
  refine ⟨?inpbu, ?inpb, ?inphu, ?inph, ?inp, fun s ra p => ⟨fun hw => ?answered, fun hw i hi => ?stuck⟩⟩
  case inpbu => exact formPort_of_row (op := 0x28#6) (fun _ _ => rfl) (fun _ _ => rfl) (by decide) rfl
  case inpb => exact formPort_of_row (op := 0x29#6) (fun _ _ => rfl) (fun _ _ => rfl) (by decide) rfl
  case inphu => exact formPort_of_row (op := 0x2A#6) (fun _ _ => rfl) (fun _ _ => rfl) (by decide) rfl
  case inph => exact formPort_of_row (op := 0x2B#6) (fun _ _ => rfl) (fun _ _ => rfl) (by decide) rfl
  case inp => exact formPort_of_row (op := 0x2C#6) (fun _ _ => rfl) (fun _ _ => rfl) (by decide) rfl
  case answered =>
    exact ⟨completes_of_input rfl zextByte_lowByte hw, completes_of_input rfl sextByte_lowByte hw,
      completes_of_input rfl zextHalf_lowHalf hw, completes_of_input rfl sextHalf_lowHalf hw,
      completes_of_input rfl (fun _ => rfl) hw⟩
  case stuck =>
    obtain ⟨f, hx⟩ := exec_eq_input hi s
    exact hx.trans (input_stuck s ra p f hw)

/-- Settles O33: three rows of the port form, each one delivery of the register's low bits or of the whole register. -/
theorem portOutputs : Obligations.PortOutputs := by
  refine ⟨?outpb, ?outph, ?outp, fun s ra p => ?exec⟩
  case outpb => exact formPort_of_row (op := 0x2D#6) (fun _ _ => rfl) (fun _ _ => rfl) (by decide) rfl
  case outph => exact formPort_of_row (op := 0x2E#6) (fun _ _ => rfl) (fun _ _ => rfl) (by decide) rfl
  case outp => exact formPort_of_row (op := 0x2F#6) (fun _ _ => rfl) (fun _ _ => rfl) (by decide) rfl
  case exec =>
    rw [← zextByte_lowByte, ← zextHalf_lowHalf]
    exact ⟨completes_of_portWrite rfl, completes_of_portWrite rfl, completes_of_portWrite rfl⟩

end Sys2Proof.Machine
end

section
/-! Proofs of the statements about the jumps, the branches, NOP and the interrupt lock (`46_branch.md`): each meaning is one
change of the program counter, whose frame `Sys2Proof/Laws/Frames.lean` gives; what no instruction does to the interrupt
state is read off `Effect`. -/

namespace Sys2Proof.Machine

/-! ### A row of a jump or branch in its form (`30_encoding.md` R83, `47_assembler_and_conventions.md` R246) -/

/-- A word of format 2R decodes by its used fields alone: format 1R+P packs the same bits. -/
theorem decodeWord_word2R {i : Instr} {op : BitVec 6} {ra rb : RegNum} (unused : Half)
    (he : encode i = pack2R op ra rb) (hu : usedBits i = 0xFFFF0000#32) :
    decodeWord (word2R op.toNat ra rb unused) = i := decodeWord_word1RP unused he hu

/-- A word of format 1R+I is the packing of its fields. -/
theorem decodeWord_word1RI {i : Instr} {op : BitVec 6} {ra : RegNum} {ic : BitVec 21}
    (he : encode i = pack1RI op ra ic) : decodeWord (word1RI op.toNat ra ic) = i := by
  rw [← pack1RI_eq_word1RI, ← he, decodeWord_encode]

/-- A JR word decodes by its field R_B alone, whatever its bits 25 to 21 and 15 to 0 hold (decisions D1, D7). -/
theorem decodeWord_jr (x rb : RegNum) (unused : Half) : decodeWord (word2R 0x30 x rb unused) = .jr rb := by
  have hop : fieldOp (word2R 0x30 x rb unused) = 0x30#6 := fieldOp_word2R 0x30#6 x rb unused
  rw [decodeWord_eq_iff]
  change _ &&& 0xFC1F0000#32 = pack1R 0x30#6 rb
  rw [← pack1R_fields hop, fieldJR_eq, fieldRB_word2R]

/-- A NOP word decodes by its opcode alone (decision D9). -/
theorem decodeWord_nop (unused : BitVec 26) : decodeWord (wordIA 0x37 unused) = .nop := by
  have hop : fieldOp (wordIA 0x37 unused) = 0x37#6 := fieldOp_wordIA 0x37#6 unused
  rw [decodeWord_eq_iff]
  exact (packIA_zero hop).symm

/-- A row packed in format 2R, with bits 15 to 0 unused and an entry `RA,RB` in the assembler's table, has that form. -/
theorem form2R_of_row {op : BitVec 6} {name : String} {mk : RegNum → RegNum → Instr}
    (he : ∀ ra rb, encode (mk ra rb) = pack2R op ra rb) (hu : ∀ ra rb, usedBits (mk ra rb) = 0xFFFF0000#32)
    (hpseudo : name.toList ∉ ["LA".toList, "CALL".toList, "RET".toList])
    (hf : asmTable.lookup name.toList = some (.r2 mk)) : Form2R op.toNat name mk := by
  intro ra rb
  refine ⟨fun unused => ?decodes, ?encodes, ?assembles⟩
  case decodes => exact decodeWord_word2R unused (he ra rb) (hu ra rb)
  case encodes => rw [he, pack2R_eq_word2R]
  case assembles => exact assembles_of_build (.r2 mk) hpseudo hf fun _ _ => rfl

/-- A row packed in format 1R+I has that form. -/
theorem form1RI_of_row {op : BitVec 6} {mk : RegNum → BitVec 21 → Instr}
    (he : ∀ ra ic, encode (mk ra ic) = pack1RI op ra ic) : Form1RI op.toNat mk :=
  fun ra ic => ⟨decodeWord_word1RI (he ra ic), (he ra ic).trans (pack1RI_eq_word1RI op ra ic)⟩

/-- A row packed in format IA has that form. -/
theorem formIA_of_row {op : BitVec 6} {mk : BitVec 26 → Instr} (he : ∀ ia, encode (mk ia) = packIA op ia) :
    FormIA op.toNat mk :=
  fun ia => ⟨decodeWord_wordIA (he ia), (he ia).trans (packIA_eq_wordIA op ia)⟩

/-! ### The targets as numbers -/

/-- A field followed by two zero bits, sign-extended, is four times the field's signed value (`46_branch.md` R212, R214). -/
theorem signExtend_append_zero {n : Nat} (x : BitVec n) : (x ++ 0#2).signExtend 32 = BitVec.ofInt 32 (4 * x.toInt) := by
  rw [BitVec.signExtend, BitVec.toInt_append_zero]
  rfl

/-- The target of a relative jump: the next instruction's address plus a signed number, modulo 2^32 (decision D2). -/
theorem relPC_add_ofInt (s : State) (x : Int) : s.relPC + BitVec.ofInt 32 x = BitVec.ofInt 32 (s.pc.toNat + x) := by
  rw [relPC_eq, BitVec.ofInt_add, BitVec.ofInt_natCast, BitVec.ofNat_toNat, BitVec.setWidth_eq]

theorem relPC_add_offsetIA (s : State) (ia : BitVec 26) :
    s.relPC + offsetIA ia = BitVec.ofInt 32 (s.pc.toNat + 4 * ia.toInt) := by
  rw [offsetIA, signExtend_append_zero, relPC_add_ofInt]

theorem relPC_add_offsetIC (s : State) (ic : BitVec 21) :
    s.relPC + offsetIC ic = BitVec.ofInt 32 (s.pc.toNat + 4 * ic.toInt) := by
  rw [offsetIC, signExtend_append_zero, relPC_add_ofInt]

/-- JA's target is four times its unsigned field (`46_branch.md` R211, `90_conflicts.md` C3). -/
theorem targetIA_eq_ofNat (ia : BitVec 26) : targetIA ia = BitVec.ofNat 32 (4 * ia.toNat) := by
  rw [targetIA, ← BitVec.ofNat_toNat, toNat_append_add, Nat.mul_comm]
  rfl

/-! ### Instructions whose meaning is one change of the program counter -/

/-- An instruction that does no more than jump to `a` completes with the frame of that jump. -/
theorem completes_of_jump {i : Instr} {s : State} {a b : Word} (hx : exec i s = .next (s.jump a)) (hab : a = b) :
    ∃ t, exec i s = .next t ∧ JumpsTo s t b :=
  ⟨s.jump a, hx, hab ▸ jumpsTo_jump s a⟩

/-- A branch taken when `x` is zero completes at its target, written as the spec writes it, or at the next instruction
(`46_branch.md` R213, R214, R218). -/
theorem completes_of_branchIf_zero {i : Instr} {s : State} {x a b : Word}
    (hx : exec i s = .next (s.branchIf (x == 0#32) a)) (hab : a = b) :
    ∃ t, exec i s = .next t ∧ JumpsTo s t (if x.toNat = 0 then b else s.pc) := by
  have hjump := jumpsTo_branchIf s (x == 0#32) a
  rw [if_congr (beq_iff_toNat_eq x 0#32) hab rfl] at hjump
  exact ⟨_, hx, hjump⟩

/-- A branch taken when `x` is not zero completes likewise (`46_branch.md` R215, R216, R218). -/
theorem completes_of_branchIf_ne_zero {i : Instr} {s : State} {x a b : Word}
    (hx : exec i s = .next (s.branchIf (x != 0#32) a)) (hab : a = b) :
    ∃ t, exec i s = .next t ∧ JumpsTo s t (if x.toNat = 0 then s.pc else b) := by
  have hcond : (x != 0#32) = true ↔ ¬x.toNat = 0 := bne_iff_ne.trans (not_congr BitVec.toNat_inj.symm)
  have hjump := jumpsTo_branchIf s (x != 0#32) a
  rw [if_congr hcond hab rfl, ite_not] at hjump
  exact ⟨_, hx, hjump⟩

/-- A JR through register 29 jumps and ends the interrupt lock (`46_branch.md` R220). -/
theorem exec_jr_29 (s : State) : exec (.jr 29#5) s = .next (s.jump (s.reg 29#5)).endInterrupt := rfl

/-- A JR through any other register jumps (`46_branch.md` R210). -/
theorem exec_jr_of_ne (s : State) {rb : RegNum} (h : rb ≠ 29#5) : exec (.jr rb) s = .next (s.jump (s.reg rb)) := if_neg h

/-! ### What an instruction does to the interrupt state -/

/-- No instruction takes an interrupt from the environment's script: that is the interrupt check's part of the step. -/
theorem Effect.irqIn_eq {i : Instr} {s t : State} (h : Effect i s t) : t.irqIn = s.irqIn := by
  cases h with
  | input ra p v w u hr => rw [setReg_irqIn, portRead_irqIn hr]
  | setReg | drawReg | setSum | setQuotRem | drawQuotRem | divByZero => simp
  | output | storeByte | storeHalf | storeWord | jump | endLock | stay => rfl

/-- An instruction that is no JR with field 29 leaves the interrupt lock as it was (`46_branch.md` R220). -/
theorem Effect.inService_eq {i : Instr} {s t : State} (h : Effect i s t) (hi : i ≠ .jr 29#5) :
    t.inService = s.inService := by
  cases h with
  | endLock a hjr => exact absurd hjr hi
  | input ra p v w u hr => rw [setReg_inService, portRead_inService hr]
  | setReg | drawReg | setSum | setQuotRem | drawQuotRem | divByZero => simp
  | output | storeByte | storeHalf | storeWord | jump | stay => rfl

/-! ### The statements -/

/-- Settles O35: a jump with field 29 is followed by the end of the lock, which touches nothing else. -/
theorem jumpRegisterAndTheEndOfTheLock : Obligations.JumpRegisterAndTheEndOfTheLock := by
  refine ⟨fun rb x unused => ⟨decodeWord_jr x rb unused, ?encodes, ?assembles⟩, fun _ _ => rfl, fun s rb => ?exec⟩
  case encodes => exact pack1R_eq_word2R 0x30#6 rb
  case assembles => exact assembles_of_build (.r1 .jr) (by decide) rfl fun _ _ => rfl
  case exec =>
    obtain ⟨hpc, hreg, hmem, ⟨hpending, hlock, hirq⟩, hports, hplatform⟩ := jumpsTo_jump s (s.reg rb)
    by_cases h29 : rb = 29#5
    · subst h29
      exact ⟨_, exec_jr_29 s, hpc, rfl, hpending, hirq, hreg, hmem, hports, hplatform⟩
    · rw [if_neg h29]
      exact ⟨_, exec_jr_of_ne s h29, hpc, hlock, hpending, hirq, hreg, hmem, hports, hplatform⟩

/-- Settles O36: two rows of format IA, each one jump. -/
theorem immediateJumps : Obligations.ImmediateJumps :=
  ⟨formIA_of_row (op := 0x31#6) fun _ => rfl, formIA_of_row (op := 0x32#6) fun _ => rfl, fun s ia =>
    ⟨completes_of_jump rfl (targetIA_eq_ofNat ia), completes_of_jump rfl (relPC_add_offsetIA s ia)⟩⟩

/-- Settles O37: two rows of format 2R, each one conditional jump to a register's value. -/
theorem branchesToARegister : Obligations.BranchesToARegister := by
  refine ⟨?bz, ?bnz, fun s ra rb => ⟨?execBz, ?execBnz⟩⟩
  case bz => exact form2R_of_row (op := 0x33#6) (fun _ _ => rfl) (fun _ _ => rfl) (by decide) rfl
  case bnz => exact form2R_of_row (op := 0x35#6) (fun _ _ => rfl) (fun _ _ => rfl) (by decide) rfl
  case execBz => exact completes_of_branchIf_zero rfl rfl
  case execBnz => exact completes_of_branchIf_ne_zero rfl rfl

/-- Settles O38: two rows of format 1R+I, each one conditional jump relative to the next instruction. -/
theorem branchesToARelativeAddress : Obligations.BranchesToARelativeAddress :=
  ⟨form1RI_of_row (op := 0x34#6) fun _ _ => rfl, form1RI_of_row (op := 0x36#6) fun _ _ => rfl, fun s _ ic =>
    ⟨completes_of_branchIf_zero rfl (relPC_add_offsetIC s ic),
      completes_of_branchIf_ne_zero rfl (relPC_add_offsetIC s ic)⟩⟩

/-- Settles O39: 26 unused bits, and a meaning that answers its own state. -/
theorem nopChangesNothing : Obligations.NopChangesNothing :=
  ⟨decodeWord_nop, rfl, fun s => ⟨s, rfl, rfl⟩⟩

/-- Settles O51: JR with field 29 answers a state with the lock off, any other effect keeps it. -/
theorem instructionsAndTheInterruptState : Obligations.InstructionsAndTheInterruptState := by
  intro i s t h
  have heff := exec_effect i s t h
  refine ⟨?_, heff.pending_eq, heff.irqIn_eq⟩
  split_ifs with hi
  · subst hi
    rw [exec_jr_29] at h
    cases h
    rfl
  · exact heff.inService_eq hi

end Sys2Proof.Machine
end

section
/-! Proofs of the statements about the assembler and the calling convention (`47_assembler_and_conventions.md`): what a
named instruction expands to, where a label's field makes a jump go, how data bytes become lines of the output, and what
the expansions of LA and CALL, a push and a pop do when they run. -/

namespace Sys2Proof.Machine

/-! ### Expansion, instruction by instruction (R246, R250 to R252) -/

/-- A value reached through a map was mapped. -/
theorem exceptMap_eq_ok {ε α β : Type} {f : α → β} {x : Except ε α} {b : β} (h : x.map f = .ok b) :
    ∃ a, x = .ok a ∧ b = f a := by
  cases x with
  | error e => cases h
  | ok a => cases h; exact ⟨a, rfl, rfl⟩

/-- A value reached through a bind was reached at both steps. -/
theorem exceptBind_eq_ok {ε α β : Type} {f : α → Except ε β} {x : Except ε α} {b : β} (h : x.bind f = .ok b) :
    ∃ a, x = .ok a ∧ f a = .ok b := by
  cases x with
  | error e => cases h
  | ok a => exact ⟨a, rfl, h⟩

theorem labelAddr_of_lookup {env : LabelEnv} {l : Label} {t : Nat} (h : env.lookup l = some t) :
    labelAddr env l = .ok t := by
  rw [labelAddr, h]

section
variable {env : LabelEnv} {a t : Nat} {l : Label}

/-- JA's form builds on the quarter of the label's address (R248). -/
theorem build_absLabel {mk : BitVec 26 → Instr} {field : BitVec 26} (hl : env.lookup l = some t)
    (hfield : absField t = .ok field) : (AsmForm.absLabel mk).build env a [.label l] = .ok (mk field) := by
  rw [AsmForm.build, labelAddr_of_lookup hl]
  exact congrArg (Except.map mk) hfield

/-- J's form builds on the relative field of the label (R248). -/
theorem build_relLabel {mk : BitVec 26 → Instr} {field : BitVec 26} (hl : env.lookup l = some t)
    (hfield : relField 26 a t = .ok field) : (AsmForm.relLabel mk).build env a [.label l] = .ok (mk field) := by
  rw [AsmForm.build, labelAddr_of_lookup hl]
  exact congrArg (Except.map mk) hfield

/-- The form of BZI and BNZI builds on the relative field of the label (R248). -/
theorem build_branchLabel {mk : RegNum → BitVec 21 → Instr} {ra : RegNum} {field : BitVec 21}
    (hl : env.lookup l = some t) (hfield : relField 21 a t = .ok field) :
    (AsmForm.branchLabel mk).build env a [.reg ra, .label l] = .ok (mk ra field) := by
  rw [AsmForm.build, labelAddr_of_lookup hl]
  exact congrArg (Except.map (mk ra)) hfield

end

/-- A mnemonic of the table, no pseudo-instruction, expands to the one instruction its form builds at this address and
with these labels (R246). -/
theorem expand_of_build {env : LabelEnv} {a : Nat} {name : List Char} {ops : List Operand} {f : AsmForm} {i : Instr}
    (hpseudo : name ∉ ["LA".toList, "CALL".toList, "RET".toList]) (hf : asmTable.lookup name = some f)
    (hb : f.build env a ops = .ok i) : expand env a name ops = .ok [i] := by
  simp only [List.mem_cons, List.not_mem_nil, or_false, not_or] at hpseudo
  obtain ⟨hla, hcall, hret⟩ := hpseudo
  unfold expand
  rw [if_neg hla, if_neg hcall, if_neg hret, hf]
  exact congrArg (Except.map fun i => [i]) hb

theorem expand_la {env : LabelEnv} {a : Nat} {r : RegNum} {l : Label} {t : Nat} (h : env.lookup l = some t) :
    expand env a "LA".toList [.reg r, .label l] = .ok (expandLA r (BitVec.ofNat 32 t)) := by
  rw [expand, if_pos rfl, labelAddr_of_lookup h]
  rfl

/-- CALL's field is that of its J, 24 bytes after the CALL's own address (R251, decision D31). -/
theorem expand_call {env : LabelEnv} {a : Nat} {l : Label} {t : Nat} {field : BitVec 26} (h : env.lookup l = some t)
    (hfield : relField 26 (a + 24) t = .ok field) :
    expand env a "CALL".toList [.label l] = .ok (expandCALL field) := by
  rw [expand, if_neg (by decide), if_pos rfl, labelAddr_of_lookup h]
  exact congrArg (Except.map expandCALL) hfield

/-- What an expansion can be: one of the three pseudo-instructions', or the one instruction that a row of the table
builds. -/
theorem expand_cases {env : LabelEnv} {a : Nat} {name : List Char} {ops : List Operand} {is : List Instr}
    (h : expand env a name ops = .ok is) :
    (∃ r t, is = expandLA r t) ∨ (∃ ia, is = expandCALL ia) ∨ is = expandRET ∨
      ∃ f i, (name, f) ∈ asmTable ∧ f.build env a ops = .ok i ∧ is = [i] := by
  unfold expand at h
  split_ifs at h with hla hcall hret
  · split at h
    · obtain ⟨t, -, his⟩ := exceptMap_eq_ok h
      exact .inl ⟨_, _, his⟩
    · cases h
  · split at h
    · obtain ⟨t, -, ht⟩ := exceptBind_eq_ok h
      obtain ⟨ia, -, his⟩ := exceptMap_eq_ok ht
      exact .inr (.inl ⟨ia, his⟩)
    · cases h
  · split at h
    · cases h
      exact .inr (.inr (.inl rfl))
    · cases h
  · split at h
    · rename_i f hf
      obtain ⟨i, hi, his⟩ := exceptMap_eq_ok h
      obtain ⟨l₁, l₂, htable, -⟩ := List.lookup_eq_some_iff.mp hf
      exact .inr (.inr (.inr ⟨f, i, by simp [htable], hi, his⟩))
    · cases h

/-! ### What the assembler emits (R258) -/

/-- Every instruction of this form is one that the assembler may emit. -/
def AsmForm.Emits : AsmForm → Prop
  | .r3 mk => ∀ ra rb rc, assemblerEmits (mk ra rb rc) = true
  | .r2i mk => ∀ ra rb i, assemblerEmits (mk ra rb i) = true
  | .mem mk => ∀ ra rb i, assemblerEmits (mk ra rb i) = true
  | .port mk => ∀ ra p, assemblerEmits (mk ra p) = true
  | .r1 mk => ∀ r, assemblerEmits (mk r) = true
  | .r2 mk => ∀ ra rb, assemblerEmits (mk ra rb) = true
  | .absLabel mk => ∀ ia, assemblerEmits (mk ia) = true
  | .relLabel mk => ∀ ia, assemblerEmits (mk ia) = true
  | .branchLabel mk => ∀ ra ic, assemblerEmits (mk ra ic) = true

/-- No row of the table is for an invalid opcode, NOP or a duplicate opcode. -/
theorem asmTable_emits : ∀ p ∈ asmTable, p.2.Emits := by
  simp [asmTable, AsmForm.Emits, assemblerEmits]

/-- What a form builds is an instruction of the form, whatever the operands. -/
theorem AsmForm.Emits.build {f : AsmForm} (hf : f.Emits) {env : LabelEnv} {a : Nat} {ops : List Operand} {i : Instr}
    (h : f.build env a ops = .ok i) : assemblerEmits i = true := by
  unfold AsmForm.build at h
  split at h
  -- operands that are registers and ports alone, those with an immediate, those with a label, and those that do not fit
  case h_1 | h_4 | h_5 | h_6 | h_7 => cases h; exact hf ..
  case h_2 | h_3 =>
    obtain ⟨imm, -, rfl⟩ := exceptMap_eq_ok h
    exact hf ..
  case h_8 | h_9 | h_10 =>
    obtain ⟨t, -, ht⟩ := exceptBind_eq_ok h
    obtain ⟨field, -, rfl⟩ := exceptMap_eq_ok ht
    exact hf ..
  case h_11 => cases h

/-! ### Where a label's field makes a jump go (R248, decision D30) -/

/-- A field of `n + 1` bits reaches every word whose distance from the instruction after the jump lies in its range, and
four times its signed value is that distance. -/
theorem relField_of_reach {n a t : Nat} (ha : a % 4 = 0) (ht : t % 4 = 0) (hlo : -2 ^ (n + 2) ≤ (t : Int) - (a + 4))
    (hhi : (t : Int) - (a + 4) < 2 ^ (n + 2)) :
    ∃ field, relField (n + 1) a t = .ok field ∧ 4 * field.toInt = (t : Int) - (a + 4) := by
  have hpow : (2 : Int) ^ (n + 2) = 4 * 2 ^ n := by rw [pow_add, mul_comm]; rfl
  rw [hpow] at hlo hhi
  have hrange : -(2 ^ n : Int) ≤ ((t : Int) - (a + 4)) / 4 ∧ ((t : Int) - (a + 4)) / 4 < 2 ^ n := by omega
  refine ⟨_, if_pos hrange, ?_⟩
  rw [BitVec.toInt_ofInt_eq_self (Nat.succ_pos n) hrange.1 hrange.2]
  omega

/-- A signed number added to a word, modulo 2^32. -/
theorem ofInt_toNat_add (a : Word) (x : Int) : BitVec.ofInt 32 (a.toNat + x) = a + BitVec.ofInt 32 x := by
  rw [BitVec.ofInt_add, BitVec.ofInt_natCast, BitVec.ofNat_toNat, BitVec.setWidth_eq]

/-- From the address after the jump, the distance to a label leads to the label, modulo 2^32. -/
theorem ofInt_add_distance {pc : Word} {b t : Nat} (hpc : pc = BitVec.ofNat 32 b) :
    BitVec.ofInt 32 (pc.toNat + ((t : Int) - b)) = BitVec.ofNat 32 t := by
  rw [ofInt_toNat_add, hpc, ← BitVec.ofInt_natCast, ← BitVec.ofInt_add, add_sub_cancel, BitVec.ofInt_natCast]

/-- Four times the relative field, from the address after the jump, leads to the label. -/
theorem relField_reaches {pc : Word} {n a t : Nat} (hpc : pc = BitVec.ofNat 32 (a + 4)) (ha : a % 4 = 0)
    (ht : t % 4 = 0) (hlo : -2 ^ (n + 2) ≤ (t : Int) - (a + 4)) (hhi : (t : Int) - (a + 4) < 2 ^ (n + 2)) :
    ∃ field, relField (n + 1) a t = .ok field ∧
      BitVec.ofInt 32 (pc.toNat + 4 * field.toInt) = BitVec.ofNat 32 t := by
  obtain ⟨field, hfield, hdist⟩ := relField_of_reach ha ht hlo hhi
  exact ⟨field, hfield, by rw [hdist, ← ofInt_add_distance hpc, Nat.cast_add, Nat.cast_ofNat]⟩

/-- The field of JA is a quarter of its label's address, and JA goes there (R248, `90_conflicts.md` C3). -/
theorem absField_reaches {t : Nat} (ht : t % 4 = 0) (hlt : t < 2 ^ 28) :
    ∃ ia, absField t = .ok ia ∧ targetIA ia = BitVec.ofNat 32 t := by
  refine ⟨_, if_pos hlt, ?_⟩
  rw [targetIA_eq_ofNat, BitVec.toNat_ofNat, Nat.mod_eq_of_lt (by omega), Nat.mul_div_cancel' (by omega)]

/-! ### What the single instructions of these sequences do -/

theorem exec_ja (s : State) (ia : BitVec 26) : exec (.ja ia) s = .next (s.jump (targetIA ia)) := rfl

theorem exec_j (s : State) (ia : BitVec 26) :
    exec (.j ia) s = .next (s.jump (BitVec.ofInt 32 (s.pc.toNat + 4 * ia.toInt))) := by
  rw [← relPC_add_offsetIA]
  rfl

/-- BZI jumps when its register is zero (`46_branch.md` R214). -/
theorem exec_bzi_of_zero {s : State} {ra : RegNum} (h : s.reg ra = 0#32) (ic : BitVec 21) :
    exec (.bzi ra ic) s = .next (s.jump (BitVec.ofInt 32 (s.pc.toNat + 4 * ic.toInt))) := by
  rw [← relPC_add_offsetIC]
  exact congrArg Host.Outcome.next (if_pos (beq_iff_eq.mpr h))

/-- BNZI jumps when its register is not zero (`46_branch.md` R216). -/
theorem exec_bnzi_of_ne_zero {s : State} {ra : RegNum} (h : s.reg ra ≠ 0#32) (ic : BitVec 21) :
    exec (.bnzi ra ic) s = .next (s.jump (BitVec.ofInt 32 (s.pc.toNat + 4 * ic.toInt))) := by
  rw [← relPC_add_offsetIC]
  exact congrArg Host.Outcome.next (if_pos (bne_iff_ne.mpr h))

theorem exec_addi (s : State) (ra rb : RegNum) (i : Half) :
    exec (.addi ra rb i) s = .next (s.setSum ra (sum33 (s.reg rb) (sextI i))) := rfl

theorem exec_subi (s : State) (ra rb : RegNum) (i : Half) :
    exec (.subi ra rb i) s = .next (s.setSum ra (diff33 (s.reg rb) (sextI i))) := rfl

@[simp] theorem sextI_4 : sextI 4#16 = 4#32 := rfl

@[simp] theorem sextI_0 : sextI 0#16 = 0#32 := rfl

/-- SLL by 8, as LA has it, completes (`42_shift.md` R150, R156). -/
theorem exec_sll_8 (s : State) (ra rb : RegNum) :
    exec (.sll ra rb 8#16) s = .next (s.setReg ra (s.reg rb <<< 8)) := rfl

theorem exec_sw_of_populated {s : State} {rb : RegNum} {a : Word} (ra : RegNum) (ha : s.reg rb = a)
    (h : Populated s a 4) : exec (.sw ra rb 0#16) s = .next (s.pokeWord a (s.reg ra)) := by
  have haddr : s.effAddr rb 0#16 = a := by rw [effAddr_zero, ha]
  subst haddr
  exact access_of_populated s _ 4 _ h

theorem exec_lw_of_populated {s : State} {rb : RegNum} {a : Word} (ra : RegNum) (ha : s.reg rb = a)
    (h : Populated s a 4) : exec (.lw ra rb 0#16) s = .next (s.setReg ra (s.peekWord a)) := by
  have haddr : s.effAddr rb 0#16 = a := by rw [effAddr_zero, ha]
  subst haddr
  exact access_of_populated s _ 4 _ h

/-! ### From data bytes to the lines of the output (R243, R244, R254) -/

theorem byteOperand_of_range {v : Int} (h : 0 ≤ v ∧ v ≤ 255) : byteOperand v = .ok (BitVec.ofInt 8 v) := if_pos h

/-- Operands from 0 to 255 become the bytes of the same values, in their order (R254). -/
theorem mapM_byteOperand {vs : List Int} (h : ∀ v ∈ vs, 0 ≤ v ∧ v ≤ 255) :
    vs.mapM byteOperand = .ok (vs.map (BitVec.ofInt 8)) := by
  induction vs with
  | nil => rfl
  | cons v vs ih =>
    obtain ⟨hv, hvs⟩ := List.forall_mem_cons.mp h
    rw [List.mapM_cons, byteOperand_of_range hv, ih hvs]
    rfl

theorem alignUp_of_aligned {a : Nat} (h : a % 4 = 0) : alignUp a = a := by
  unfold alignUp
  omega

/-- A `.byte` after `.text` with an aligned address stands at that address (R254, R256). -/
theorem place_text_byte {a : Nat} (ha : a % 4 = 0) (vs : List Int) :
    place 0 [] [] [{ labels := [], item := .text (some a) }, { labels := [], item := .byte vs }] =
      .ok ([(a, .byte vs)], []) := by
  simp [place, defineLabels, Except.bind, Except.map, alignUp_of_aligned ha]

/-- One run of bytes inside the address space overlaps nothing. -/
theorem allDisjoint_singleton {a : Nat} {bs : List Byte} (h : a + bs.length ≤ 2 ^ 32) :
    allDisjoint [(a, bs)] = true := by
  simpa [allDisjoint, disjointFrom] using h

/-- The source of R254's sentence assembles to the lines of its one run of bytes. -/
theorem assembleLines_text_byte {a : Nat} {vs : List Int} (ha : a % 4 = 0) (hend : a + vs.length ≤ 2 ^ 32)
    (hvs : ∀ v ∈ vs, 0 ≤ v ∧ v ≤ 255) :
    assembleLines [{ labels := [], item := .text (some a) }, { labels := [], item := .byte vs }] =
      .ok (imageWords [(a, vs.map (BitVec.ofInt 8))]) := by
  have hemit : emitAll [] [(a, .byte vs)] = .ok [(a, vs.map (BitVec.ofInt 8))] := by
    rw [emitAll, itemBytes, mapM_byteOperand hvs]
    rfl
  rw [assembleLines, place_text_byte ha]
  change (emitAll [] [(a, .byte vs)]).bind _ = _
  rw [hemit]
  exact if_pos (allDisjoint_singleton (by rwa [List.length_map]))

/-- Byte k of the word that four bytes make. -/
theorem byteOfWord_wordOfBytes (b : Nat → Byte) {k : Nat} (hk : k < 4) :
    byteOfWord (wordOfBytes (b 0) (b 1) (b 2) (b 3)) k = b k := by
  have h0 := (b 0).isLt
  have h1 := (b 1).isLt
  have h2 := (b 2).isLt
  have h3 := (b 3).isLt
  apply BitVec.eq_of_toNat_eq
  simp only [byteOfWord, toNat_field, wordOfBytes, toNat_append_add]
  interval_cases k <;> omega

/-- The line that holds an address below the image's end has the image's byte there (R244, R52). -/
theorem byteOfWord_imageWords {chunks : List (Nat × List Byte)} {j : Nat} (hj : j < imageEnd chunks) :
    ∃ w, (imageWords chunks)[j / 4]? = some w ∧ byteOfWord w (j % 4) = imageByte chunks j := by
  have hline : j / 4 < (imageEnd chunks + 3) / 4 := by omega
  refine ⟨_, by rw [imageWords, List.getElem?_map, List.getElem?_range hline]; rfl, ?_⟩
  have hbyte := byteOfWord_wordOfBytes (fun k => imageByte chunks (4 * (j / 4) + k)) (Nat.mod_lt j (by decide))
  rwa [Nat.div_add_mod] at hbyte

/-- Byte k of a run of bytes is the image's byte k addresses on. -/
theorem imageByte_cons_add {a k : Nat} {bs : List Byte} (rest : List (Nat × List Byte)) (hk : k < bs.length) :
    imageByte ((a, bs) :: rest) (a + k) = bs[k] := by
  rw [imageByte, if_pos (by omega), Nat.add_sub_cancel_left, List.getElem?_eq_getElem hk, Option.getD_some]

/-- The byte of a value from 0 to 255 is the value. -/
theorem toNat_ofInt_of_byte {v : Int} (h : 0 ≤ v ∧ v ≤ 255) : ((BitVec.ofInt 8 v).toNat : Int) = v := by
  rw [BitVec.toNat_ofInt]
  omega

/-! ### Running a list of instructions -/

theorem execList_cons {i : Instr} {is : List Instr} {s t : State} (h : exec i s.advance = .next t) :
    execList (i :: is) s = execList is t := by
  rw [execList, h]

/-- Instructions run after others run from the state that those leave. -/
theorem execList_append {is js : List Instr} {s t : State} (h : execList is s = .next t) :
    execList (is ++ js) s = execList js t := by
  induction is generalizing s with
  | nil => cases h; rfl
  | cons i is ih =>
    rw [execList] at h
    cases hi : exec i s.advance with
    | next u =>
      rw [hi] at h
      rw [List.cons_append, execList_cons hi]
      exact ih h
    | fault f => rw [hi] at h; cases h
    | refused r => rw [hi] at h; cases h

/-! ### Registers and memory after the steps of a sequence -/

theorem reg_advance (s : State) (q : RegNum) : s.advance.reg q = if q = 31#5 then s.pc + 4#32 else s.reg q :=
  reg_jump s (s.pc + 4#32) q

theorem reg_advance_of_ne (s : State) {q : RegNum} (h : q ≠ 31#5) : s.advance.reg q = s.reg q := by
  rw [reg_advance, if_neg h]

theorem reg_setSum (s : State) (ra : RegNum) (x : BitVec 33) {q : RegNum} (h : q ≠ 30#5) :
    (s.setSum ra x).reg q = if q = ra ∧ ra ≠ 0#5 then low32 x else s.reg q := by
  rw [State.setSum, reg_setCarry, if_neg h, reg_setReg]

theorem setSum_pc (s : State) {ra : RegNum} (x : BitVec 33) (h : ra ≠ 31#5) : (s.setSum ra x).pc = s.pc :=
  setReg_pc s ra (low32 x) h

@[simp] theorem peekByte_advance (s : State) (a : Word) : s.advance.peekByte a = s.peekByte a := rfl
@[simp] theorem peekByte_jump (s : State) (t a : Word) : (s.jump t).peekByte a = s.peekByte a := rfl
@[simp] theorem peekByte_setSum (s : State) (ra : RegNum) (x : BitVec 33) (a : Word) :
    (s.setSum ra x).peekByte a = s.peekByte a := congrArg (Memory.read · a.toNat) (setSum_mem s ra x)
@[simp] theorem peekByte_setReg (s : State) (ra : RegNum) (v a : Word) :
    (s.setReg ra v).peekByte a = s.peekByte a := congrArg (Memory.read · a.toNat) (setReg_mem s ra v)
@[simp] theorem peekWord_advance (s : State) (a : Word) : s.advance.peekWord a = s.peekWord a := rfl
@[simp] theorem peekWord_jump (s : State) (t a : Word) : (s.jump t).peekWord a = s.peekWord a := rfl
@[simp] theorem peekWord_setSum (s : State) (ra : RegNum) (x : BitVec 33) (a : Word) :
    (s.setSum ra x).peekWord a = s.peekWord a := peekWord_congr s _ a (setSum_mem s ra x)
@[simp] theorem peekWord_setReg (s : State) (ra : RegNum) (v a : Word) :
    (s.setReg ra v).peekWord a = s.peekWord a := peekWord_congr s _ a (setReg_mem s ra v)

/-- A store leaves a byte outside its four as it was (`20_memory.md` R54). -/
theorem peekByte_pokeWord_of_ne (s : State) {a b : Word} (v : Word) (h : ∀ k < 4, b ≠ a + BitVec.ofNat 32 k) :
    (s.pokeWord a v).peekByte b = s.peekByte b := by
  obtain ⟨-, hframe, -⟩ := storesBytes_pokeWord s a v
  exact hframe b h

/-- A word below a word, at any alignment and round the top of memory too, is stored without touching it. -/
theorem peekWord_pokeWord_below (s : State) (a v : Word) :
    (s.pokeWord (a - 4#32) v).peekWord a = s.peekWord a := by
  have hframe (j : Nat) (hj : j < 4) : (s.pokeWord (a - 4#32) v).peekByte (a + BitVec.ofNat 32 j) =
      s.peekByte (a + BitVec.ofNat 32 j) := peekByte_pokeWord_of_ne s v fun k hk => by bv_omega
  have h0 := hframe 0 (by decide)
  rw [BitVec.add_zero] at h0
  rw [State.peekWord, h0, hframe 1 (by decide), hframe 2 (by decide), hframe 3 (by decide), State.peekWord]

/-! ### LA (R250) -/

/-- A byte of an address, as ADDI's sign-extended immediate, is the byte: the immediate is not negative. -/
theorem sextI_zextHalfByte (t : Word) (k : Nat) : sextI (expandLA.zextHalfByte t k) = zextByte (byteOfWord t k) := by
  have hbyte := (byteOfWord t k).isLt
  have hmsb : (expandLA.zextHalfByte t k).msb = false := by
    rw [BitVec.msb_eq_false_iff_two_mul_lt, expandLA.zextHalfByte, BitVec.toNat_setWidth]
    omega
  rw [sextI, BitVec.signExtend_eq_setWidth_of_msb_false hmsb, zextByte]
  apply BitVec.eq_of_toNat_eq
  simp only [expandLA.zextHalfByte, BitVec.toNat_setWidth]
  omega

/-- The address's high bytes, moved up by one byte with the next byte added, are its high bytes down to that one. -/
theorem shiftLeft_add_byteOfWord (a : Word) (k : Nat) :
    (a >>> (8 * (k + 1))) <<< 8 + zextByte (byteOfWord a k) = a >>> (8 * k) := by
  apply BitVec.eq_of_toNat_eq
  have hdiv : a.toNat / 2 ^ (8 * (k + 1)) = a.toNat / 2 ^ (8 * k) / 256 := by
    rw [Nat.div_div_eq_div_mul, Nat.mul_succ, pow_add]
    rfl
  have hlt : a.toNat / 2 ^ (8 * k) < 2 ^ 32 := lt_of_le_of_lt (Nat.div_le_self ..) a.isLt
  rw [zextByte_byteOfWord]
  simp only [BitVec.toNat_add, BitVec.toNat_shiftLeft, BitVec.toNat_ushiftRight, BitVec.toNat_ofNat,
    Nat.shiftRight_eq_div_pow, Nat.shiftLeft_eq, hdiv]
  omega

/-- Adding a byte to a word whose low byte is zero carries nothing out. -/
theorem bit32_sum33_byte {x : Word} (b : Byte) (h : x.toNat % 256 = 0) : bit32 (sum33 x (zextByte b)) = false := by
  have hb := b.isLt
  have hx := x.isLt
  rw [sum33_bit32, zextByte, BitVec.toNat_setWidth, decide_eq_false_iff_not]
  omega

/-- The state after LA's SLL: the register moved up by one byte. -/
def State.shiftedUp (s : State) (r : RegNum) : State := s.advance.setReg r (s.reg r <<< 8)

/-- After the SLL the register's low byte is zero, register 0's too. -/
theorem reg_shiftedUp_mod (s : State) (r : RegNum) : ((s.shiftedUp r).reg r).toNat % 256 = 0 := by
  rw [State.shiftedUp, reg_setReg]
  split_ifs with h
  · rw [BitVec.toNat_shiftLeft, Nat.shiftLeft_eq]
    omega
  · obtain rfl : r = 0#5 := by by_contra h0; exact h ⟨rfl, h0⟩
    rfl

/-- `t` is `s` with the part `v` of an address in register `r` and the program counter `k` further; nothing else has
changed but Carry, which is 0. -/
def HoldsPart (s t : State) (r : RegNum) (v k : Word) : Prop :=
  (r ≠ 0#5 → t.reg r = v) ∧ t.carry = false ∧ t.status.extractLsb' 1 31 = s.status.extractLsb' 1 31 ∧
    t.pc = s.pc + k ∧ (∀ q, q ≠ r → q ≠ 30#5 → q ≠ 31#5 → t.reg q = s.reg q) ∧ SameElse s t

/-- The advance changes a register alone, the program counter. -/
theorem sameElse_advance (s : State) : SameElse s s.advance := sameElse_of_eq rfl rfl rfl rfl rfl rfl rfl

theorem SameElse.trans {s t u : State} (hst : SameElse s t) (htu : SameElse t u) : SameElse s u := by
  obtain ⟨hm, ⟨hp, hl, hi⟩, hports, hf⟩ := hst
  obtain ⟨hm', ⟨hp', hl', hi'⟩, hports', hf'⟩ := htu
  exact ⟨fun a => (hm' a).trans (hm a), ⟨hp'.trans hp, hl'.trans hl, hi'.trans hi⟩, hports.trans hports',
    hf'.trans hf⟩

section
variable {s : State} {r : RegNum}

/-- LA's first instruction puts the address's byte 3 into its register. -/
theorem execList_first_byte (addr : Word) (h30 : r ≠ 30#5) (h31 : r ≠ 31#5) :
    ∃ t, execList [.addi r 0#5 (expandLA.zextHalfByte addr 3)] s = .next t ∧
      HoldsPart s t r (addr >>> (8 * 3)) 4#32 := by
  have hvalue : low32 (sum33 0#32 (zextByte (byteOfWord addr 3))) = addr >>> (8 * 3) := by
    rw [sum33_low, ← shiftLeft_add_byteOfWord addr 3, BitVec.ushiftRight_eq_zero (by decide)]
    rfl
  obtain ⟨hreg, hcarry, hstatus, hother, helse⟩ :=
    writesSum_setSum s.advance r (sum33 0#32 (zextByte (byteOfWord addr 3)))
  rw [hvalue] at hreg
  rw [bit32_sum33_byte _ rfl] at hcarry
  rw [if_neg h30] at hstatus
  refine ⟨_, ?_, fun h0 => hreg h0 h30, hcarry, hstatus, setSum_pc _ _ h31, fun q hq hq30 hq31 => ?_,
    (sameElse_advance s).trans helse⟩
  · rw [execList_cons (exec_addi ..), execList, sextI_zextHalfByte, reg_zero]
  · rw [hother q hq hq30, reg_advance_of_ne s hq31]

/-- LA's SLL and ADDI take the next byte of the address into its register. -/
theorem execList_next_byte {t : State} {addr k : Word} {n : Nat} (is : List Instr) (h30 : r ≠ 30#5) (h31 : r ≠ 31#5)
    (ht : HoldsPart s t r (addr >>> (8 * (n + 1))) k) :
    ∃ u, execList (.sll r r 8#16 :: .addi r r (expandLA.zextHalfByte addr n) :: is) t = execList is u ∧
      HoldsPart s u r (addr >>> (8 * n)) (k + 8#32) := by
  obtain ⟨hreg, -, hstatus, hpc, hother, helse⟩ := ht
  obtain ⟨mreg, mother, melse⟩ := writesReg_setReg t.advance r (t.reg r <<< 8)
  obtain ⟨ureg, ucarry, ustatus, uother, uelse⟩ := writesSum_setSum (t.shiftedUp r).advance r
    (sum33 ((t.shiftedUp r).reg r) (zextByte (byteOfWord addr n)))
  rw [bit32_sum33_byte _ (reg_shiftedUp_mod t r)] at ucarry
  rw [if_neg h30] at ustatus
  refine ⟨_, ?run, fun h0 => ?value, ucarry, ?status, ?pc, fun q hq hq30 hq31 => ?others, ?rest⟩
  case run =>
    rw [execList_cons (exec_sll_8 ..), reg_advance_of_ne t h31, execList_cons (exec_addi ..), sextI_zextHalfByte,
      reg_advance_of_ne _ h31, State.shiftedUp]
  case value =>
    rw [ureg h0 h30, sum33_low, State.shiftedUp, mreg h0, hreg h0, shiftLeft_add_byteOfWord]
  case status => rw [ustatus, advance_status, State.shiftedUp, setReg_status _ _ _ h30, advance_status, hstatus]
  case pc =>
    rw [setSum_pc _ _ h31, advance_pc, State.shiftedUp, setReg_pc _ _ _ h31, advance_pc, hpc]
    simp [BitVec.add_assoc]
  case others =>
    rw [uother q hq hq30, reg_advance_of_ne _ hq31, State.shiftedUp, mother q hq, reg_advance_of_ne _ hq31,
      hother q hq hq30 hq31]
  case rest =>
    exact (((helse.trans (sameElse_advance t)).trans melse).trans (sameElse_advance (t.shiftedUp r))).trans uelse

end

/-! ### A push and a pop (R232) -/

/-- The state after a push of register `r`: the element stored at the stack pointer, the stack pointer 4 lower. -/
def State.pushed (s : State) (r : RegNum) : State :=
  (s.advance.pokeWord (s.reg 27#5) (s.advance.reg r)).advance.setSum 27#5 (diff33 (s.reg 27#5) 4#32)

/-- The state after a pop into register `q`: the stack pointer 4 higher, the word there loaded. -/
def State.popped (s : State) (q : RegNum) : State :=
  (s.advance.setSum 27#5 (sum33 (s.reg 27#5) 4#32)).advance.setReg q (s.peekWord (s.reg 27#5 + 4#32))

theorem execList_pushSequence {s : State} (r : RegNum) (h : Populated s (s.reg 27#5) 4) :
    execList (pushSequence r) s = .next (s.pushed r) := by
  have hsp : s.advance.reg 27#5 = s.reg 27#5 := reg_advance_of_ne s (by decide)
  have hstore := exec_sw_of_populated r hsp (h.of_platform_eq (advance_platform s))
  rw [pushSequence, execList_cons hstore, execList_cons (exec_subi ..), execList, sextI_4,
    reg_advance_of_ne (q := 27#5) _ (by decide), reg_pokeWord, hsp, State.pushed]

theorem execList_popSequence {s : State} (q : RegNum) (h : Populated s (s.reg 27#5 + 4#32) 4) :
    execList (popSequence q) s = .next (s.popped q) := by
  have hsp : (s.advance.setSum 27#5 (sum33 (s.reg 27#5) 4#32)).advance.reg 27#5 = s.reg 27#5 + 4#32 := by
    simp [reg_advance, reg_setSum, sum33_low]
  have hload := exec_lw_of_populated q hsp (h.of_platform_eq (by simp))
  rw [popSequence, execList_cons (exec_addi ..), sextI_4, reg_advance_of_ne _ (by decide), execList_cons hload,
    execList, peekWord_advance, peekWord_setSum, peekWord_advance, State.popped]

section
variable (s : State) (r : RegNum)

@[simp] theorem pushed_platform : (s.pushed r).platform = s.platform := by simp [State.pushed]

theorem pushed_pc : (s.pushed r).pc = s.pc + 8#32 := by
  simp [State.pushed, setSum_pc, BitVec.add_assoc]

theorem reg_27_pushed : (s.pushed r).reg 27#5 = s.reg 27#5 - 4#32 := by
  simp [State.pushed, reg_setSum, diff33_low]

theorem reg_pushed_of_ne {x : RegNum} (h27 : x ≠ 27#5) (h30 : x ≠ 30#5) (h31 : x ≠ 31#5) :
    (s.pushed r).reg x = s.reg x := by
  simp [State.pushed, reg_setSum, reg_advance, h27, h30, h31]

/-- The pushed element is at the old stack pointer. -/
theorem peekWord_pushed : (s.pushed r).peekWord (s.reg 27#5) = s.advance.reg r := by
  simp [State.pushed, peekWord_pokeWord_same]

theorem peekByte_pushed_of_ne {b : Word} (h : ∀ k < 4, b ≠ s.reg 27#5 + BitVec.ofNat 32 k) :
    (s.pushed r).peekByte b = s.peekByte b := by
  simp [State.pushed, peekByte_pokeWord_of_ne _ _ h]

/-- The word above the pushed one is untouched. -/
theorem peekWord_pushed_above {a : Word} (h : s.reg 27#5 = a - 4#32) : (s.pushed r).peekWord a = s.peekWord a := by
  simp [State.pushed, h, peekWord_pokeWord_below]

end

section
variable (s : State) (q : RegNum)

theorem popped_pc (h : q ≠ 31#5) : (s.popped q).pc = s.pc + 8#32 := by
  simp [State.popped, setReg_pc _ _ _ h, setSum_pc, BitVec.add_assoc]

theorem reg_27_popped (h : q ≠ 27#5) : (s.popped q).reg 27#5 = s.reg 27#5 + 4#32 := by
  simp [State.popped, reg_setReg_ne _ _ _ _ h.symm, reg_advance, reg_setSum, sum33_low]

theorem reg_popped_same (h : q ≠ 0#5) : (s.popped q).reg q = s.peekWord (s.reg 27#5 + 4#32) :=
  reg_setReg_same _ _ _ h

theorem reg_popped_of_ne {x : RegNum} (hq : x ≠ q) (h27 : x ≠ 27#5) (h30 : x ≠ 30#5) (h31 : x ≠ 31#5) :
    (s.popped q).reg x = s.reg x := by
  simp [State.popped, reg_setReg_ne _ _ _ _ hq, reg_setSum, reg_advance, h27, h30, h31]

@[simp] theorem peekByte_popped (a : Word) : (s.popped q).peekByte a = s.peekByte a := by simp [State.popped]

@[simp] theorem peekWord_popped (a : Word) : (s.popped q).peekWord a = s.peekWord a := by simp [State.popped]

end

/-! ### CALL (R251, R262) -/

/-- The state after CALL's first three instructions: register 28 saved at the stack pointer and set to it, the stack
pointer 4 lower. -/
def State.frameOpened (s : State) : State :=
  ((s.advance.pokeWord (s.reg 27#5) (s.reg 28#5)).advance.setSum 28#5 (sum33 (s.reg 27#5) 0#32)).advance.setSum 27#5
    (diff33 (s.reg 27#5) 4#32)

/-- The state after CALL's first seven instructions: behind the saved register 28 register 29 pushed, the address after
the J in register 29, the program counter at the J's target. -/
def State.called (s : State) (ia : BitVec 26) : State :=
  ((s.frameOpened.pushed 29#5).advance.setSum 29#5 (sum33 (s.pc + 24#32) 4#32)).advance.jump
    (BitVec.ofInt 32 (s.pc.toNat + 28 + 4 * ia.toInt))

/-- The state after CALL's last four instructions: register 29 loaded from below the frame pointer, then register 28
popped. -/
def State.frameClosed (s : State) : State :=
  ((s.advance.setSum 27#5 (diff33 (s.reg 28#5) 4#32)).advance.setReg 29#5 (s.peekWord (s.reg 28#5 - 4#32))).popped 28#5

theorem execList_frameOpened {s : State} (h : Populated s (s.reg 27#5) 4) :
    execList [.sw 28#5 27#5 0#16, .addi 28#5 27#5 0#16, .subi 27#5 27#5 4#16] s = .next s.frameOpened := by
  have hsp : s.advance.reg 27#5 = s.reg 27#5 := reg_advance_of_ne s (by decide)
  have hstore := exec_sw_of_populated 28#5 hsp (h.of_platform_eq (advance_platform s))
  rw [execList_cons hstore, execList_cons (exec_addi ..), execList_cons (exec_subi ..), execList]
  simp [State.frameOpened, reg_advance, reg_setSum, hsp]

section
variable (s : State)

@[simp] theorem frameOpened_platform : s.frameOpened.platform = s.platform := by simp [State.frameOpened]

theorem frameOpened_pc : s.frameOpened.pc = s.pc + 12#32 := by
  simp [State.frameOpened, setSum_pc, BitVec.add_assoc]

theorem reg_27_frameOpened : s.frameOpened.reg 27#5 = s.reg 27#5 - 4#32 := by
  simp [State.frameOpened, reg_setSum, diff33_low]

theorem reg_28_frameOpened : s.frameOpened.reg 28#5 = s.reg 27#5 := by
  simp [State.frameOpened, reg_setSum, reg_advance, sum33_low]

theorem reg_frameOpened_of_ne {x : RegNum} (h27 : x ≠ 27#5) (h28 : x ≠ 28#5) (h30 : x ≠ 30#5) (h31 : x ≠ 31#5) :
    s.frameOpened.reg x = s.reg x := by
  simp [State.frameOpened, reg_setSum, reg_advance, h27, h28, h30, h31]

theorem peekWord_frameOpened : s.frameOpened.peekWord (s.reg 27#5) = s.reg 28#5 := by
  simp [State.frameOpened, peekWord_pokeWord_same]

theorem peekByte_frameOpened_of_ne {b : Word} (h : ∀ k < 4, b ≠ s.reg 27#5 + BitVec.ofNat 32 k) :
    s.frameOpened.peekByte b = s.peekByte b := by
  simp [State.frameOpened, peekByte_pokeWord_of_ne _ _ h]

end

theorem execList_called {s : State} (ia : BitVec 26) (h : Populated s (s.reg 27#5) 4)
    (hbelow : Populated s (s.reg 27#5 - 4#32) 4) :
    execList ((expandCALL ia).take 7) s = .next (s.called ia) := by
  have hsplit : (expandCALL ia).take 7 = [.sw 28#5 27#5 0#16, .addi 28#5 27#5 0#16, .subi 27#5 27#5 4#16] ++
      (pushSequence 29#5 ++ [.addi 29#5 31#5 4#16, .j ia]) := rfl
  have hpush := execList_pushSequence (s := s.frameOpened) 29#5
    (reg_27_frameOpened s ▸ hbelow.of_platform_eq (frameOpened_platform s))
  have hpc : (s.frameOpened.pushed 29#5).advance.pc = s.pc + 24#32 := by
    simp [pushed_pc, frameOpened_pc, BitVec.add_assoc]
  have hpcJ (x : BitVec 33) : ((s.frameOpened.pushed 29#5).advance.setSum 29#5 x).advance.pc = s.pc + 28#32 := by
    rw [advance_pc, setSum_pc _ _ (by decide), hpc, BitVec.add_assoc]
    rfl
  have htarget : BitVec.ofInt 32 ((s.pc + 28#32).toNat + 4 * ia.toInt) =
      BitVec.ofInt 32 (s.pc.toNat + 28 + 4 * ia.toInt) := by
    rw [ofInt_toNat_add, Int.add_assoc, ofInt_toNat_add, BitVec.ofInt_add, BitVec.add_assoc]
    rfl
  rw [hsplit, execList_append (execList_frameOpened h), execList_append hpush, execList_cons (exec_addi ..),
    execList_cons (exec_j ..), execList, sextI_4, reg_31, hpcJ, htarget, hpc, State.called]

section
variable (s : State) (ia : BitVec 26)

theorem reg_29_called : (s.called ia).reg 29#5 = s.pc + 28#32 := by
  simp [State.called, reg_jump, reg_advance, reg_setSum, sum33_low, BitVec.add_assoc, -reg_29]

theorem reg_28_called : (s.called ia).reg 28#5 = s.reg 27#5 := by
  simp [State.called, reg_jump, reg_advance, reg_setSum, reg_pushed_of_ne, reg_28_frameOpened]

theorem reg_27_called : (s.called ia).reg 27#5 = s.reg 27#5 - 8#32 := by
  simp [State.called, reg_jump, reg_advance, reg_setSum, reg_27_pushed, reg_27_frameOpened, BitVec.sub_sub]

theorem reg_called_of_ne {x : RegNum} (h27 : x ≠ 27#5) (h28 : x ≠ 28#5) (h29 : x ≠ 29#5) (h30 : x ≠ 30#5)
    (h31 : x ≠ 31#5) : (s.called ia).reg x = s.reg x := by
  simp [State.called, reg_jump, reg_advance, reg_setSum, reg_pushed_of_ne, reg_frameOpened_of_ne, h27, h28, h29,
    h30, h31]

@[simp] theorem peekWord_called (a : Word) :
    (s.called ia).peekWord a = (s.frameOpened.pushed 29#5).peekWord a := by simp [State.called]

/-- Register 28 is saved at the old stack pointer. -/
theorem peekWord_called_top : (s.called ia).peekWord (s.reg 27#5) = s.reg 28#5 := by
  rw [peekWord_called, peekWord_pushed_above _ _ (reg_27_frameOpened s), peekWord_frameOpened]

/-- Register 29 is saved below it. -/
theorem peekWord_called_below : (s.called ia).peekWord (s.reg 27#5 - 4#32) = s.reg 29#5 := by
  rw [peekWord_called, ← reg_27_frameOpened, peekWord_pushed, reg_advance_of_ne _ (by decide),
    reg_frameOpened_of_ne s (by decide) (by decide) (by decide) (by decide)]

/-- Only the frame's eight bytes are stored to. -/
theorem peekByte_called_of_ne {b : Word} (h : ∀ k < 8, b ≠ s.reg 27#5 - 4#32 + BitVec.ofNat 32 k) :
    (s.called ia).peekByte b = s.peekByte b := by
  have hbelow : ∀ k < 4, b ≠ s.frameOpened.reg 27#5 + BitVec.ofNat 32 k := fun k hk => by
    rw [reg_27_frameOpened]
    exact h k (by omega)
  have htop : ∀ k < 4, b ≠ s.reg 27#5 + BitVec.ofNat 32 k := fun k hk hb =>
    h (4 + k) (by omega) (by rw [hb, ← addr_add_add, BitVec.sub_add_cancel])
  simp [State.called, peekByte_pushed_of_ne _ _ hbelow, peekByte_frameOpened_of_ne _ htop]

end

theorem execList_frameClosed {s : State} (ia : BitVec 26) (h : Populated s (s.reg 28#5) 4)
    (hbelow : Populated s (s.reg 28#5 - 4#32) 4) :
    execList ((expandCALL ia).drop 7) s = .next s.frameClosed := by
  have hsplit : (expandCALL ia).drop 7 = .subi 27#5 28#5 4#16 :: .lw 29#5 27#5 0#16 :: popSequence 28#5 := rfl
  have hsp : (s.advance.setSum 27#5 (diff33 (s.reg 28#5) 4#32)).advance.reg 27#5 = s.reg 28#5 - 4#32 := by
    simp [reg_advance, reg_setSum, diff33_low]
  have hload := exec_lw_of_populated 29#5 hsp (hbelow.of_platform_eq (by simp))
  rw [hsplit, execList_cons (exec_subi ..), sextI_4, reg_advance_of_ne _ (by decide), execList_cons hload,
    peekWord_advance, peekWord_setSum, peekWord_advance]
  refine execList_popSequence 28#5 ?_
  rw [reg_setReg_ne _ _ _ _ (by decide), hsp, BitVec.sub_add_cancel]
  exact h.of_platform_eq (by simp)

section
variable (s : State)

theorem frameClosed_pc : s.frameClosed.pc = s.pc + 16#32 := by
  simp [State.frameClosed, popped_pc, setReg_pc, setSum_pc, BitVec.add_assoc, -setReg_29]

theorem reg_27_frameClosed : s.frameClosed.reg 27#5 = s.reg 28#5 := by
  simp [State.frameClosed, reg_27_popped, reg_setReg_ne, reg_advance, reg_setSum, diff33_low, -setReg_29]

theorem reg_28_frameClosed : s.frameClosed.reg 28#5 = s.peekWord (s.reg 28#5) := by
  simp [State.frameClosed, reg_popped_same, reg_setReg_ne, reg_advance, reg_setSum, diff33_low, -setReg_29]

theorem reg_29_frameClosed : s.frameClosed.reg 29#5 = s.peekWord (s.reg 28#5 - 4#32) := by
  rw [State.frameClosed, reg_popped_of_ne _ _ (by decide) (by decide) (by decide) (by decide),
    reg_setReg_same _ _ _ (by decide)]

theorem reg_frameClosed_of_ne {x : RegNum} (h27 : x ≠ 27#5) (h28 : x ≠ 28#5) (h29 : x ≠ 29#5) (h30 : x ≠ 30#5)
    (h31 : x ≠ 31#5) : s.frameClosed.reg x = s.reg x := by
  simp [State.frameClosed, reg_popped_of_ne, reg_setReg_ne, reg_advance, reg_setSum, h27, h28, h29, h30, h31,
    -setReg_29]

theorem peekByte_frameClosed (a : Word) : s.frameClosed.peekByte a = s.peekByte a := by
  simp [State.frameClosed, -setReg_29]

end

/-! ### The statements -/

/-- Settles O52: each field is in range, so the label's form builds the instruction, and its target is the label. -/
theorem labelOperandsReachTheirLabels : Obligations.LabelOperandsReachTheirLabels := by
  intro env a t l s ra hl ha ht hpc
  refine ⟨fun hlt => ?ja, fun hlo hhi => ?j, fun hlo hhi => ?branches⟩
  case ja =>
    obtain ⟨ia, hfield, htarget⟩ := absField_reaches ht hlt
    exact ⟨ia, expand_of_build (by decide) rfl (build_absLabel hl hfield), by rw [exec_ja, htarget]⟩
  case j =>
    obtain ⟨ia, hfield, htarget⟩ := relField_reaches (n := 25) hpc ha ht hlo hhi
    exact ⟨ia, expand_of_build (by decide) rfl (build_relLabel hl hfield), by rw [exec_j, htarget]⟩
  case branches =>
    obtain ⟨ic, hfield, htarget⟩ := relField_reaches (n := 20) hpc ha ht hlo hhi
    exact ⟨ic, expand_of_build (by decide) rfl (build_branchLabel hl hfield),
      expand_of_build (by decide) rfl (build_branchLabel hl hfield),
      fun h => by rw [exec_bzi_of_zero h, htarget], fun h => by rw [exec_bnzi_of_ne_zero h, htarget]⟩

/-- Settles O53: an expansion is a pseudo-instruction's, whose instructions are named, or a row's of the table. -/
theorem whatTheAssemblerEmits : Obligations.WhatTheAssemblerEmits := by
  intro env a name ops is h
  rcases expand_cases h with ⟨r, t, rfl⟩ | ⟨ia, rfl⟩ | rfl | ⟨f, i, hf, hi, rfl⟩
  · simp [expandLA, assemblerEmits]
  · simp [expandCALL, assemblerEmits]
  · simp [expandRET, assemblerEmits]
  · simpa using (asmTable_emits _ hf).build hi

/-- Settles O54: the run of bytes stands at the directive's address, and each line holds the four bytes of its
address. -/
theorem byteDirectivePlacesItsBytesInOrder : Obligations.ByteDirectivePlacesItsBytesInOrder := by
  refine ⟨fun a vs ha hend hvs => ⟨rfl, _, assembleLines_text_byte ha hend hvs, fun k hk => ?byte⟩, ?printed⟩
  case byte =>
    have hlen : k < (vs.map (BitVec.ofInt 8)).length := by rwa [List.length_map]
    have hlt : a + k < imageEnd [(a, vs.map (BitVec.ofInt 8))] :=
      lt_of_lt_of_le (Nat.add_lt_add_left hlen a) (Nat.le_max_left ..)
    obtain ⟨w, hw, hbyte⟩ := byteOfWord_imageWords hlt
    refine ⟨w, hw, ?_⟩
    rw [hbyte, imageByte_cons_add [] hlen, List.getElem_map, toNat_ofInt_of_byte (hvs _ (List.getElem_mem hk))]
  case printed => exact ⟨List.replicate 16 0#32 ++ [0x12345678#32], by decide, rfl, by decide⟩

/-- Settles O57: each byte of the address, from the highest, is taken into the register in turn. -/
theorem loadAddressLoadsTheAddress : Obligations.LoadAddressLoadsTheAddress := by
  intro s r addr h30 h31
  refine ⟨fun _ _ _ _ => expand_la, rfl, ?_⟩
  obtain ⟨t3, hrun3, h3⟩ := execList_first_byte (s := s) addr h30 h31
  obtain ⟨t2, hrun2, h2⟩ := execList_next_byte _ h30 h31 h3
  obtain ⟨t1, hrun1, h1⟩ := execList_next_byte _ h30 h31 h2
  obtain ⟨t0, hrun0, hreg, hcarry, hstatus, hpc, hother, helse⟩ := execList_next_byte [] h30 h31 h1
  refine ⟨t0, ?_, hreg, hcarry, hstatus, hpc, hother, helse⟩
  exact (execList_append hrun3).trans (hrun2.trans (hrun1.trans hrun0))

/-- Settles O58: the states after CALL's first seven and its last four instructions, read field by field. -/
theorem callBuildsAndRemovesItsFrame : Obligations.CallBuildsAndRemovesItsFrame := by
  intro s t ia sp hsp htop hbelow
  subst hsp
  have hcall (field : BitVec 26) := execList_called field htop hbelow
  refine ⟨rfl, fun env a n l hl ha hn hlo hhi hpc => ?label, ⟨_, hcall ia, reg_29_called s ia, reg_28_called s ia,
    reg_27_called s ia, peekWord_called_top s ia, peekWord_called_below s ia, rfl, fun b => peekByte_called_of_ne s ia,
    fun x => reg_called_of_ne s ia⟩, fun hplatform hfp hfirst hsecond => ?back⟩
  case label =>
    obtain ⟨field, hfield, hdist⟩ := relField_of_reach (n := 25) (a := a + 24) (t := n) (by omega) hn
      (by push_cast; omega) (by push_cast; omega)
    refine ⟨field, expand_call hl hfield, _, hcall field, ?_⟩
    have hreach : (28 : Int) + 4 * field.toInt = n - a := by push_cast at hdist; omega
    rw [State.called, jump_pc, Int.add_assoc, hreach, ofInt_add_distance hpc]
  case back =>
    have hclose := execList_frameClosed (s := t) ia (hfp ▸ htop.of_platform_eq hplatform)
      (hfp ▸ hbelow.of_platform_eq hplatform)
    refine ⟨_, hclose, ?_, ?_, ?_, frameClosed_pc t, peekByte_frameClosed t, fun x => reg_frameClosed_of_ne t⟩
    · rw [reg_27_frameClosed, hfp]
    · rw [reg_28_frameClosed, hfp, hfirst]
    · rw [reg_29_frameClosed, hfp, hsecond]

/-- Settles O59: the state after the push, then the state after the pop, read field by field. -/
theorem pushAndPop : Obligations.PushAndPop := by
  intro s r q sp hsp hpop
  subst hsp
  have hpush := execList_pushSequence r hpop
  refine ⟨⟨_, hpush, peekWord_pushed s r, reg_27_pushed s r, fun b => peekByte_pushed_of_ne s r,
    fun x => reg_pushed_of_ne s r⟩, fun u hu => ?_⟩
  obtain rfl : s.pushed r = u := Host.Outcome.next.inj (hpush.symm.trans hu)
  have hback : (s.pushed r).reg 27#5 + 4#32 = s.reg 27#5 := by rw [reg_27_pushed, BitVec.sub_add_cancel]
  have hpopped := execList_popSequence (s := s.pushed r) q
    (hback.symm ▸ hpop.of_platform_eq (pushed_platform s r))
  refine ⟨_, hpopped, fun h27 => ?sp, fun h0 => ?element, ?kept, popped_pc _ q, fun x hq h27 h30 h31 => ?regs⟩
  case sp => rw [reg_27_popped _ q h27, hback]
  case element => rw [reg_popped_same _ q h0, hback, peekWord_pushed]
  case kept => rw [peekWord_popped, peekWord_pushed]
  case regs => rw [reg_popped_of_ne _ q hq h27 h30 h31, reg_pushed_of_ne s r h27 h30 h31]

/-- Settles O55: closed text, assembled. -/
theorem theLabelExampleOfTheManual : Obligations.TheLabelExampleOfTheManual := by
  unfold Obligations.TheLabelExampleOfTheManual
  decide

end Sys2Proof.Machine
end

section
/-! Proofs of the statements about interrupts and stops (`60_exceptions.md`): what an interrupt check receives and
services, how long the lock lasts, and where a meaning can stop. The step's facts are those of its parts: the check
(`checkInterrupts_cases`), the fetch (`fetch_cases`) and the instruction (`exec_effect`). -/

namespace Sys2Proof.Machine

/-! ### Where a meaning stops -/

/-- The stops of a meaning, with what each of them needs. -/
inductive Stop (i : Instr) (s : State) : Fault → Prop
  | invalid (hi : i.isValid = false) : Stop i s (.illegalInstruction (encode i))
  | absent (b : Word) (hi : isLoad i = true ∨ isStore i = true) (hb : s.isPopulated b = false) :
      Stop i s (.unpopulatedAccess b)
  | divideByZero (ra rb : RegNum) (hi : i = .divi ra rb 0#16) : Stop i s .divideByZero
  | stuck (ra : RegNum) (p : PortNum) (hi : i ∈ [Instr.inpbu ra p, .inpb ra p, .inphu ra p, .inph ra p, .inp ra p])
      (hw : ¬WillAnswer s) : Stop i s (.portReadNeverCompletes p)

/-- A meaning's answer: a next state, or one of its stops. -/
inductive Answers (i : Instr) (s : State) : Result → Prop
  | next (t : State) : Answers i s (.next t)
  | stop (f : Fault) (h : Stop i s f) : Answers i s (.fault f)

theorem Answers.ne_refused {i : Instr} {s : State} {x : Result} (h : Answers i s x) (r : Refusal) : x ≠ .refused r := by
  cases h <;> exact nofun

theorem Answers.stop_of_fault {i : Instr} {s : State} {f : Fault} (h : Answers i s (.fault f)) : Stop i s f := by
  cases h
  assumption

/-- The first absent byte of an access is absent. -/
theorem isPopulated_of_firstAbsent {s : State} {a b : Word} {n : Nat} (h : s.firstAbsent a n = some b) :
    s.isPopulated b = false := by
  induction n generalizing a with
  | zero => cases h
  | succ n ih =>
    rw [State.firstAbsent] at h
    split_ifs at h with ha
    · exact ih h
    · cases h
      exact Bool.eq_false_of_not_eq_true ha

/-- A load or store does its access, or stops at a byte that is not populated (`20_memory.md` R59). -/
theorem answers_access {i : Instr} {s : State} (hi : isLoad i = true ∨ isStore i = true) (a : Word) (n : Nat)
    (t : State) : Answers i s (s.access a n (.next t)) := by
  cases h : s.firstAbsent a n with
  | none => rw [access_ok s a n _ h]; exact .next t
  | some b => rw [access_fault s a b n _ h]; exact .stop _ (.absent b hi (isPopulated_of_firstAbsent h))

/-- A shift completes, whatever its amount (`42_shift.md` R150). -/
theorem answers_shift (i : Instr) (s : State) (ra : RegNum) (op : ShiftOp) (v n : Word) :
    Answers i s (s.shift ra op v n) := by
  rcases shift_cases s ra op v n with ⟨-, h⟩ | ⟨-, h⟩ <;> (rw [h]; exact .next _)

/-- A port input completes, or is stuck in a read that the environment never answers (`45_port_io.md` R190). -/
theorem answers_input {i : Instr} {ra : RegNum} {p : PortNum}
    (hi : i ∈ [Instr.inpbu ra p, .inpb ra p, .inphu ra p, .inph ra p, .inp ra p]) (s : State) : Answers i s (exec i s) := by
  obtain ⟨f, hx⟩ := exec_eq_input hi s
  rw [hx]
  by_cases hw : WillAnswer s
  · obtain ⟨t, v, h, -⟩ := input_readsPort s ra p f hw
    rw [h]
    exact .next t
  · rw [input_stuck s ra p f hw]
    exact .stop _ (.stuck ra p hi hw)

/-- DIV completes, by zero and on overflow too (`41_arithmetic.md` R142, R143). -/
theorem answers_div (i : Instr) (s : State) (ra rb rc rd : RegNum) : Answers i s (exec (.div ra rb rc rd) s) := by
  by_cases h0 : s.reg rc = 0#32
  · rw [exec_div_of_zero h0]; exact .next _
  by_cases hov : s.reg rb = 0x80000000#32 ∧ s.reg rc = 0xFFFFFFFF#32
  · rw [exec_div_of_overflow hov.1 hov.2]; exact .next _
  · rw [exec_div_of_settled h0 hov]; exact .next _

/-- DIVU completes, by zero too (`41_arithmetic.md` R143). -/
theorem answers_divu (i : Instr) (s : State) (ra rb rc rd : RegNum) : Answers i s (exec (.divu ra rb rc rd) s) := by
  by_cases h0 : s.reg rc = 0#32
  · rw [exec_divu_of_zero h0]; exact .next _
  · rw [exec_divu_of_ne_zero h0]; exact .next _

/-- DIVI stops with the immediate 0 and completes with any other (`41_arithmetic.md` R141, R143). -/
theorem answers_divi (s : State) (ra rb : RegNum) (k : Half) : Answers (.divi ra rb k) s (exec (.divi ra rb k) s) := by
  by_cases h0 : k = 0#16
  · subst h0
    exact .stop _ (.divideByZero ra rb rfl)
  rcases Nat.mod_two_eq_zero_or_one k.toNat with heven | hodd
  · rw [exec_divi_of_even heven h0]
    split_ifs <;> exact .next _
  · rw [exec_divi_of_odd hodd]
    split_ifs <;> exact .next _

/-- Every meaning answers a next state or one of its stops. -/
theorem exec_answers (i : Instr) (s : State) : Answers i s (exec i s) := by
  cases i with
  | invalid06 | invalid07 | invalid38 | invalid39 | invalid3A | invalid3B | invalid3C | invalid3D | invalid3E
  | invalid3F => exact .stop _ (.invalid rfl)
  | lbu | lb | lhu | lh | lw => exact answers_access (.inl rfl) _ _ _
  | sb | sh | sw => exact answers_access (.inr rfl) _ _ _
  | divi ra rb k => exact answers_divi s ra rb k
  | div ra rb rc rd => exact answers_div _ s ra rb rc rd
  | divu ra rb rc rd => exact answers_divu _ s ra rb rc rd
  | inpbu ra p | inpb ra p | inphu ra p | inph ra p | inp ra p => exact answers_input (ra := ra) (p := p) (by simp) s
  | srav | sra | srlv | srl | sllv | sll | sllvDup | sllDup => exact answers_shift _ s _ _ _ _
  | jr rb =>
    by_cases h29 : rb = 29#5
    · subst h29
      exact .next _
    · rw [exec_jr_of_ne s h29]
      exact .next _
  | or | ori | and | andi | xor | xori | add | addi | sub | subi | mult | multi | eq | eqi | eqDup | equi | lt | lti | ltu
  | ltui | outpb | outph | outp | ja | j | bz | bzi | bnz | bnzi | nop => exact .next _

/-- The interrupt check has a meaning in every state. -/
theorem checkInterrupts_ne_refused (s : State) (r : Refusal) : s.checkInterrupts ≠ .refused r := by
  rcases checkInterrupts_cases s with ⟨-, h⟩ | ⟨-, n, -, -, h⟩ <;> rw [h]
  · exact nofun
  · rcases service_cases s.receive n with ⟨b, -, h'⟩ | ⟨-, -, h'⟩ | ⟨-, -, h'⟩ <;> rw [h'] <;> exact nofun

theorem step_ne_refused (s : State) (r : Refusal) : step s ≠ .refused r := by
  cases hcheck : s.checkInterrupts with
  | fault f => rw [step_of_check_fault hcheck]; exact nofun
  | refused q => exact absurd hcheck (checkInterrupts_ne_refused s q)
  | next t =>
    cases hfetch : t.fetch with
    | error f => rw [step_of_fetch_error hcheck hfetch]; exact nofun
    | ok w => rw [step_eq s t w hcheck hfetch]; exact (exec_answers _ _).ne_refused r

/-! ### Arrivals (R272) -/

/-- After the arrivals of a check the numbers received are pending with the old ones (decision D24). -/
theorem receive_pending (s : State) :
    s.receive.pending = receiveNumbers s.platform.nInt s.pending (arrivals s) := by
  rcases receive_cases s with ⟨hirq, h⟩ | ⟨ns, rest, hirq, h⟩ <;> rw [h, arrivals, hirq] <;> rfl

theorem mem_receive_pending (s : State) (n : Nat) :
    n ∈ s.receive.pending ↔ n ∈ s.pending ∨ (n ∈ arrivals s ∧ 1 ≤ n ∧ n ≤ s.platform.nInt) := by
  rw [receive_pending, mem_receiveNumbers]

theorem reg_receive (s : State) (r : RegNum) : s.receive.reg r = s.reg r := by
  rw [receive_eq]
  exact reg_congr _ _ r rfl rfl rfl rfl

@[simp] theorem receive_inService (s : State) : s.receive.inService = s.inService := by rw [receive_eq]

/-! ### Service (R273 to R278) -/

/-- The state in which interrupt `n` no longer counts as pending and nothing else has happened since the arrivals of the
check. -/
def State.serviced (s : State) (n : Nat) : State :=
  { s.receive with pending := s.receive.pending.filter fun k => k != n }

section
variable {s : State} {n : Nat}

theorem mem_serviced_pending (k : Nat) : k ∈ (s.serviced n).pending ↔ k ∈ s.receive.pending ∧ k ≠ n := by
  rw [State.serviced, List.mem_filter, bne_iff_ne]

theorem reg_serviced (r : RegNum) : (s.serviced n).reg r = s.reg r :=
  (reg_congr s.receive _ r rfl rfl rfl rfl).trans (reg_receive s r)

theorem serviced_pc : (s.serviced n).pc = s.pc := receive_pc s

theorem serviced_inService : (s.serviced n).inService = s.inService := receive_inService s

/-- A serviced interrupt whose vector word is populated is taken off the pending ones; then its handler is entered, unless
the vector is zero (`60_exceptions.md` R273, R278, decision D23). -/
theorem checkInterrupts_of_populated_vector (hs : Services s n) (hp : Populated s (s.vectorAddr n) 4) :
    s.checkInterrupts = .next (if s.peekWord (s.vectorAddr n) = 0#32 then s.serviced n
      else (s.serviced n).enterInterrupt (s.peekWord (s.vectorAddr n))) := by
  have hnone : s.receive.firstAbsent (s.receive.vectorAddr n) 4 = none := by
    rw [receive_vectorAddr, ← populated_iff]
    exact hp.of_platform_eq (receive_platform s)
  have hword : s.receive.peekWord (s.receive.vectorAddr n) = s.peekWord (s.vectorAddr n) := by
    rw [receive_vectorAddr, peekWord_congr s s.receive _ (receive_mem s)]
  rw [checkInterrupts_of_services hs, ← hword]
  rcases service_cases s.receive n with ⟨b, hb, -⟩ | ⟨-, hzero, h⟩ | ⟨-, hne, h⟩
  · exact nomatch hnone.symm.trans hb
  · rw [h, if_pos hzero, State.serviced]
  · rw [h, if_neg hne, State.serviced]

/-- The check leaves memory and the parameters alone, so that the step executes the word which the state before it holds
where the program counter then is. -/
theorem step_of_checkInterrupts {t : State} {a : Word} (hcheck : s.checkInterrupts = .next t) (hpc : t.pc = a)
    (ha : a.extractLsb' 0 2 = 0#2) (hp : Populated s a 4) : step s = exec (decodeWord (s.peekWord a)) t.advance := by
  subst hpc
  rw [← peekWord_congr s t t.pc (checkInterrupts_mem hcheck)]
  exact step_eq s t _ hcheck (fetch_of_populated ha (hp.of_platform_eq (checkInterrupts_platform hcheck)))

theorem checkInterrupts_sameMemory {t : State} (h : s.checkInterrupts = .next t) : SameMemory s t := fun a =>
  congrArg (Memory.read · a.toNat) (checkInterrupts_mem h)

end

/-! ### The statements -/

/-- Settles O44: the check, the fetch and every meaning answer a next state or a fault, and a meaning's faults are its
stops. -/
theorem nothingIsRefusedAndFewThingsFault : Obligations.NothingIsRefusedAndFewThingsFault := by
  refine ⟨step_ne_refused, fun i s f h => ?_⟩
  have hstop : Stop i s f := (h ▸ exec_answers i s).stop_of_fault
  cases hstop with
  | invalid hi => exact .inl ⟨hi, rfl⟩
  | absent b hi hb => exact .inr (.inl ⟨hi, b, rfl, hb⟩)
  | divideByZero ra rb hi => exact .inr (.inr (.inl ⟨⟨ra, rb, hi⟩, rfl⟩))
  | stuck ra p hi hw => exact .inr (.inr (.inr ⟨ra, p, hi, hw, rfl⟩))

/-- Settles O46: the pending numbers stay strictly rising, so none of them stands there twice. -/
theorem arrivalsAddInterruptNumbers : Obligations.ArrivalsAddInterruptNumbers := by
  intro s n hs
  have hnodup : s.receive.pending.Nodup := (receive_inv hs).rising.imp Nat.ne_of_lt
  exact ⟨mem_receive_pending s n, List.nodup_iff_count_le_one.mp hnodup n⟩

/-- Settles O47: the check enters the handler of the interrupt it has serviced, and the step fetches from there. -/
theorem interruptEntry : Obligations.InterruptEntry := by
  intro s n v hs hp hv hne
  have hcheck : s.checkInterrupts = .next ((s.serviced n).enterInterrupt v) := by
    rw [checkInterrupts_of_populated_vector hs hp, ← hv, if_neg hne]
  refine ⟨_, hcheck, ?savedPc, rfl, rfl, mem_serviced_pending, fun r h29 h31 => ?otherRegs,
    checkInterrupts_sameMemory hcheck, checkInterrupts_samePorts hcheck, checkInterrupts_platform hcheck,
    step_of_checkInterrupts hcheck rfl⟩
  case savedPc => rw [reg_enterInterrupt, if_pos rfl, serviced_pc]
  case otherRegs => rw [reg_enterInterrupt, if_neg h29, if_neg h31, reg_serviced]

/-- Settles O49: the check stops at taking the number off the pending ones, and the step fetches at the program counter. -/
theorem aZeroVectorIsServicedWithoutAction : Obligations.AZeroVectorIsServicedWithoutAction := by
  intro s n hs hp hzero
  have hcheck : s.checkInterrupts = .next (s.serviced n) := by
    rw [checkInterrupts_of_populated_vector hs hp, if_pos hzero]
  obtain ⟨hoff, -⟩ := hs
  exact ⟨_, hcheck, reg_serviced, serviced_inService.trans hoff, mem_serviced_pending,
    checkInterrupts_sameMemory hcheck, checkInterrupts_samePorts hcheck, checkInterrupts_platform hcheck,
    step_of_checkInterrupts hcheck serviced_pc⟩

/-- Settles O50: with the lock on the check is the arrivals alone, and the rest of the step is its instruction. -/
theorem theLockHoldsUntilJumpRegister29 : Obligations.TheLockHoldsUntilJumpRegister29 := by
  intro s t w hon hfetch hstep
  rw [step_eq s s.receive w (checkInterrupts_of_noService (.inl hon)) hfetch] at hstep
  obtain ⟨hlock, hpending, -⟩ := instructionsAndTheInterruptState _ _ _ hstep
  rw [advance_inService, receive_inService, hon] at hlock
  refine ⟨hlock, fun k hk => ?stays, fun h29 => ?reg29⟩
  case stays =>
    rw [hpending, advance_pending, mem_receive_pending]
    exact .inl hk
  case reg29 =>
    rw [registersChangeOnlyAsNamedDestinations _ _ _ _ hstep h29 (by decide) (by decide),
      reg_advance_of_ne _ (by decide), reg_receive]

/-- Settles O48: the sum wraps at 2^32, and the number of four bytes is below 2^32. -/
theorem theVectorWordOfAnInterrupt : Obligations.TheVectorWordOfAnInterrupt := by
  intro s n
  constructor
  · rw [State.vectorAddr, BitVec.toNat_add, BitVec.toNat_ofNat]
    omega
  · rw [peekWord_eq_ofNat, BitVec.toNat_ofNat]
    apply Nat.mod_eq_of_lt
    omega

end Sys2Proof.Machine
end

section
/-! Proofs of the statements about the start and the end of a run (`70_reset_and_hazards.md`): where the loader puts the
lines of an image, and why a J to itself stays where it is. -/

namespace Sys2Proof.Machine

/-! ### The loader (R312) -/

theorem loadFrom_cons (s : State) (n : Nat) (w : Word) (ws : List Word) :
    s.loadFrom n (w :: ws) = (s.pokeWord (BitVec.ofNat 32 (4 * n)) w).loadFrom (n + 1) ws := by
  rw [State.loadFrom]

/-- The loader writes memory and nothing else. -/
theorem loadFrom_eq (ws : List Word) : ∀ (s : State) (n : Nat),
    s.loadFrom n ws = { s with mem := (s.loadFrom n ws).mem } := by
  induction ws with
  | nil => exact fun _ _ => rfl
  | cons w ws ih =>
    intro s n
    rw [loadFrom_cons, ih]
    simp only [pokeWord_gpr, pokeWord_r29, pokeWord_status, pokeWord_pc, pokeWord_pending, pokeWord_inService,
      pokeWord_portLog, pokeWord_platform, pokeWord_irqIn, pokeWord_portIn, pokeWord_draws]

theorem loadFrom_mem_wf (ws : List Word) : ∀ {s : State} (n : Nat), s.mem.wf = true → (s.loadFrom n ws).mem.wf = true := by
  induction ws with
  | nil => exact fun _ h => h
  | cons w ws ih =>
    intro s n h
    rw [loadFrom_cons]
    exact ih (n + 1) (pokeWord_wf _ _ _ h)

/-- The loader keeps every byte below and above the lines it stores. -/
theorem peekByte_loadFrom_of_outside (ws : List Word) : ∀ (s : State) (n : Nat) {b : Word},
    4 * (n + ws.length) ≤ 2 ^ 32 → b.toNat < 4 * n ∨ 4 * (n + ws.length) ≤ b.toNat →
    (s.loadFrom n ws).peekByte b = s.peekByte b := by
  induction ws with
  | nil => exact fun _ _ _ _ _ => rfl
  | cons w ws ih =>
    intro s n b hfit hb
    rw [List.length_cons] at hfit hb
    rw [loadFrom_cons, ih _ (n + 1) (by omega) (by omega)]
    exact peekByte_pokeWord_of_ne s w fun k hk => by bv_omega

/-- The loader keeps a word below the lines it stores. -/
theorem peekWord_loadFrom_below (ws : List Word) (s : State) {n m : Nat} (hfit : 4 * (n + ws.length) ≤ 2 ^ 32) (hm : m < n) :
    (s.loadFrom n ws).peekWord (BitVec.ofNat 32 (4 * m)) = s.peekWord (BitVec.ofNat 32 (4 * m)) := by
  have hbyte (k : Nat) (hk : k < 4) : (s.loadFrom n ws).peekByte (BitVec.ofNat 32 (4 * m) + BitVec.ofNat 32 k) =
      s.peekByte (BitVec.ofNat 32 (4 * m) + BitVec.ofNat 32 k) :=
    peekByte_loadFrom_of_outside ws s n hfit (.inl (by bv_omega))
  have hbyte0 := hbyte 0 (by decide)
  rw [BitVec.add_zero] at hbyte0
  rw [State.peekWord, hbyte0, hbyte 1 (by decide), hbyte 2 (by decide), hbyte 3 (by decide), State.peekWord]

/-- Each line stands where the loader has put it: the lines after it go above it. -/
theorem peekWord_loadFrom (ws : List Word) : ∀ (s : State) (n k : Nat) (hk : k < ws.length),
    4 * (n + ws.length) ≤ 2 ^ 32 → (s.loadFrom n ws).peekWord (BitVec.ofNat 32 (4 * (n + k))) = ws[k] := by
  induction ws with
  | nil => exact fun _ _ _ hk => absurd hk (Nat.not_lt_zero _)
  | cons w ws ih =>
    intro s n k hk hfit
    have hfit' : 4 * (n + 1 + ws.length) ≤ 2 ^ 32 := by rw [List.length_cons] at hfit; omega
    cases k with
    | zero =>
      rw [loadFrom_cons]
      exact (peekWord_loadFrom_below ws _ hfit' n.lt_succ_self).trans (peekWord_pokeWord_same s _ w)
    | succ k =>
      rw [loadFrom_cons, ← Nat.add_assoc, Nat.add_right_comm]
      exact ih _ (n + 1) k (Nat.lt_of_succ_lt_succ hk) hfit'

/-! ### The end of a run (R311) -/

/-- Nothing is pending and nothing the environment will still send is an interrupt. -/
theorem isQuiet_iff (s : State) :
    s.isQuiet = true ↔ s.pending = [] ∧ ∀ ns ∈ s.irqIn, ∀ n ∈ ns, ¬(1 ≤ n ∧ n ≤ s.platform.nInt) := by
  simp only [State.isQuiet, Bool.and_eq_true, List.isEmpty_iff, List.all_eq_true, Bool.not_eq_true', ← Bool.not_eq_true,
    decide_eq_true_iff]

theorem atEndOfRun_iff (s : State) :
    s.atEndOfRun = true ↔ s.isQuiet = true ∧ ∃ w, s.fetch = .ok w ∧ decodeWord w = .j 0x3FFFFFF#26 := by
  rw [State.atEndOfRun, Bool.and_eq_true]
  cases s.fetch <;> simp

/-- In a quiet state nothing is received at a check, and the script moves on. -/
theorem receive_of_isQuiet {s : State} (h : s.isQuiet = true) : s.receive = { s with irqIn := s.irqIn.tail } := by
  obtain ⟨hnone, hscript⟩ := (isQuiet_iff s).mp h
  have hpending : s.receive.pending = s.pending := by
    rw [hnone, List.eq_nil_iff_forall_not_mem]
    intro n hn
    rcases (mem_receive_pending s n).mp hn with hold | ⟨hnew, hrange⟩
    · exact List.not_mem_nil (hnone ▸ hold)
    · cases hirq : s.irqIn with
      | nil => rw [arrivals, hirq] at hnew; cases hnew
      | cons ns rest =>
        rw [arrivals, hirq] at hnew
        exact hscript ns (hirq ▸ List.mem_cons_self) n hnew hrange
  have htail : s.receive.irqIn = s.irqIn.tail := by
    rcases receive_cases s with ⟨hirq, h'⟩ | ⟨ns, rest, hirq, h'⟩ <;> rw [h', hirq] <;> rfl
  rw [receive_eq, hpending, htail]

/-- A quiet state stays quiet over the arrivals of a check. -/
theorem isQuiet_receive {s : State} (h : s.isQuiet = true) : s.receive.isQuiet = true := by
  obtain ⟨hnone, hscript⟩ := (isQuiet_iff s).mp h
  rw [receive_of_isQuiet h, isQuiet_iff]
  exact ⟨hnone, fun ns hns => hscript ns (List.mem_of_mem_tail hns)⟩

/-- The J whose field is -1 jumps to its own address, which the advance has left 4 behind (`46_branch.md` R212). -/
theorem exec_j_self (s : State) : exec (.j 0x3FFFFFF#26) s.advance = .next s := by
  have htarget : BitVec.ofInt 32 (s.advance.pc.toNat + 4 * (0x3FFFFFF#26).toInt) = s.pc := by
    have hback : BitVec.ofInt 32 (4 * (0x3FFFFFF#26).toInt) = -4#32 := by decide
    rw [ofInt_toNat_add, advance_pc, hback, ← BitVec.sub_eq_add_neg, BitVec.add_sub_cancel]
  rw [exec_j, htarget]
  rfl

/-! ### The statements -/

/-- Settles O56: the loader's lines, its frame and its canonical memory, from the state at reset with the host's
arguments. -/
theorem theLoaderPlacesTheImage : Obligations.TheLoaderPlacesTheImage := by
  intro p irq ports image hfit
  have hfit' : 4 * (0 + image.length) ≤ 2 ^ 32 := by rwa [Nat.zero_add]
  have hframe := loadFrom_eq image { State.reset with platform := p, irqIn := irq, portIn := ports } 0
  refine ⟨fun n h => ?lines, fun b hb => ?above, ?invariant, hframe⟩
  case lines =>
    have hline := peekWord_loadFrom image { State.reset with platform := p, irqIn := irq, portIn := ports } 0 n h hfit'
    rwa [Nat.zero_add] at hline
  case above => exact peekByte_loadFrom_of_outside image _ 0 hfit' (.inr (by rwa [Nat.zero_add]))
  case invariant =>
    have hpending : (State.start p irq ports image).pending = [] := congrArg State.pending hframe
    exact ⟨loadFrom_mem_wf image 0 reset_mem_wf, hpending ▸ .nil, fun n hn => nomatch hpending ▸ hn⟩

/-- Settles O60: the check only moves the script on, the J leads back to itself, and the next fetch finds the same J. -/
theorem theEndOfARunStays : Obligations.TheEndOfARunStays := by
  intro s hend
  obtain ⟨hquiet, w, hfetch, hjump⟩ := (atEndOfRun_iff s).mp hend
  obtain ⟨hnone, -⟩ := (isQuiet_iff _).mp (isQuiet_receive hquiet)
  have hfetch' : s.receive.fetch = .ok w := by rw [receive_fetch, hfetch]
  rw [← receive_of_isQuiet hquiet]
  refine ⟨?step, (atEndOfRun_iff _).mpr ⟨isQuiet_receive hquiet, w, hfetch', hjump⟩⟩
  rw [step_eq s _ w (checkInterrupts_of_noService (.inr hnone)) hfetch', hjump, exec_j_self]

end Sys2Proof.Machine
end
